-- ==== Sys2Proof/Word.lean ====
section
/-! DEFINITION. The word types of the Javion CORE (00_scope.md rules R9, R11, R13). -/

namespace Sys2Proof

/-- A byte of the stream or of the byte buffer `BB`. -/
abbrev Byte := BitVec 8

/-- A 64-bit value: `RES`, `V`, `POS`, `LE`, `FTS`, `BYTES_IN` (R9, R30). -/
abbrev Word64 := BitVec 64

/-- A centred 12-bit sample, two's complement (R37, R210). -/
abbrev Sample := BitVec 12

/-- A stored power sample: 27 significant bits (R38, R235). -/
abbrev Power := BitVec 27

/-- A 24-bit CRC register or table entry (R190). -/
abbrev Crc := BitVec 24

/-- A 128-bit command descriptor (R100). -/
abbrev Descriptor := BitVec 128

end Sys2Proof
end

