-- ==== Sys2Proof/Config.lean ====
section
/-! DEFINITION. What a build of the CORE fixes: the constants of 00_scope.md R7 and R9, the configuration parameters of
R8, and the model's free values. -/

namespace Sys2Proof.Config

/-- `PEAK_CMP` (R8, R281): how the peak sum is compared with twice the valley sum. -/
inductive PeakCmp where
  | gt
  | ge
deriving DecidableEq, Repr

/-- `ALT_RULE` (R8, R334): which Gray codes the altitude decoder rejects. -/
inductive AltRule where
  | doc
  | gillham
deriving DecidableEq, Repr

/-- `NIBBLE_MODE` (R8, R212): what a nonzero upper nibble of a sample's second byte does. -/
inductive NibbleMode where
  | fault
  | mask
deriving DecidableEq, Repr

/-- The configuration parameters of R8. They are fixed for a build: no command and no reset writes them (R30, R392). -/
structure Params where
  /-- `DM_WINDOW`, legal 1196..65536. -/
  dmWindow   : BitVec 17
  /-- `FRAME_SKIP`, legal 1..65535. -/
  frameSkip  : BitVec 16
  peakCmp    : PeakCmp
  altRule    : AltRule
  nibbleMode : NibbleMode
deriving DecidableEq, Repr

/-- The defaults of R8: "the value this spec's hardware takes". -/
def Params.default : Params :=
  { dmWindow := 1200, frameSkip := 1200, peakCmp := .gt, altRule := .doc, nibbleMode := .fault }

/-- The legal values of R8. -/
def Params.legal (p : Params) : Bool :=
  decide (1196 ≤ p.dmWindow.toNat) && decide (p.dmWindow.toNat ≤ 65536) && decide (1 ≤ p.frameSkip.toNat)

/-! Fixed constants (R7, R9). -/

/-- `SAMPLE_BIAS` (R7). -/
def sampleBias : Nat := 2048
/-- `PW_BATCH`: power samples a buffer holds, also `WSIZE_MAX` (R7). -/
def pwBatch : Nat := 65536
/-- `PEAK_OFFSETS` (R7). -/
def peakOffsets : List Nat := [0, 10, 35, 45]
/-- `VALLEY_OFFSETS` (R7). -/
def valleyOffsets : List Nat := [5, 15, 20, 25, 30, 40]
/-- `BIT_BASE` (R7). -/
def bitBase : Nat := 80
/-- `BIT_PITCH` (R7). -/
def bitPitch : Nat := 10
/-- `BIT_HALF` (R7). -/
def bitHalf : Nat := 5
/-- `FRAME_BYTES` (R7). -/
def frameBytes : Nat := 14
/-- `DF_REQUIRED` (R7). -/
def dfRequired : Nat := 17
/-- `TS_UNIT_NS` (R7). -/
def tsUnitNs : Nat := 100
/-- `BB_SIZE` (R9). -/
def bbSize : Nat := 256
/-- `MAX_RANGE_BYTES` (R9). -/
def maxRangeBytes : Nat := 8
/-- The constant of the ID register (R56): "JAVI" and the document revision 7. -/
def idConstant : Word64 := 0x0000_0007_4A41_5649

/-! Free values: nothing constrains them. -/

/-- FREE VALUE (DESIGN CHOICE, log 5): what `LE` holds after an increment at 2^64 - 1. R30 makes `LE` 64 bits wide, R252
writes `LE <- LE + 1`, and no rule states the value there. Applied to the count of stream events taken. -/
opaque lePastLimit : Nat → Word64

/-- FREE VALUE (log 14): byte `n` of an endless stream, "an infinite list of bytes" the host chooses (R81). -/
opaque liveByte : Nat → Byte

end Sys2Proof.Config
end

