-- ==== Sys2Proof/Syntax.lean ====
section
/-! DEFINITION. The commands of the CORE: one constructor per row of spec/opcode_table.json (30_encoding.md R105).

An operand the spec compares or counts with (`A_s`, `SUB`, a count in `IMM16`) is the mathematical integer of R104, whose
range WellFormed.lean states; an operand whose bits the spec slices (`V`, BB_WR's and ALT_DEC's `IMM16`) is a bit vector. -/

namespace Sys2Proof

inductive Instr where
  /-- NOP (R140). -/
  | nop
  /-- INIT: tap = SUB, w = A_s (R141). -/
  | init (tap : Nat) (w : Int)
  /-- CSRR: n = SUB (R147). -/
  | csrr (n : Nat)
  /-- SD_NEXT (R214). -/
  | sdNext
  /-- PC_NEXT (R234). -/
  | pcNext
  /-- PW_GET: i = A_s (R257). -/
  | pwGet (i : Int)
  /-- PW_ADV (R258). -/
  | pwAdv
  /-- PW_ADVN: n = A_s (R259). -/
  | pwAdvn (n : Int)
  /-- PW_FULL (R260). -/
  | pwFull
  /-- DM_NEXT (R289). -/
  | dmNext
  /-- CRC_BUF: the range from lo = A_s up to, not including, hi = IMM16 (R196). -/
  | crcBuf (lo : Int) (hi : Nat)
  /-- CRC_TAB: index = IMM16 (R197). -/
  | crcTab (index : Nat)
  /-- BF_EXT: value = V, start = A_s, size = IMM16 (R160). -/
  | bfExt (value : Word64) (start : Int) (size : Nat)
  /-- BF_TST: value = V, index = A_s (R161). -/
  | bfTst (value : Word64) (index : Int)
  /-- BB_WR: index = A_s, imm = IMM16 whose low byte is the byte written (R162). -/
  | bbWr (index : Int) (imm : BitVec 16)
  /-- BS_BYTE: index = A_s (R163). -/
  | bsByte (index : Int)
  /-- BS_RANGE: the range from lo = A_s up to, not including, hi = IMM16 (R164). -/
  | bsRange (lo : Int) (hi : Nat)
  /-- FR_DF (R311). -/
  | frDf
  /-- FR_ICAO (R312). -/
  | frIcao
  /-- FR_ME (R313). -/
  | frMe
  /-- FR_TC (R314). -/
  | frTc
  /-- FR_CHECK (R315). -/
  | frCheck
  /-- ALT_DEC: imm = IMM16 whose low 12 bits are the altitude field (R337). -/
  | altDec (imm : BitVec 16)
deriving DecidableEq, Repr

end Sys2Proof
end

