-- ==== Sys2Proof/WellFormed.lean ====
section
/-! DEFINITION. Well-formed commands: every operand is a value its descriptor field can carry (30_encoding.md R101, R104).
A value a field can carry and the command then refuses (INIT 5, BF_EXT size 40) is well formed: the refusal is a status. -/

namespace Sys2Proof

/-- `A_s`: a value in -2^31..2^31 - 1 (R104). -/
def inSigned32 (a : Int) : Bool := decide (-2147483648 ≤ a) && decide (a ≤ 2147483647)

/-- `IMM16`: a value in 0..65535 (R104). -/
def inUnsigned16 (n : Nat) : Bool := decide (n ≤ 65535)

/-- `SUB`: an unsigned 8-bit value (R104). -/
def inUnsigned8 (n : Nat) : Bool := decide (n ≤ 255)

/-- Every operand fits its field. -/
def Instr.wf : Instr → Bool
  | .nop => true
  | .init tap w => inUnsigned8 tap && inSigned32 w
  | .csrr n => inUnsigned8 n
  | .sdNext => true
  | .pcNext => true
  | .pwGet i => inSigned32 i
  | .pwAdv => true
  | .pwAdvn n => inSigned32 n
  | .pwFull => true
  | .dmNext => true
  | .crcBuf lo hi => inSigned32 lo && inUnsigned16 hi
  | .crcTab index => inUnsigned16 index
  | .bfExt _ start size => inSigned32 start && inUnsigned16 size
  | .bfTst _ index => inSigned32 index
  | .bbWr index _ => inSigned32 index
  | .bsByte index => inSigned32 index
  | .bsRange lo hi => inSigned32 lo && inUnsigned16 hi
  | .frDf => true
  | .frIcao => true
  | .frMe => true
  | .frTc => true
  | .frCheck => true
  | .altDec _ => true

end Sys2Proof
end

