-- ==== Sys2Proof/Decode.lean ====
section
/-! DEFINITION. Decoding and encoding of the 128-bit command descriptor (30_encoding.md R100 to R107).

The decoder carries the checks of R106 that look at the descriptor alone: the opcode, then the reserved fields. The two
checks that look at the state (`TAP`, `FATAL`) stand in Machine/Ops.lean, since they need it. -/

namespace Sys2Proof

/-- The fields of a descriptor (R101). -/
structure Fields where
  opc : BitVec 8
  sub : BitVec 8
  imm : BitVec 16
  a   : BitVec 32
  v   : BitVec 64
deriving DecidableEq, Repr

/-- The formats of R103. -/
inductive Format where
  | n
  | t
  | c
  | a
  | ai
  | m
  | va
  | vai
deriving DecidableEq, Repr

/-- The opcodes of R105, one per command. -/
inductive Op where
  | nop
  | init
  | csrr
  | sdNext
  | pcNext
  | pwGet
  | pwAdv
  | pwAdvn
  | pwFull
  | dmNext
  | crcBuf
  | crcTab
  | bfExt
  | bfTst
  | bbWr
  | bsByte
  | bsRange
  | frDf
  | frIcao
  | frMe
  | frTc
  | frCheck
  | altDec
deriving DecidableEq, Repr

/-- Why a descriptor is no command (R106, R107). -/
inductive DecodeError where
  /-- `OPC` is not in the map of R105. -/
  | illegalOpcode
  /-- A field the format does not use is nonzero. -/
  | reservedField
deriving DecidableEq, Repr

/-- What the decoder answers for a descriptor. -/
inductive Decoded where
  | instr (i : Instr)
  | rejected (e : DecodeError)
deriving DecidableEq, Repr

/-- What the decoder answers for a list of bytes. -/
inductive DecodedBytes where
  | instr (i : Instr)
  | rejected (e : DecodeError)
  /-- The list is not 16 bytes long, so it is no descriptor (R100; log 13). -/
  | notADescriptor
deriving DecidableEq, Repr

/-- The `OPC` column of R105. -/
def Op.code : Op → BitVec 8
  | .nop => 0x00
  | .init => 0x01
  | .csrr => 0x02
  | .sdNext => 0x10
  | .pcNext => 0x18
  | .pwGet => 0x20
  | .pwAdv => 0x21
  | .pwAdvn => 0x22
  | .pwFull => 0x23
  | .dmNext => 0x28
  | .crcBuf => 0x30
  | .crcTab => 0x31
  | .bfExt => 0x38
  | .bfTst => 0x39
  | .bbWr => 0x40
  | .bsByte => 0x41
  | .bsRange => 0x42
  | .frDf => 0x48
  | .frIcao => 0x49
  | .frMe => 0x4A
  | .frTc => 0x4B
  | .frCheck => 0x4C
  | .altDec => 0x50

/-- The format column of R105. -/
def Op.format : Op → Format
  | .nop => .n
  | .init => .t
  | .csrr => .c
  | .sdNext => .n
  | .pcNext => .n
  | .pwGet => .a
  | .pwAdv => .n
  | .pwAdvn => .a
  | .pwFull => .n
  | .dmNext => .n
  | .crcBuf => .ai
  | .crcTab => .m
  | .bfExt => .vai
  | .bfTst => .va
  | .bbWr => .ai
  | .bsByte => .a
  | .bsRange => .ai
  | .frDf => .n
  | .frIcao => .n
  | .frMe => .n
  | .frTc => .n
  | .frCheck => .n
  | .altDec => .m

/-- Every opcode of the map (R105). -/
def Op.all : List Op :=
  [.nop, .init, .csrr, .sdNext, .pcNext, .pwGet, .pwAdv, .pwAdvn, .pwFull, .dmNext, .crcBuf, .crcTab] ++
  [.bfExt, .bfTst, .bbWr, .bsByte, .bsRange, .frDf, .frIcao, .frMe, .frTc, .frCheck, .altDec]

/-- The opcode a code stands for; none for the 233 illegal values (R107). -/
def Op.ofCode (c : BitVec 8) : Option Op := Op.all.find? fun o => o.code == c

/-- The fields a format does not use are zero (R103). -/
def Format.reservedZero : Format → Fields → Bool
  | .n, f => f.sub == 0 && f.imm == 0 && f.a == 0 && f.v == 0
  | .t, f => f.imm == 0 && f.v == 0
  | .c, f => f.imm == 0 && f.a == 0 && f.v == 0
  | .a, f => f.sub == 0 && f.imm == 0 && f.v == 0
  | .ai, f => f.sub == 0 && f.v == 0
  | .m, f => f.sub == 0 && f.a == 0 && f.v == 0
  | .va, f => f.sub == 0 && f.imm == 0
  | .vai, f => f.sub == 0

/-- The fields of a descriptor (R101). -/
def fieldsOf (d : Descriptor) : Fields :=
  { opc := d.extractLsb' 0 8, sub := d.extractLsb' 8 8, imm := d.extractLsb' 16 16, a := d.extractLsb' 32 32,
    v := d.extractLsb' 64 64 }

/-- The descriptor with the given fields: `V<<64 | A<<32 | IMM16<<16 | SUB<<8 | OPC` (R102). -/
def pack (f : Fields) : Descriptor := f.v ++ f.a ++ f.imm ++ f.sub ++ f.opc

/-- Operand assembly (R104, R105): which field is which operand, `A` read signed, `SUB` and `IMM16` unsigned. -/
def Op.build (o : Op) (f : Fields) : Instr :=
  match o with
  | .nop => .nop
  | .init => .init f.sub.toNat f.a.toInt
  | .csrr => .csrr f.sub.toNat
  | .sdNext => .sdNext
  | .pcNext => .pcNext
  | .pwGet => .pwGet f.a.toInt
  | .pwAdv => .pwAdv
  | .pwAdvn => .pwAdvn f.a.toInt
  | .pwFull => .pwFull
  | .dmNext => .dmNext
  | .crcBuf => .crcBuf f.a.toInt f.imm.toNat
  | .crcTab => .crcTab f.imm.toNat
  | .bfExt => .bfExt f.v f.a.toInt f.imm.toNat
  | .bfTst => .bfTst f.v f.a.toInt
  | .bbWr => .bbWr f.a.toInt f.imm
  | .bsByte => .bsByte f.a.toInt
  | .bsRange => .bsRange f.a.toInt f.imm.toNat
  | .frDf => .frDf
  | .frIcao => .frIcao
  | .frMe => .frMe
  | .frTc => .frTc
  | .frCheck => .frCheck
  | .altDec => .altDec f.imm

/-- Decoding a descriptor: the checks of R106 on the descriptor, in R106's order. -/
def decode (d : Descriptor) : Decoded :=
  match Op.ofCode (fieldsOf d).opc with
  | none => .rejected .illegalOpcode
  | some o => if o.format.reservedZero (fieldsOf d) then .instr (o.build (fieldsOf d)) else .rejected .reservedField

/-- A number from its bytes, the lowest-addressed byte least significant. -/
def leNat : List Byte → Nat
  | [] => 0
  | b :: bs => b.toNat + 256 * leNat bs

/-- The descriptor that 16 bytes carry: byte `j` is `D[8j+7 : 8j]` (R75). -/
def descriptorOfBytes (bs : List Byte) : Descriptor := BitVec.ofNat 128 (leNat bs)

/-- Decoding bytes: a descriptor is 16 bytes and nothing else (R100; log 13). -/
def decodeBytes (bs : List Byte) : DecodedBytes :=
  if bs.length = 16 then
    match decode (descriptorOfBytes bs) with
    | .instr i => .instr i
    | .rejected e => .rejected e
  else .notADescriptor

/-! The encoder, from the same tables. -/

/-- The opcode of a command (R105). -/
def Instr.op : Instr → Op
  | .nop => .nop
  | .init _ _ => .init
  | .csrr _ => .csrr
  | .sdNext => .sdNext
  | .pcNext => .pcNext
  | .pwGet _ => .pwGet
  | .pwAdv => .pwAdv
  | .pwAdvn _ => .pwAdvn
  | .pwFull => .pwFull
  | .dmNext => .dmNext
  | .crcBuf _ _ => .crcBuf
  | .crcTab _ => .crcTab
  | .bfExt _ _ _ => .bfExt
  | .bfTst _ _ => .bfTst
  | .bbWr _ _ => .bbWr
  | .bsByte _ => .bsByte
  | .bsRange _ _ => .bsRange
  | .frDf => .frDf
  | .frIcao => .frIcao
  | .frMe => .frMe
  | .frTc => .frTc
  | .frCheck => .frCheck
  | .altDec _ => .altDec

/-- The fields of a command's descriptor: the operands in their fields, zero in every field the format does not use
(R103, R105). -/
def Instr.fields (i : Instr) : Fields :=
  let f : Fields := { opc := i.op.code, sub := 0, imm := 0, a := 0, v := 0 }
  match i with
  | .nop => f
  | .init tap w => { f with sub := BitVec.ofNat 8 tap, a := BitVec.ofInt 32 w }
  | .csrr n => { f with sub := BitVec.ofNat 8 n }
  | .sdNext => f
  | .pcNext => f
  | .pwGet i => { f with a := BitVec.ofInt 32 i }
  | .pwAdv => f
  | .pwAdvn n => { f with a := BitVec.ofInt 32 n }
  | .pwFull => f
  | .dmNext => f
  | .crcBuf lo hi => { f with a := BitVec.ofInt 32 lo, imm := BitVec.ofNat 16 hi }
  | .crcTab index => { f with imm := BitVec.ofNat 16 index }
  | .bfExt value start size => { f with v := value, a := BitVec.ofInt 32 start, imm := BitVec.ofNat 16 size }
  | .bfTst value index => { f with v := value, a := BitVec.ofInt 32 index }
  | .bbWr index imm => { f with a := BitVec.ofInt 32 index, imm := imm }
  | .bsByte index => { f with a := BitVec.ofInt 32 index }
  | .bsRange lo hi => { f with a := BitVec.ofInt 32 lo, imm := BitVec.ofNat 16 hi }
  | .frDf => f
  | .frIcao => f
  | .frMe => f
  | .frTc => f
  | .frCheck => f
  | .altDec imm => { f with imm := imm }

/-- The descriptor of a command. -/
def encode (i : Instr) : Descriptor := pack i.fields

/-- The 16 bytes the host carries for a descriptor (R75). -/
def bytesOfDescriptor (d : Descriptor) : List Byte := (List.range 16).map fun j => d.extractLsb' (8 * j) 8

/-- The descriptor that an opcode-table row's `nbits` bits `w` give, every bit above them zero. -/
def tableDescriptor (nbits w : Nat) : Descriptor := BitVec.ofNat 128 (w % 2 ^ nbits)

/-- The command the decoder reads from a word numbered as spec/opcode_table.json numbers it: the descriptor is laid out
as its 16 little-endian bytes (R75) and given to `decodeBytes`. -/
def decodeTableWord (nbits w : Nat) : Option Instr :=
  match decodeBytes (bytesOfDescriptor (tableDescriptor nbits w)) with
  | .instr i => some i
  | .rejected _ => none
  | .notADescriptor => none

end Sys2Proof
end

