-- ==== Sys2Proof/Machine/State.lean ====
section
/-! DEFINITION. The state of the Javion CORE (10_state.md R30), the host's side of it as plain data, the reasons a step
stops, and the state after reset (70_reset_and_hazards.md R391). -/

namespace Sys2Proof.Machine

open Sys2Proof.Config

/-- The status codes of 60_exceptions.md R351. No other code exists, so the type holds no other. -/
inductive Status where
  | ok
  | eos
  | noMsg
  | invalidSize
  | outOfRange
  | invalidArgument
  | ioError
  | sampleRange
  | fatal
  | illegalOpcode
  | reservedField
  | wrongTap
  | windowUnderrun
  | overflow
deriving DecidableEq, Repr

/-- `TAP`: the stage of the sample chain the host owns (10_state.md R34). Codes 5 to 7 are never stored. -/
inductive Tap where
  | idle
  | samples
  | power
  | window
  | frames
deriving DecidableEq, Repr

/-- An event of the stream port (20_memory.md R81). -/
inductive PortEvent where
  | byte (b : Byte)
  | eof
  | ioerr
deriving DecidableEq, Repr

/-- What the port does once the events lined up are used up (R81): wait for ever, return `EOF` for ever, return `IOERR`
for ever, or go on with an endless run of bytes, which are free values (log 14). -/
inductive PortRest where
  | waits
  | ends
  | fails
  | live
deriving DecidableEq, Repr

/-- The stream port (R81; log 2): the host's, not the CORE's. `taken` counts the events the CORE has taken (R407). -/
structure Port where
  ahead : List PortEvent
  rest  : PortRest
  taken : Nat
deriving DecidableEq, Repr

/-- The four kinds of stream argument (R81, P-stream of R396). -/
inductive StreamKind where
  | endsEof
  | endsIoerr
  | waits
  | infinite
deriving DecidableEq, Repr

/-- What the host does at the command side (log 1): issue a descriptor (R82, R370), or assert the external reset (R390).
A reset that abandons a running command finds `lost` further stream events consumed by it; that number is the host's,
since the port position is then any (93_implementation_defined.md O20; log 10). -/
inductive HostAct where
  | command (d : Descriptor)
  | reset (lost : Nat)
deriving DecidableEq, Repr

/-- The byte buffer `BB`: (index, byte) pairs, indices strictly rising, no zero byte listed (R42, R70; log 9). -/
abbrev Memory := List Host.Cell

/-- One window buffer `BUF[s]`: a binary tree over the bits of the slot number, lowest bit first, with every all-zero part
left out, so that equal contents are equal data (R38; log 8). -/
inductive PowerBuf where
  | zeros
  | slot (p : Power)
  | node (even odd : PowerBuf)
deriving DecidableEq, Repr

/-- The whole state. The first group is the table of 10_state.md R30; the last group is the model's own. -/
structure State where
  /-- `RES` (R31). -/
  res        : Word64
  /-- `LAST_ST`, which is also the `ST` just returned (R32, R352; log 6). -/
  lastSt     : Status
  /-- `FATAL` (R33). -/
  fatal      : Bool
  /-- `FATAL_CAUSE`, the code of `ok` (0) when there is none (R33). -/
  fatalCause : Status
  /-- `EOF_SEEN` (R33). -/
  eofSeen    : Bool
  /-- `FRAME_VALID` (R33). -/
  frameValid : Bool
  /-- `TAP` (R34). -/
  tap        : Tap
  /-- `WSIZE` (R35). -/
  wsize      : BitVec 17
  /-- `BYTES_IN` (R36). -/
  bytesIn    : Word64
  /-- `H[0..7]`, `H[0]` the oldest (R37). -/
  hist       : Vector Sample 8
  /-- `BUF[0]` (R38). -/
  buf0       : PowerBuf
  /-- `BUF[1]` (R38). -/
  buf1       : PowerBuf
  /-- `SEL` (R39). -/
  sel        : Bool
  /-- `CNT[0]` (R39). -/
  cnt0       : BitVec 17
  /-- `CNT[1]` (R39). -/
  cnt1       : BitVec 17
  /-- `LE` (R39). -/
  le         : Word64
  /-- `POS` (R39). -/
  pos        : Word64
  /-- `PREV_SUM` (R40). -/
  prevSum    : BitVec 32
  /-- `CUR_SUM` (R40). -/
  curSum     : BitVec 32
  /-- `CUR_VALID` (R40). -/
  curValid   : Bool
  /-- `FTS` (R41). -/
  fts        : Word64
  /-- `BB[0..255]` (R42). -/
  bb         : Memory
  /-- The build's parameters: fixed, no step writes them (R8, R30; log 4). -/
  params     : Params
  /-- The stream port (R81; log 2). -/
  port       : Port
  /-- The host's actions still to come, the next one first (R82, R407; log 1). -/
  queue      : List HostAct
deriving DecidableEq, Repr

/-- Why the machine itself stops. A command's errors are statuses and not faults (R350): these are the spec's "stuck", in
which nothing happens until the host acts, and its "hang" (R371, R407). -/
inductive Fault where
  /-- Raised by `step` when the host has issued no command: the CORE waits at the command port (R390, R407). Safe: there
  is no behaviour to miss. -/
  | awaitingCommand
  /-- Raised by a command that reads the stream port when the host has supplied no event (R81, R371, O7). Safe: the CORE
  waits inside the command, and no later state exists before the host acts (log 3). -/
  | awaitingStream
  /-- Raised by DM_NEXT alone, when it would scan for ever: the stream is endless and no frame stands before the positions
  where `LE` leaves 64 bits (R290, R371, R404, R407; 93_implementation_defined.md O8). Unsafe: R289 also lists OVERFLOW
  there (log 11). -/
  | endlessScan
deriving DecidableEq, Repr

/-- Why an instruction has no meaning. -/
inductive Refusal where
  /-- Raised only by an arm of `exec` whose instruction has no meaning yet; no arm does. Safe. -/
  | notModelled (mnemonic : String)
deriving DecidableEq, Repr

/-- The state after reset: the reset column of R30 (R391), the default parameters (R8), and a host that has done nothing
yet (log 1, log 2). -/
def State.reset : State :=
  { res := 0, lastSt := .ok, fatal := false, fatalCause := .ok, eofSeen := false, frameValid := false, tap := .idle,
    wsize := 0, bytesIn := 0, hist := #v[0, 0, 0, 0, 0, 0, 0, 0], buf0 := .zeros, buf1 := .zeros, sel := false,
    cnt0 := 0, cnt1 := 0, le := 0, pos := 0, prevSum := 0, curSum := 0, curValid := false, fts := 0, bb := [],
    params := Params.default, port := { ahead := [], rest := .waits, taken := 0 }, queue := [] }

end Sys2Proof.Machine
end

