-- ==== Sys2Proof/Machine/Memory.lean ====
section
/-! DEFINITION. The two stores: the byte buffer `BB` (20_memory.md R70, R71) and a window buffer `BUF[s]` (10_state.md
R38). An index nothing has written reads as 0, their reset contents (70_reset_and_hazards.md R391). -/

namespace Sys2Proof.Machine

open Sys2Proof.Config

/-- What an index of `BB` that is not listed reads as: the reset contents (R391; log 9). -/
def Memory.unlisted : Byte := 0

/-- `BB[a]`. -/
def Memory.read : Memory → Nat → Byte
  | [], _ => Memory.unlisted
  | (k, v) :: m, a => if k = a then v else Memory.read m a

/-- `(a, v)` put in front of `m`, unless `v` is what an unlisted index reads as. -/
def Memory.cons (a : Nat) (v : Byte) (m : Memory) : Memory := if v = Memory.unlisted then m else (a, v) :: m

/-- `BB[a] <- v`. -/
def Memory.write : Memory → Nat → Byte → Memory
  | [], a, v => Memory.cons a v []
  | (k, w) :: m, a, v =>
    if a < k then Memory.cons a v ((k, w) :: m)
    else if a = k then Memory.cons a v m
    else (k, w) :: Memory.write m a v

/-- `BB[a] <- b_0, BB[a+1] <- b_1, ...` in increasing order (`MemWrite`, R71). -/
def Memory.writeList : Memory → Nat → List Byte → Memory
  | m, _, [] => m
  | m, a, b :: bs => Memory.writeList (Memory.write m a b) (a + 1) bs

/-- The list `[BB[a], ..., BB[a+n-1]]` (`MemRead`, R71). -/
def Memory.readList : Memory → Nat → Nat → List Byte
  | _, _, 0 => []
  | m, a, n + 1 => Memory.read m a :: Memory.readList m (a + 1) n

/-- The canonical form from index `lo` on: indices strictly rising and inside `BB`, no unlisted value listed. -/
def Memory.wfFrom : Nat → Memory → Bool
  | _, [] => true
  | lo, (k, v) :: m =>
    decide (lo ≤ k) && decide (k < bbSize) && decide (v ≠ Memory.unlisted) && Memory.wfFrom (k + 1) m

/-- The canonical form of `BB`. -/
def Memory.wf (m : Memory) : Bool := Memory.wfFrom 0 m

/-- `BUF[s][i]`. -/
def PowerBuf.get : PowerBuf → Nat → Power
  | .zeros, _ => 0
  | .slot p, _ => p
  | .node e o, i => if i % 2 = 0 then e.get (i / 2) else o.get (i / 2)

/-- The two halves of a buffer; a buffer that is all zeros has two such halves. -/
def PowerBuf.halves : PowerBuf → PowerBuf × PowerBuf
  | .zeros => (.zeros, .zeros)
  | .slot _ => (.zeros, .zeros)
  | .node e o => (e, o)

/-- Two halves put together, all zeros left out. -/
def PowerBuf.join : PowerBuf → PowerBuf → PowerBuf
  | .zeros, .zeros => .zeros
  | e, o => .node e o

/-- `BUF[s][i] <- p` in a buffer of `2^depth` slots. -/
def PowerBuf.setAt : Nat → PowerBuf → Nat → Power → PowerBuf
  | 0, _, _, p => if p = 0 then .zeros else .slot p
  | d + 1, b, i, p =>
    if i % 2 = 0 then PowerBuf.join (PowerBuf.setAt d b.halves.1 (i / 2) p) b.halves.2
    else PowerBuf.join b.halves.1 (PowerBuf.setAt d b.halves.2 (i / 2) p)

/-- `BUF[s][i] <- p` (65536 slots, R38). -/
def PowerBuf.set (b : PowerBuf) (i : Nat) (p : Power) : PowerBuf := PowerBuf.setAt 16 b i p

/-- Not the empty buffer. -/
def PowerBuf.nonzero : PowerBuf → Bool
  | .zeros => false
  | .slot _ => true
  | .node _ _ => true

/-- The canonical form of a buffer of `2^depth` slots: no zero slot and no all-zero part is listed. -/
def PowerBuf.canonAt : Nat → PowerBuf → Bool
  | _, .zeros => true
  | 0, .slot p => decide (p ≠ 0)
  | _ + 1, .slot _ => false
  | 0, .node _ _ => false
  | d + 1, .node e o => PowerBuf.canonAt d e && PowerBuf.canonAt d o && (e.nonzero || o.nonzero)

/-- The canonical form of a window buffer. -/
def PowerBuf.canon (b : PowerBuf) : Bool := PowerBuf.canonAt 16 b

end Sys2Proof.Machine
end

