-- ==== Sys2Proof/Machine/Ops.lean ====
section
/-! DEFINITION. The operations every command shares: the pseudocode primitives of 00_scope.md R15, how a command ends
(60_exceptions.md R352, R356), the state checks of decode (30_encoding.md R106), and the external reset (R390).

The CORE takes no exception and returns from none (R350, R361): a status is written and the next command runs. Ending a
command with a status, `raise`, is the one operation in that place. -/

namespace Sys2Proof.Machine

open Sys2Proof.Config

/-- The code of a status (R351). -/
def Status.code : Status → Byte
  | .ok => 0x00
  | .eos => 0x01
  | .noMsg => 0x02
  | .invalidSize => 0x10
  | .outOfRange => 0x11
  | .invalidArgument => 0x12
  | .ioError => 0x20
  | .sampleRange => 0x21
  | .fatal => 0x22
  | .illegalOpcode => 0x30
  | .reservedField => 0x31
  | .wrongTap => 0x32
  | .windowUnderrun => 0x40
  | .overflow => 0x41

/-- The code of a TAP value (R34). -/
def Tap.code : Tap → BitVec 3
  | .idle => 0
  | .samples => 1
  | .power => 2
  | .window => 3
  | .frames => 4

/-- The TAP value INIT's `SUB` names; none above 4 (R34, R141). -/
def Tap.ofCode (n : Nat) : Option Tap :=
  match n with
  | 0 => some .idle
  | 1 => some .samples
  | 2 => some .power
  | 3 => some .window
  | 4 => some .frames
  | _ => none

/-- How a part of a command's pseudocode goes on: with a value, ended by a status with every write made so far kept
(`raise`, `finish` before the end: R15, R352), or stuck: waiting at the stream port (R81), or in a loop that does not end
(R290). -/
inductive Flow (α : Type) where
  | ok (a : α) (s : State)
  | ended (st : Status) (s : State)
  | stuck (why : Fault)

/-- One part of the pseudocode after another. -/
def Flow.bind {α β : Type} (x : Flow α) (f : α → State → Flow β) : Flow β :=
  match x with
  | .ok a s => f a s
  | .ended st s => .ended st s
  | .stuck why => .stuck why

/-- `finish(S, v)`: `ST` and `LAST_ST` become `S`, `RES` becomes `v` when `S` is OK and 0 otherwise (R352). -/
def State.finish (s : State) (st : Status) (v : Word64) : State :=
  { s with res := if st = .ok then v else 0, lastSt := st }

/-- The end of a command: a value finishes it with OK, a status ends it with that status and `RES` 0 (R352), and a stuck
command has no next state (R371, R407; log 3). -/
def Flow.close (x : Flow Word64) : Host.Outcome State Fault Refusal :=
  match x with
  | .ok v s => .next (s.finish .ok v)
  | .ended st s => .next (s.finish st 0)
  | .stuck why => .fault why

/-- `fatal(S)`: `FATAL <- 1`, `FATAL_CAUSE <- S`, then `raise S` (R356). -/
def raiseFatal {α : Type} (st : Status) (s : State) : Flow α :=
  .ended st { s with fatal := true, fatalCause := st }

/-- The next event of the port and the port after it; none when the port waits (R81). -/
def Port.take (p : Port) : Option (PortEvent × Port) :=
  match p.ahead with
  | e :: es => some (e, { p with ahead := es, taken := p.taken + 1 })
  | [] =>
    match p.rest with
    | .waits => none
    | .ends => some (.eof, { p with taken := p.taken + 1 })
    | .fails => some (.ioerr, { p with taken := p.taken + 1 })
    | .live => some (.byte (liveByte p.taken), { p with taken := p.taken + 1 })

/-- The kind of a stream: its first end of stream or failure, else what the port goes on with (R81, R396). -/
def streamKind : List PortEvent → PortRest → StreamKind
  | .byte _ :: es, r => streamKind es r
  | .eof :: _, _ => .endsEof
  | .ioerr :: _, _ => .endsIoerr
  | [], .waits => .waits
  | [], .ends => .endsEof
  | [], .fails => .endsIoerr
  | [], .live => .infinite

/-- The kind of the stream at the port: every port is one of P-stream's four (R396). -/
def Port.kind (p : Port) : StreamKind := streamKind p.ahead p.rest

/-- `PortRead()` (R15, R81). -/
def portRead (s : State) : Flow PortEvent :=
  match s.port.take with
  | some (e, p) => .ok e { s with port := p }
  | none => .stuck .awaitingStream

/-- `MemRead(a, n)` over `BB` (R71). -/
def memRead (s : State) (a n : Nat) : List Byte := Memory.readList s.bb a n

/-- `MemWrite(a, n, L)` over `BB` (R71). -/
def memWrite (s : State) (a : Nat) (bs : List Byte) : State := { s with bb := Memory.writeList s.bb a bs }

/-- The stream-unit commands a TAP value allows (the table of R34). -/
def Tap.allows : Tap → Op → Bool
  | .idle, _ => false
  | .samples, o => decide (o ∈ [Op.sdNext])
  | .power, o => decide (o ∈ [Op.pcNext])
  | .window, o => decide (o ∈ [Op.pwGet, Op.pwAdv, Op.pwAdvn, Op.pwFull])
  | .frames, o => decide (o ∈ [Op.dmNext, Op.pwGet, Op.pwFull])

/-- The two checks decode makes on the state before a stream-unit command runs: the TAP, then FATAL (R106). -/
def streamUnit (o : Op) (s : State) (body : State → Flow Word64) : Flow Word64 :=
  if s.tap.allows o = false then .ended .wrongTap s
  else if s.fatal then .ended .fatal s
  else body s

/-- The status of a descriptor decode turns away (R106). -/
def rejectStatus : DecodeError → Status
  | .illegalOpcode => .illegalOpcode
  | .reservedField => .reservedField

/-- A descriptor decode turns away ends with its status and writes only `RES` and `LAST_ST` (R106). -/
def rejectCommand (e : DecodeError) (s : State) : State := s.finish (rejectStatus e) 0

/-- The port after `n` further events were taken by an abandoned command (R390, O20; log 10). -/
def Port.lose : Nat → Port → Port
  | 0, p => p
  | n + 1, p =>
    match p.take with
    | some (_, p') => Port.lose n p'
    | none => p

/-- The external reset (R390, R391): every element of R30 takes its reset value; the parameters, the port's pending events
and the host's later actions are untouched (R392), but for the events an abandoned command had consumed (O20). -/
def assertReset (lost : Nat) (s : State) : State :=
  { State.reset with params := s.params, port := s.port.lose lost, queue := s.queue }

end Sys2Proof.Machine
end

