-- ==== Sys2Proof/Machine/Flags.lean ====
section
/-! DEFINITION. The flags and the tests the CORE computes: the STATUS and CFG words (10_state.md R46, R55), `IS_FULL`
(45_power_window.md R254) and the terms of R262, when a scan can go on for ever (46_preamble_detector.md R290), the preamble
test (R281) and the altitude validity check (48_gray_altitude.md R334). The four stored flags are fields of State (R33). -/

namespace Sys2Proof.Machine

open Sys2Proof.Config

/-- `IS_FULL() = (LE - POS >= WSIZE)` over mathematical integers, false when `POS > LE` (R254). -/
def isFull (s : State) : Bool := decide (s.pos.toNat + s.wsize.toNat ≤ s.le.toNat)

/-- `BASE` (R39, R251). -/
def State.base (s : State) : Nat := s.pos.toNat - s.pos.toNat % pwBatch

/-- `LE = BASE + 131072` fits 64 bits, so that R262 (b) can hold (log 5). -/
def State.leFits (s : State) : Bool := decide (s.base + 131072 < 2 ^ 64)

/-- The stream has no end and none has been seen: a scan over it ends at a frame or a fatal status, or never (R290). -/
def State.endless (s : State) : Bool := decide (s.port.kind = .infinite) && !s.eofSeen

/-- `WFULL`: the live `IS_FULL`, under TAP 3 or 4 only (R46). -/
def wfull (s : State) : Bool :=
  match s.tap with
  | .idle => false
  | .samples => false
  | .power => false
  | .window => isFull s
  | .frames => isFull s

/-- One bit of a word. -/
def bit (b : Bool) : BitVec 1 := BitVec.ofBool b

/-- STATUS, CSR 0x00 (R46). -/
def statusWord (s : State) : Word64 :=
  (0 : BitVec 40) ++ s.fatalCause.code ++ s.lastSt.code ++ (0 : BitVec 1) ++ s.tap.code ++ bit s.frameValid ++
    bit (wfull s) ++ bit s.eofSeen ++ bit s.fatal

/-- The bit of PEAK_CMP in CFG (R55). -/
def peakCmpBit : PeakCmp → BitVec 1
  | .gt => 0
  | .ge => 1

/-- The bit of ALT_RULE in CFG (R55). -/
def altRuleBit : AltRule → BitVec 1
  | .doc => 0
  | .gillham => 1

/-- The bit of NIBBLE_MODE in CFG (R55). -/
def nibbleModeBit : NibbleMode → BitVec 1
  | .fault => 0
  | .mask => 1

/-- CFG, CSR 0x10 (R55): a DM_WINDOW of 65536 reads as 0. -/
def cfgWord (p : Params) : Word64 :=
  (0 : BitVec 16) ++ p.dmWindow.extractLsb' 0 16 ++ p.frameSkip ++ (0 : BitVec 13) ++ nibbleModeBit p.nibbleMode ++
    altRuleBit p.altRule ++ peakCmpBit p.peakCmp

/-- `PEAK_OK`: the peak sum against twice the valley sum (R281). -/
def peakOk (c : PeakCmp) (peak valley : Nat) : Bool :=
  match c with
  | .gt => decide (peak > 2 * valley)
  | .ge => decide (peak ≥ 2 * valley)

/-- `HIT`: the preamble test on the predecessor's, this position's and the successor's peak sums (R281, R289). -/
def preambleHit (c : PeakCmp) (prev cur next valley : Nat) : Bool :=
  decide (prev < cur) && decide (cur > next) && peakOk c cur valley

/-- `INVALID(coarse, fine)` (R334). -/
def altInvalid (r : AltRule) (coarse fine : Nat) : Bool :=
  match r with
  | .doc => decide (fine = 0) || decide (fine = 5) || decide (coarse = 6)
  | .gillham => decide (fine = 0) || decide (fine = 5) || decide (fine = 6)

end Sys2Proof.Machine
end

