-- ==== Sys2Proof/Machine/Altitude.lean ====
section
/-! DEFINITION. The Gray-coded altitude decoder (48_gray_altitude.md): ALT_DEC. -/

namespace Sys2Proof.Machine

open Sys2Proof.Config

/-- `ALT_Q1(f) = -1000 + 25 * ((f[11:5] << 4) | f[3:0])` (R331). -/
def altQ1 (f : BitVec 12) : Int := -1000 + 25 * ((f.extractLsb' 5 7 ++ f.extractLsb' 0 4).toNat : Int)

/-- The 500-ft Gray group, D1 D2 D4 A1 A2 A4 B1 B2 B4 (R332). -/
def coarseGray (f : BitVec 12) : BitVec 9 :=
  f.extractLsb' 4 1 ++ f.extractLsb' 2 1 ++ f.extractLsb' 0 1 ++ f.extractLsb' 10 1 ++ f.extractLsb' 8 1 ++
    f.extractLsb' 6 1 ++ f.extractLsb' 5 1 ++ f.extractLsb' 3 1 ++ f.extractLsb' 1 1

/-- The 100-ft Gray group, C1 C2 C4 (R332). -/
def fineGray (f : BitVec 12) : BitVec 3 := f.extractLsb' 11 1 ++ f.extractLsb' 9 1 ++ f.extractLsb' 7 1

/-- Bit `i` of the binary value: the XOR of Gray bits `i` up to the top bit (R333). -/
def grayBit {n : Nat} (g : BitVec n) (i : Nat) : Bool :=
  (List.range n).foldl (fun x j => if i ≤ j then xor x (g.getLsbD j) else x) false

/-- `GRAY_DECODE(g, n)` (R333). -/
def grayDecode {n : Nat} (g : BitVec n) : Nat :=
  (List.range n).foldl (fun v i => v + (grayBit g i).toNat * 2 ^ i) 0

/-- The remap of 7 to 5 and the mirror under an odd coarse code, in that order (R335). -/
def remapFine (coarse fine : Nat) : Int :=
  let fine' : Int := if fine = 7 then 5 else (fine : Int)
  if coarse % 2 = 1 then 6 - fine' else fine'

/-- `-1300 + 100 * fine + 500 * coarse` on the remapped fine code (R336). -/
def altGray (coarse fine : Nat) : Int := -1300 + 100 * remapFine coarse fine + 500 * (coarse : Int)

/-- The altitude of a 12-bit field in feet; none when the Gray code is invalid (R330 to R336). -/
def altFeet (r : AltRule) (f : BitVec 12) : Option Int :=
  if f.getLsbD 4 then some (altQ1 f)
  else if altInvalid r (grayDecode (coarseGray f)) (grayDecode (fineGray f)) then none
  else some (altGray (grayDecode (coarseGray f)) (grayDecode (fineGray f)))

/-- ALT_DEC (R337): the reserved bits IMM16[15:12] are checked first. -/
def execAltDec (imm : BitVec 16) (s : State) : Host.Outcome State Fault Refusal :=
  (if imm.extractLsb' 12 4 ≠ 0 then Flow.ended .reservedField s
   else
     match altFeet s.params.altRule (imm.extractLsb' 0 12) with
     | none => .ended .noMsg s
     | some ft => .ok (BitVec.ofInt 64 ft) s).close

end Sys2Proof.Machine
end

