-- ==== Sys2Proof/Machine/Operands.lean ====
section
/-! DEFINITION. How commands read their operands against the spaces of 20_memory.md R70: an index of `BB`, a half-open
range of `BB`, a CSR number, a window offset. -/

namespace Sys2Proof.Machine

open Sys2Proof.Config

/-- An index of `BB`; none outside 0..255 (R162, R163). -/
def bbIndex (a : Int) : Option Nat := if a < 0 ∨ a > 255 then none else some a.toNat

/-- A half-open range of `BB` as its first index and length; none unless `0 <= from <= to <= 256` (R164, R196). -/
def bbRange (lo : Int) (hi : Nat) : Option (Nat × Nat) :=
  if lo < 0 ∨ lo > (hi : Int) ∨ hi > bbSize then none else some (lo.toNat, hi - lo.toNat)

/-- An index of a bit of `V`; none outside [0, 64) (R161). -/
def bitIndex (a : Int) : Option Nat := if a < 0 ∨ a ≥ 64 then none else some a.toNat

/-- A big-endian read: the byte at the lowest index is the most significant (R73, R164). -/
def beNat (bs : List Byte) : Nat := bs.foldl (fun v b => v * 256 + b.toNat) 0

/-- `csr_value(n)` on the state before the CSRR executes; none for an unassigned number (R45 to R56, R147, R148). -/
def csrValue (n : Nat) (s : State) : Option Word64 :=
  match n with
  | 0x00 => some (statusWord s)
  | 0x01 => some (s.wsize.setWidth 64)
  | 0x02 => some s.pos
  | 0x03 => some s.fts
  | 0x04 => some s.bytesIn
  | 0x05 => some s.le
  | 0x06 => some (s.prevSum.setWidth 64)
  | 0x07 => some ((0 : BitVec 31) ++ bit s.curValid ++ s.curSum)
  | 0x08 => some (s.hist[0].signExtend 64)
  | 0x09 => some (s.hist[1].signExtend 64)
  | 0x0A => some (s.hist[2].signExtend 64)
  | 0x0B => some (s.hist[3].signExtend 64)
  | 0x0C => some (s.hist[4].signExtend 64)
  | 0x0D => some (s.hist[5].signExtend 64)
  | 0x0E => some (s.hist[6].signExtend 64)
  | 0x0F => some (s.hist[7].signExtend 64)
  | 0x10 => some (cfgWord s.params)
  | 0x11 => some idConstant
  | _ => none

end Sys2Proof.Machine
end

