-- ==== Sys2Proof/Machine/Bitfield.lean ====
section
/-! DEFINITION. The bitfield_extractor (41_bitfield.md): BF_EXT, BF_TST, BB_WR, BS_BYTE, BS_RANGE. -/

namespace Sys2Proof.Machine

open Sys2Proof.Config

/-- `(value >> start) & (2^size - 1)` (R160). -/
def bitSlice (value : Word64) (start size : Nat) : Word64 := (value >>> start) &&& BitVec.ofNat 64 (2 ^ size - 1)

/-- BF_EXT (R160): the size is checked before the range. -/
def execBfExt (value : Word64) (start : Int) (size : Nat) (s : State) : Host.Outcome State Fault Refusal :=
  (if size = 0 ∨ size ≥ 32 then Flow.ended .invalidSize s
   else if start < 0 ∨ start + (size : Int) > 64 then .ended .outOfRange s
   else .ok (bitSlice value start.toNat size) s).close

/-- BF_TST (R161). -/
def execBfTst (value : Word64) (index : Int) (s : State) : Host.Outcome State Fault Refusal :=
  (match bitIndex index with
   | none => Flow.ended .outOfRange s
   | some k => .ok ((value >>> k) &&& 1) s).close

/-- A write below 14 clears FRAME_VALID, even of the same byte (R33, R162). -/
def clearFrameValidBelow (a : Nat) (s : State) : State := if a < frameBytes then { s with frameValid := false } else s

/-- BB_WR (R162): the reserved bits IMM16[15:8] are checked before the index. -/
def execBbWr (index : Int) (imm : BitVec 16) (s : State) : Host.Outcome State Fault Refusal :=
  (if imm.extractLsb' 8 8 ≠ 0 then Flow.ended .reservedField s
   else
     match bbIndex index with
     | none => .ended .outOfRange s
     | some a => .ok (0 : Word64) (clearFrameValidBelow a (memWrite s a [imm.extractLsb' 0 8]))).close

/-- BS_BYTE (R163). -/
def execBsByte (index : Int) (s : State) : Host.Outcome State Fault Refusal :=
  (match bbIndex index with
   | none => Flow.ended .outOfRange s
   | some a => .ok ((s.bb.read a).setWidth 64) s).close

/-- BS_RANGE (R164): the bounds are checked before the length. -/
def execBsRange (lo : Int) (hi : Nat) (s : State) : Host.Outcome State Fault Refusal :=
  (match bbRange lo hi with
   | none => Flow.ended .outOfRange s
   | some (a, n) =>
     if n > maxRangeBytes then .ended .invalidArgument s else .ok (BitVec.ofNat 64 (beNat (memRead s a n))) s).close

end Sys2Proof.Machine
end

