-- ==== Sys2Proof/Machine/Samples.lean ====
section
/-! DEFINITION. The sample_decoder (43_sample_decoder.md): the sample read every stream-unit command uses, and SD_NEXT. -/

namespace Sys2Proof.Machine

open Sys2Proof.Config

/-- `raw = (b1[3:0] << 8) | b0` (R210). -/
def rawSample (b0 b1 : Byte) : BitVec 12 := b1.extractLsb' 0 4 ++ b0

/-- The centred sample `raw - 2048` (R210). -/
def centre (raw : BitVec 12) : Sample := BitVec.ofInt 12 ((raw.toNat : Int) - sampleBias)

/-- One more stream byte taken (R36). -/
def countByte (s : State) : State := { s with bytesIn := s.bytesIn + 1 }

/-- The second byte of a sample has been read: the nibble check of R212, then the sample. -/
def assembleSample (b0 b1 : Byte) (s : State) : Flow (Option Sample) :=
  if b1.extractLsb' 4 4 ≠ 0 then
    match s.params.nibbleMode with
    | .fault => raiseFatal .sampleRange s
    | .mask => .ok (some (centre (rawSample b0 b1))) s
  else .ok (some (centre (rawSample b0 b1))) s

/-- `READ_SAMPLE()` (R211); none is `End`. -/
def readSample (s : State) : Flow (Option Sample) :=
  if s.eofSeen then .ok none s
  else
    (portRead s).bind fun e0 s =>
      match e0 with
      | .eof => .ok none { s with eofSeen := true }
      | .ioerr => raiseFatal .ioError s
      | .byte b0 =>
        (portRead (countByte s)).bind fun e1 s =>
          match e1 with
          | .eof => .ok none { s with eofSeen := true }
          | .ioerr => raiseFatal .ioError s
          | .byte b1 => assembleSample b0 b1 (countByte s)

/-- SD_NEXT (R214): the next centred sample, sign-extended. -/
def execSdNext (s : State) : Host.Outcome State Fault Refusal :=
  (streamUnit .sdNext s fun s =>
    (readSample s).bind fun r s =>
      match r with
      | none => .ended .eos s
      | some v => .ok (v.signExtend 64) s).close

end Sys2Proof.Machine
end

