-- ==== Sys2Proof/Machine/Power.lean ====
section
/-! DEFINITION. The power_computer (44_power_computer.md): the history, the power step, and PC_NEXT. -/

namespace Sys2Proof.Machine

/-- The odd-index bracket of R231, exact. -/
def oddBracket (h : Vector Sample 8) : Int := h[7].toInt - h[5].toInt + h[3].toInt - h[1].toInt

/-- The even-index bracket of R231, exact. -/
def evenBracket (h : Vector Sample 8) : Int := h[6].toInt - h[4].toInt + h[2].toInt - h[0].toInt

/-- `POWER(H)` (R231). The exact value is at most 134152200 (R235), so 27 bits hold it. -/
def powerOf (h : Vector Sample 8) : Power := BitVec.ofInt 27 (oddBracket h ^ 2 + evenBracket h ^ 2)

/-- Two samples shifted into the history, the two oldest evicted (R230, R232). -/
def shiftIn (h : Vector Sample 8) (r0 r1 : Sample) : Vector Sample 8 :=
  #v[h[2], h[3], h[4], h[5], h[6], h[7], r0, r1]

/-- The second read of a pair succeeded: the history takes the pair in and the power comes out (R232). -/
def insertPair (r0 r1 : Sample) (s : State) : State := { s with hist := shiftIn s.hist r0 r1 }

/-- `POWER_STEP()` (R232); none is `End`. -/
def powerStep (s : State) : Flow (Option Power) :=
  (readSample s).bind fun r0 s =>
    match r0 with
    | none => .ok none s
    | some r0 =>
      (readSample s).bind fun r1 s =>
        match r1 with
        | none => .ok none s
        | some r1 => .ok (some (powerOf (insertPair r0 r1 s).hist)) (insertPair r0 r1 s)

/-- PC_NEXT (R234): the next power sample. -/
def execPcNext (s : State) : Host.Outcome State Fault Refusal :=
  (streamUnit .pcNext s fun s =>
    (powerStep s).bind fun r s =>
      match r with
      | none => .ended .eos s
      | some p => .ok (p.setWidth 64) s).close

end Sys2Proof.Machine
end

