-- ==== Sys2Proof/Machine/Window.lean ====
section
/-! DEFINITION. The power_window (45_power_window.md): fills, the window step, the window reads, and the PW_* commands. -/

namespace Sys2Proof.Machine

open Sys2Proof.Config

/-- `BUF[b]`. -/
def bufOf (s : State) (b : Bool) : PowerBuf := if b then s.buf1 else s.buf0

/-- `CNT[b]`. -/
def cntOf (s : State) (b : Bool) : BitVec 17 := if b then s.cnt1 else s.cnt0

/-- `LE + 1`; at 2^64 - 1 the spec states no result and the value is free (R252; log 5). -/
def leNext (s : State) : Word64 := if s.le = BitVec.allOnes 64 then lePastLimit s.port.taken else s.le + 1

/-- `CNT[b] <- 0`: the start of a fill (R252). -/
def startFill (b : Bool) (s : State) : State := if b then { s with cnt1 := 0 } else { s with cnt0 := 0 }

/-- `BUF[b][CNT[b]] <- p; CNT[b] <- CNT[b] + 1; LE <- LE + 1` (R252). -/
def storeSlot (b : Bool) (p : Power) (s : State) : State :=
  if b then { s with buf1 := s.buf1.set s.cnt1.toNat p, cnt1 := s.cnt1 + 1, le := leNext s }
  else { s with buf0 := s.buf0.set s.cnt0.toNat p, cnt0 := s.cnt0 + 1, le := leNext s }

/-- At most `n` more power samples into buffer `b`, fewer only at `End` (R252). -/
def fillSlots : Nat → Bool → State → Flow Unit
  | 0, _, s => .ok () s
  | n + 1, b, s =>
    match powerStep s with
    | .ok (some p) s' => fillSlots n b (storeSlot b p s')
    | .ok none s' => .ok () s'
    | .ended st s' => .ended st s'
    | .stuck why => .stuck why

/-- `PW_FILL(b)` (R252). -/
def fill (b : Bool) (s : State) : Flow Unit := fillSlots pwBatch b (startFill b s)

/-- `PW_FILL_INITIAL()` (R252). -/
def fillInitial (s : State) : Flow Unit := (fill false s).bind fun _ s => fill true s

/-- The position one further, and the buffers swapped when it wraps a 65536-sample boundary (R253). -/
def movePos (s : State) : State :=
  let s' := { s with pos := s.pos + 1 }
  if s'.pos.toNat % pwBatch = 0 then { s' with sel := !s'.sel } else s'

/-- `WSTEP()` (R253): at a boundary the old current buffer is refilled as next. -/
def wstep (s : State) : Flow Unit :=
  if s.pos = BitVec.allOnes 64 then .ended .overflow s
  else if (movePos s).pos.toNat % pwBatch = 0 then fill (!(movePos s).sel) (movePos s)
  else .ok () (movePos s)

/-- `n` window steps, one after another (R259, R288). -/
def wsteps : Nat → State → Flow Unit
  | 0, s => .ok () s
  | n + 1, s =>
    match wstep s with
    | .ok () s' => wsteps n s'
    | .ended st s' => .ended st s'
    | .stuck why => .stuck why

/-- `WREAD(i)` (R251): the offset from `BASE = POS - (POS mod 65536)` picks the buffer. -/
def wread (s : State) (i : Nat) : Power :=
  let off := s.pos.toNat % pwBatch + i
  if off < pwBatch then (bufOf s s.sel).get off else (bufOf s (!s.sel)).get (off - pwBatch)

/-- `GET(i)` (R255). -/
def windowGet (i : Int) (s : State) : Flow Power :=
  if i < 0 ∨ i ≥ (s.wsize.toNat : Int) then .ended .outOfRange s
  else if s.pos.toNat + i.toNat ≥ s.le.toNat then .ended .windowUnderrun s
  else .ok (wread s i.toNat) s

/-- PW_GET (R257). -/
def execPwGet (i : Int) (s : State) : Host.Outcome State Fault Refusal :=
  (streamUnit .pwGet s fun s => (windowGet i s).bind fun p s => .ok (p.setWidth 64) s).close

/-- PW_ADV (R258). -/
def execPwAdv (s : State) : Host.Outcome State Fault Refusal :=
  (streamUnit .pwAdv s fun s => (wstep s).bind fun _ s => .ok 0 s).close

/-- PW_ADVN (R259). -/
def execPwAdvn (n : Int) (s : State) : Host.Outcome State Fault Refusal :=
  (streamUnit .pwAdvn s fun s =>
    if n < 0 then .ended .invalidArgument s else (wsteps n.toNat s).bind fun _ s => .ok 0 s).close

/-- PW_FULL (R260). -/
def execPwFull (s : State) : Host.Outcome State Fault Refusal :=
  (streamUnit .pwFull s fun s => .ok (if isFull s then 1 else 0) s).close

end Sys2Proof.Machine
end

