-- ==== Sys2Proof/Machine/Control.lean ====
section
/-! DEFINITION. The control commands (40_control.md): NOP, INIT, CSRR. -/

namespace Sys2Proof.Machine

/-- NOP (R140). -/
def execNop (s : State) : Host.Outcome State Fault Refusal := (Flow.ok (0 : Word64) s).close

/-- INIT's argument check on `A_s` (R141): 1..65536 under WINDOW, 0 under every other tap. -/
def initArgOk (t : Tap) (w : Int) : Bool :=
  match t with
  | .idle => decide (w = 0)
  | .samples => decide (w = 0)
  | .power => decide (w = 0)
  | .window => decide (1 ≤ w) && decide (w ≤ 65536)
  | .frames => decide (w = 0)

/-- The window length INIT sets (R35, R141, R144). -/
def initWsize (t : Tap) (w : Int) (s : State) : BitVec 17 :=
  match t with
  | .idle => 0
  | .samples => 0
  | .power => 0
  | .window => BitVec.ofInt 17 w
  | .frames => s.params.dmWindow

/-- INIT's writes before the fill (R141): the chain state cleared, `TAP` and `WSIZE` set. `BB` is not touched. -/
def clearChain (t : Tap) (w : Int) (s : State) : State :=
  { s with
    fatal := false, fatalCause := .ok, eofSeen := false, bytesIn := 0, hist := #v[0, 0, 0, 0, 0, 0, 0, 0],
    buf0 := .zeros, buf1 := .zeros, cnt0 := 0, cnt1 := 0, sel := false, pos := 0, le := 0, prevSum := 0, curSum := 0,
    curValid := false, fts := 0, frameValid := false, tap := t, wsize := initWsize t w s }

/-- The initial fill, under WINDOW and FRAMES only (R141, R142, R143). -/
def initFill (t : Tap) (s : State) : Flow Unit :=
  match t with
  | .idle => .ok () s
  | .samples => .ok () s
  | .power => .ok () s
  | .window => fillInitial s
  | .frames => fillInitial s

/-- INIT (R141). -/
def execInit (tap : Nat) (w : Int) (s : State) : Host.Outcome State Fault Refusal :=
  (match Tap.ofCode tap with
   | none => Flow.ended .invalidArgument s
   | some t =>
     if initArgOk t w = false then .ended .invalidArgument s
     else (initFill t (clearChain t w s)).bind fun _ s => .ok (0 : Word64) s).close

/-- CSRR (R147). -/
def execCsrr (n : Nat) (s : State) : Host.Outcome State Fault Refusal :=
  (match csrValue n s with
   | none => Flow.ended .outOfRange s
   | some v => .ok v s).close

end Sys2Proof.Machine
end

