-- ==== Sys2Proof/Machine/Frame.lean ====
section
/-! DEFINITION. The frame field accessors (47_frame_fields.md): FR_DF, FR_ICAO, FR_ME, FR_TC, FR_CHECK over the frame slot
`BB[0..13]` (R310). None checks the frame but FR_CHECK (R316). -/

namespace Sys2Proof.Machine

open Sys2Proof.Config

/-- FR_DF (R311): the top five bits of byte 0. -/
def execFrDf (s : State) : Host.Outcome State Fault Refusal := (Flow.ok ((s.bb.read 0 >>> 3).setWidth 64) s).close

/-- FR_ICAO (R312): bytes 1 to 3, big-endian. -/
def execFrIcao (s : State) : Host.Outcome State Fault Refusal :=
  (Flow.ok (BitVec.ofNat 64 (beNat (memRead s 1 3))) s).close

/-- FR_ME (R313): bytes 4 to 10, big-endian. -/
def execFrMe (s : State) : Host.Outcome State Fault Refusal :=
  (Flow.ok (BitVec.ofNat 64 (beNat (memRead s 4 7))) s).close

/-- FR_TC (R314): the top five bits of byte 4. -/
def execFrTc (s : State) : Host.Outcome State Fault Refusal := (Flow.ok ((s.bb.read 4 >>> 3).setWidth 64) s).close

/-- FR_CHECK (R315): the CRC of the slot; NOMSG is no error, and FRAME_VALID is not set. -/
def execFrCheck (s : State) : Host.Outcome State Fault Refusal :=
  (if crc24 (memRead s 0 frameBytes) = 0 then Flow.ok (0 : Word64) s else .ended .noMsg s).close

end Sys2Proof.Machine
end

