-- ==== Sys2Proof/Machine/Preamble.lean ====
section
/-! DEFINITION. The preamble_detector (46_preamble_detector.md): DM_NEXT. -/

namespace Sys2Proof.Machine

open Sys2Proof.Config

/-- The sum of the window samples at the given offsets, each moved by `j` (R282). -/
def windowSum (s : State) (offs : List Nat) (j : Nat) : Nat := (offs.map fun o => (wread s (o + j)).toNat).sum

/-- `PK(j)` (R282). -/
def peakSum (s : State) (j : Nat) : Nat := windowSum s peakOffsets j

/-- `VL(j)` (R282). -/
def valleySum (s : State) (j : Nat) : Nat := windowSum s valleyOffsets j

/-- `BIT(k)` (R283): 0 when the first half is weaker than the second, else 1. -/
def frameBit (s : State) (k : Nat) : Bool :=
  !decide ((wread s (bitBase + bitPitch * k)).toNat < (wread s (bitBase + bitHalf + bitPitch * k)).toNat)

/-- `BYTE(n)` (R283): bit `8n + m` is bit `7 - m` of the byte. -/
def frameByte (s : State) (n : Nat) : Byte :=
  bit (frameBit s (8 * n)) ++ bit (frameBit s (8 * n + 1)) ++ bit (frameBit s (8 * n + 2)) ++
    bit (frameBit s (8 * n + 3)) ++ bit (frameBit s (8 * n + 4)) ++ bit (frameBit s (8 * n + 5)) ++
    bit (frameBit s (8 * n + 6)) ++ bit (frameBit s (8 * n + 7))

/-- The 14 candidate bytes at the window position (R283). -/
def candidate (s : State) : List Byte := (List.range frameBytes).map (frameByte s)

/-- The candidate's first byte has downlink format 17, and then its CRC is 0 (R284, R285). -/
def accepted (s : State) : Bool :=
  if (frameByte s 0 >>> 3).toNat = dfRequired then decide (crc24 (candidate s) = 0) else false

/-- `CUR_SUM <- PK(0); CUR_VALID <- 1` when `CUR_VALID` is 0 (R289). -/
def loadCur (s : State) : State :=
  if s.curValid then s else { s with curSum := BitVec.ofNat 32 (peakSum s 0), curValid := true }

/-- The largest position whose timestamp fits 64 bits (R286). -/
def lastStampedPos : Nat := (2 ^ 64 - 1) / tsUnitNs

/-- `100 * POS` (R286). -/
def timestamp (s : State) : Word64 := BitVec.ofNat 64 (tsUnitNs * s.pos.toNat)

/-- Frame delivery: `MemWrite(0, 14, F)`, FTS and FRAME_VALID (R287). -/
def deliver (s : State) : State :=
  { s with bb := Memory.writeList s.bb 0 (candidate s), fts := timestamp s, frameValid := true }

/-- The detector sums forgotten, after the frame skip (R288). -/
def forgetSums (s : State) : State := { s with prevSum := 0, curSum := 0, curValid := false }

/-- An accepted frame: delivered, then the frame skip; OVERFLOW when its timestamp does not fit (R286 to R289). -/
def takeFrame (s : State) : Flow Word64 :=
  if s.pos.toNat > lastStampedPos then .ended .overflow s
  else (wsteps s.params.frameSkip.toNat (deliver s)).bind fun _ s' => .ok (timestamp s) (forgetSums s')

/-- The preamble test at the window position, with the predecessor's and this position's stored sums (R281, R289). -/
def hitHere (s : State) : Bool :=
  preambleHit s.params.peakCmp s.prevSum.toNat s.curSum.toNat (peakSum s 1) (valleySum s 0)

/-- The detector sums moved on by one position: `PREV_SUM <- CUR_SUM; CUR_SUM <- nxt` (R288, R289). -/
def shiftSums (cur : BitVec 32) (nxt : Nat) (s : State) : State :=
  { s with prevSum := cur, curSum := BitVec.ofNat 32 nxt }

/-- How a scan that delivers no frame ends. On an endless stream only a fatal status ends it (R290): past the positions
whose `LE` fits 64 bits the model takes "does not return" over R289's OVERFLOW at `POS = 2^64 - 1` (DESIGN CHOICE, log 11).
Every other end is R289's own. -/
def endScan (st : Status) (s : State) : Flow Word64 :=
  if s.endless && !s.leFits && !s.fatal then .stuck .endlessScan else .ended st s

/-- DM_NEXT's loop (R289). Every round without a frame makes one window step, so `2^64 - POS` rounds are enough and the
last case is never reached. DESIGN CHOICE (log 11): R289 lists OVERFLOW from `WSTEP` at `POS = 2^64 - 1`, but `LE` has 64
bits (R30), so `IS_FULL` is already false there for any `WSIZE` from 1 up and the scan ends with EOS, also while `EOF_SEEN`
is 0; from `POS` near 2^64 - 131072 on, `LE` and so `IS_FULL` hang on a free value (log 5). -/
def scan : Nat → State → Flow Word64
  | 0, s => endScan .overflow s
  | n + 1, s =>
    if isFull s = false then endScan .eos s
    else if hitHere (loadCur s) && accepted (loadCur s) then takeFrame (loadCur s)
    else
      match wstep (loadCur s) with
      | .ok () s' => scan n (shiftSums (loadCur s).curSum (peakSum (loadCur s) 1) s')
      | .ended st s' => endScan st s'
      | .stuck why => .stuck why

/-- DM_NEXT (R289). -/
def execDmNext (s : State) : Host.Outcome State Fault Refusal :=
  (streamUnit .dmNext s fun s => scan (2 ^ 64 - s.pos.toNat) s).close

end Sys2Proof.Machine
end

