-- ==== Sys2Proof/Machine/Dispatch.lean ====
section
/-! DEFINITION. One arm per command. -/

namespace Sys2Proof.Machine

def exec (i : Instr) (s : State) : Host.Outcome State Fault Refusal :=
  match i with
  | .nop => Sys2Proof.Machine.execNop s
  | .init tap w => Sys2Proof.Machine.execInit tap w s
  | .csrr n => Sys2Proof.Machine.execCsrr n s
  | .sdNext => Sys2Proof.Machine.execSdNext s
  | .pcNext => Sys2Proof.Machine.execPcNext s
  | .pwGet k => Sys2Proof.Machine.execPwGet k s
  | .pwAdv => Sys2Proof.Machine.execPwAdv s
  | .pwAdvn n => Sys2Proof.Machine.execPwAdvn n s
  | .pwFull => Sys2Proof.Machine.execPwFull s
  | .dmNext => Sys2Proof.Machine.execDmNext s
  | .crcBuf lo hi => Sys2Proof.Machine.execCrcBuf lo hi s
  | .crcTab index => Sys2Proof.Machine.execCrcTab index s
  | .bfExt value start size => Sys2Proof.Machine.execBfExt value start size s
  | .bfTst value index => Sys2Proof.Machine.execBfTst value index s
  | .bbWr index imm => Sys2Proof.Machine.execBbWr index imm s
  | .bsByte index => Sys2Proof.Machine.execBsByte index s
  | .bsRange lo hi => Sys2Proof.Machine.execBsRange lo hi s
  | .frDf => Sys2Proof.Machine.execFrDf s
  | .frIcao => Sys2Proof.Machine.execFrIcao s
  | .frMe => Sys2Proof.Machine.execFrMe s
  | .frTc => Sys2Proof.Machine.execFrTc s
  | .frCheck => Sys2Proof.Machine.execFrCheck s
  | .altDec imm => Sys2Proof.Machine.execAltDec imm s

end Sys2Proof.Machine
end

