-- ==== Sys2Proof/Machine/Step.lean ====
section
/-! DEFINITION. One step: the host's next action. A command is decoded and runs to completion (20_memory.md R82,
30_encoding.md R106); an external reset gives every element its reset value (70_reset_and_hazards.md R390). With no
action the CORE waits. -/

namespace Sys2Proof.Machine

/-- The command `d` on a state from whose queue it has been taken. -/
def runCommand (d : Descriptor) (s : State) : Host.Outcome State Fault Refusal :=
  match decode d with
  | .instr i => exec i s
  | .rejected e => .next (rejectCommand e s)

/-- One step of the machine. -/
def step (s : State) : Host.Outcome State Fault Refusal :=
  match s.queue with
  | [] => .fault .awaitingCommand
  | .reset lost :: rest => .next (assertReset lost { s with queue := rest })
  | .command d :: rest => runCommand d { s with queue := rest }

/-- The host issues one more command, before every other action it has lined up: the descriptor that an opcode-table
row's `nbits` bits `w` give (log 1). -/
def State.withFetchWord (s : State) (nbits w : Nat) : State :=
  { s with queue := .command (tableDescriptor nbits w) :: s.queue }

end Sys2Proof.Machine
end

