-- ==== Sys2Proof/Machine/HostSide.lean ====
section
/-! DEFINITION. The host's adaptor: hex parsing and formatting (41_bitfield.md R166, R167), the pseudo-instructions
BB_LOAD and FRAME_LOAD (30_encoding.md R109) and the assembler syntax (R108). None of it is CORE hardware. -/

namespace Sys2Proof.Machine

open Sys2Proof.Config

/-- The value of an uppercase hex digit (R166). -/
def hexDigit (c : Char) : Option Nat :=
  if 48 ≤ c.toNat ∧ c.toNat ≤ 57 then some (c.toNat - 48)
  else if 65 ≤ c.toNat ∧ c.toNat ≤ 70 then some (c.toNat - 55)
  else none

/-- Hex parsing (R166): an even number of uppercase digits, the first of each pair the high nibble; none otherwise. -/
def parseHex : List Char → Option (List Byte)
  | [] => some []
  | [_] => none
  | a :: b :: cs =>
    match hexDigit a, hexDigit b, parseHex cs with
    | some x, some y, some bs => some (BitVec.ofNat 8 (16 * x + y) :: bs)
    | _, _, _ => none

/-- The uppercase digit of a nibble (R167). -/
def hexChar (n : Nat) : Char := if n < 10 then Char.ofNat (48 + n) else Char.ofNat (55 + n)

/-- Hex formatting (R167): two uppercase digits per byte, high nibble first. -/
def formatHex : List Byte → List Char
  | [] => []
  | b :: bs => hexChar (b.toNat / 16) :: hexChar (b.toNat % 16) :: formatHex bs

/-- The "6 hex-digit uppercase string" of an ICAO address, zero-padded (R167, R312). -/
def icaoText (v : Word64) : List Char := formatHex [v.extractLsb' 16 8, v.extractLsb' 8 8, v.extractLsb' 0 8]

/-- `RES` as the host carries it: 8 bytes, little-endian (R75). -/
def resBytes (v : Word64) : List Byte := (List.range 8).map fun j => v.extractLsb' (8 * j) 8

/-- `BB_LOAD a, <hex>` on the bytes of the string (R109). -/
def bbLoad : Int → List Byte → List Instr
  | _, [] => []
  | a, b :: bs => .bbWr a (b.setWidth 16) :: bbLoad (a + 1) bs

/-- `BB_LOAD a, <hex>` (R109); no command is issued for a string the adaptor refuses (R166). -/
def bbLoadHex (a : Int) (cs : List Char) : Option (List Instr) :=
  match parseHex cs with
  | some bs => some (bbLoad a bs)
  | none => none

/-- `FRAME_LOAD <28 hex digits>` (R109). -/
def frameLoad (cs : List Char) : Option (List Instr) := if cs.length = 28 then bbLoadHex 0 cs else none

/-! The assembler (R108; log 15). -/

/-- The mnemonic column of R105. -/
def Op.mnemonic : Op → String
  | .nop => "NOP"
  | .init => "INIT"
  | .csrr => "CSRR"
  | .sdNext => "SD_NEXT"
  | .pcNext => "PC_NEXT"
  | .pwGet => "PW_GET"
  | .pwAdv => "PW_ADV"
  | .pwAdvn => "PW_ADVN"
  | .pwFull => "PW_FULL"
  | .dmNext => "DM_NEXT"
  | .crcBuf => "CRC_BUF"
  | .crcTab => "CRC_TAB"
  | .bfExt => "BF_EXT"
  | .bfTst => "BF_TST"
  | .bbWr => "BB_WR"
  | .bsByte => "BS_BYTE"
  | .bsRange => "BS_RANGE"
  | .frDf => "FR_DF"
  | .frIcao => "FR_ICAO"
  | .frMe => "FR_ME"
  | .frTc => "FR_TC"
  | .frCheck => "FR_CHECK"
  | .altDec => "ALT_DEC"

/-- The names R108 takes for INIT's tap, with their codes (R34). -/
def tapNames : List (String × Nat) := [("IDLE", 0), ("SAMPLES", 1), ("POWER", 2), ("WINDOW", 3), ("FRAMES", 4)]

/-- The names R108 takes for CSRR's register, with their numbers (R45). -/
def csrNames : List (String × Nat) :=
  [("STATUS", 0), ("WSIZE", 1), ("POS", 2), ("FTS", 3), ("BYTES_IN", 4), ("LE", 5), ("DM_PREV", 6), ("DM_CUR", 7)] ++
  [("PCH0", 8), ("PCH1", 9), ("PCH2", 10), ("PCH3", 11), ("PCH4", 12), ("PCH5", 13), ("PCH6", 14), ("PCH7", 15),
   ("CFG", 16), ("ID", 17)]

/-- The value of a digit in the given base; hex digits in either case (log 15). -/
def digitIn (base : Nat) (c : Char) : Option Nat :=
  let v := if 48 ≤ c.toNat ∧ c.toNat ≤ 57 then c.toNat - 48
    else if 65 ≤ c.toNat ∧ c.toNat ≤ 70 then c.toNat - 55
    else if 97 ≤ c.toNat ∧ c.toNat ≤ 102 then c.toNat - 87 else 99
  if v < base then some v else none

/-- The digits of a number, most significant first. -/
def digitsValue (base : Nat) : Nat → List Char → Option Nat
  | v, [] => some v
  | v, c :: cs =>
    match digitIn base c with
    | some d => digitsValue base (v * base + d) cs
    | none => none

/-- An unsigned number: decimal, or hex with a `0x` prefix (R108). -/
def parseUnsigned : List Char → Option Nat
  | [] => none
  | '0' :: 'x' :: c :: cs => digitsValue 16 0 (c :: cs)
  | c :: cs => digitsValue 10 0 (c :: cs)

/-- A number that may be negative (R108). -/
def parseSigned : List Char → Option Int
  | '-' :: cs => (parseUnsigned cs).map fun n => -(n : Int)
  | cs => (parseUnsigned cs).map fun n => (n : Int)

/-- A name of the table, or a number. -/
def parseNamed (names : List (String × Nat)) (cs : List Char) : Option Nat :=
  match names.find? fun p => p.1.toList == cs with
  | some p => some p.2
  | none => parseUnsigned cs

/-- The pieces of a line between separators. -/
def splitOnChar (sep : Char) : List Char → List (List Char)
  | [] => [[]]
  | c :: cs =>
    if c = sep then [] :: splitOnChar sep cs
    else
      match splitOnChar sep cs with
      | p :: ps => (c :: p) :: ps
      | [] => [[c]]

/-- A text without the blanks at its ends. -/
def trim (cs : List Char) : List Char :=
  ((cs.dropWhile fun c => c = ' ').reverse.dropWhile fun c => c = ' ').reverse

/-- The mnemonic of a line, and its operands without the blanks around each; a blank inside an operand stays, and no
operand form takes one (R166; log 15). -/
def splitLine (cs : List Char) : List Char × List (List Char) :=
  let line := trim cs
  let rest := trim (line.dropWhile fun c => c ≠ ' ')
  (line.takeWhile fun c => c ≠ ' ', if rest = [] then [] else (splitOnChar ',' rest).map trim)

/-- The command of a mnemonic and its operands, in the syntax of the opcode's format (R108). -/
def assembleOp (o : Op) (args : List (List Char)) : Option Instr :=
  match o, args with
  | .init, [t] => (parseNamed tapNames t).map fun t => .init t 0
  | .init, [t, w] => (parseNamed tapNames t).bind fun t => (parseSigned w).map fun w => .init t w
  | .csrr, [n] => (parseNamed csrNames n).map fun n => .csrr n
  | .pwGet, [a] => (parseSigned a).map .pwGet
  | .pwAdvn, [a] => (parseSigned a).map .pwAdvn
  | .bsByte, [a] => (parseSigned a).map .bsByte
  | .crcBuf, [a, i] => (parseSigned a).bind fun a => (parseUnsigned i).map fun i => .crcBuf a i
  | .bsRange, [a, i] => (parseSigned a).bind fun a => (parseUnsigned i).map fun i => .bsRange a i
  | .bbWr, [a, i] =>
    (parseSigned a).bind fun a => (parseUnsigned i).bind fun i => if i ≤ 65535 then some (.bbWr a (BitVec.ofNat 16 i)) else none
  | .crcTab, [i] => (parseUnsigned i).map .crcTab
  | .altDec, [i] => (parseUnsigned i).bind fun i => if i ≤ 65535 then some (.altDec (BitVec.ofNat 16 i)) else none
  | .bfTst, [v, a] =>
    (parseUnsigned v).bind fun v => (parseSigned a).bind fun a => if v < 2 ^ 64 then some (.bfTst (BitVec.ofNat 64 v) a) else none
  | .bfExt, [v, a, i] =>
    (parseUnsigned v).bind fun v => (parseSigned a).bind fun a => (parseUnsigned i).bind fun i =>
      if v < 2 ^ 64 then some (.bfExt (BitVec.ofNat 64 v) a i) else none
  | o, [] => if o.format = .n then some (o.build { opc := o.code, sub := 0, imm := 0, a := 0, v := 0 }) else none
  | _, _ => none

/-- One line of assembly (R108); none unless its operands fit their fields. -/
def assemble (cs : List Char) : Option Instr :=
  match Op.all.find? fun o => (Op.mnemonic o).toList == (splitLine cs).1 with
  | none => none
  | some o => (assembleOp o (splitLine cs).2).bind fun i => if i.wf then some i else none

/-- The commands, if the operands of each fit its fields. -/
def allWf (is : List Instr) : Option (List Instr) := if is.all Instr.wf then some is else none

/-- A program line: a command, `BB_LOAD a, <hex>` or `FRAME_LOAD <hex>` (R108, R109), as the commands it stands for. -/
def assembleLine (cs : List Char) : Option (List Instr) :=
  match (splitLine cs).2 with
  | [h] => if (splitLine cs).1 = "FRAME_LOAD".toList then frameLoad h else (assemble cs).map fun i => [i]
  | [a, h] =>
    if (splitLine cs).1 = "BB_LOAD".toList then (parseSigned a).bind fun a => (bbLoadHex a h).bind allWf
    else (assemble cs).map fun i => [i]
  | _ => (assemble cs).map fun i => [i]

end Sys2Proof.Machine
end

