-- ==== Sys2Proof/Machine/Premises.lean ====
section
/-! DEFINITION. The power stream as a function of the stream bytes (45_power_window.md R250), and with it the launch
premises (70_reset_and_hazards.md R396). -/

namespace Sys2Proof.Machine

open Sys2Proof.Config

/-- The second byte of every pair has a zero upper nibble (R212). -/
def cleanBytes : List Byte → Bool
  | _ :: b1 :: bs => decide (b1.toNat < 16) && cleanBytes bs
  | [_] => true
  | [] => true

/-- Bytes that the sample decoder reads with no SAMPLE_RANGE: clean ones, and any under NIBBLE_MODE = MASK (R212). -/
def legalBytes (m : NibbleMode) (bs : List Byte) : Bool :=
  match m with
  | .fault => cleanBytes bs
  | .mask => true

/-- The sample of a byte pair (R210). -/
def pairSample (b0 b1 : Byte) : Sample := BitVec.ofInt 12 (256 * ((b1.toNat % 16 : Nat) : Int) + (b0.toNat : Int) - 2048)

/-- The samples of a byte stream, a trailing odd byte dropped (R210, R211). -/
def streamSamples : List Byte → List Sample
  | b0 :: b1 :: bs => pairSample b0 b1 :: streamSamples bs
  | [_] => []
  | [] => []

/-- The power samples of a run of samples after the history `h`, a trailing odd sample dropped (R231, R232). -/
def samplePowers : Vector Sample 8 → List Sample → List Power
  | h, r0 :: r1 :: rs => powerOf (shiftIn h r0 r1) :: samplePowers (shiftIn h r0 r1) rs
  | _, [_] => []
  | _, [] => []

/-- The power stream: power sample `x` of a byte stream after INIT (R232, R233, R250). -/
def streamPowers (bs : List Byte) : List Power := samplePowers #v[0, 0, 0, 0, 0, 0, 0, 0] (streamSamples bs)

/-- The history after a run of samples. -/
def historyAfter : Vector Sample 8 → List Sample → Vector Sample 8
  | h, r0 :: r1 :: rs => historyAfter (shiftIn h r0 r1) rs
  | h, [_] => h
  | h, [] => h

/-- The peak sum at absolute position `x` of a power stream (R282). -/
def streamPeak (ps : List Power) (x : Nat) : Nat := (peakOffsets.map fun o => (ps.getD (x + o) 0).toNat).sum

/-! The launch premises (R396). -/

/-- P-clean (R396). -/
def State.cleanStart (s : State) : Bool := !s.fatal && decide (s.fatalCause = .ok)

/-- P-tap (R396): `WSIZE` agrees with `TAP` (R35). -/
def State.wsizeAgrees (s : State) : Bool :=
  match s.tap with
  | .idle => decide (s.wsize = 0)
  | .samples => decide (s.wsize = 0)
  | .power => decide (s.wsize = 0)
  | .window => decide (1 ≤ s.wsize.toNat) && decide (s.wsize.toNat ≤ pwBatch)
  | .frames => decide (s.wsize = s.params.dmWindow)

/-- `LE` is where R262 (a) and (b) have it. -/
def State.loadedEnd (s : State) : Prop :=
  s.le.toNat ≤ s.base + 131072 ∧ (s.eofSeen = false → s.le.toNat = s.base + 131072)

/-- R262 (c): the window shows the power stream of `bs`, the bytes taken since INIT (log 18). -/
def State.showsStream (s : State) (bs : List Byte) : Prop :=
  s.bytesIn = BitVec.ofNat 64 bs.length ∧ legalBytes s.params.nibbleMode bs = true ∧
    ∀ x, s.pos.toNat ≤ x → x < s.le.toNat → x < s.pos.toNat + s.wsize.toNat →
      (streamPowers bs)[x]? = some (wread s (x - s.pos.toNat))

/-- P-window (R396): under WINDOW and FRAMES the invariants of R262 hold, over the bytes `bs` since INIT. -/
def State.windowStart (s : State) (bs : List Byte) : Prop :=
  (s.tap = .window ∨ s.tap = .frames) → s.loadedEnd ∧ s.showsStream bs

/-- P-fresh (R396): under FRAMES the detector sums are all 0, or as a DM_NEXT over the bytes `bs` since INIT leaves them: the
current one is the peak sum at `POS`, the previous one 0 or the peak sum at the position before (log 18). -/
def State.freshSums (s : State) (bs : List Byte) : Prop :=
  s.tap = .frames →
    (s.prevSum = 0 ∧ s.curSum = 0 ∧ s.curValid = false) ∨
    (s.curValid = true ∧ s.curSum.toNat = streamPeak (streamPowers bs) s.pos.toNat ∧
      (s.prevSum = 0 ∨ (1 ≤ s.pos.toNat ∧ s.prevSum.toNat = streamPeak (streamPowers bs) (s.pos.toNat - 1))))

/-- The premises of R396 on a launch's start state; every `Port` is a stream argument of P-stream (`Port.kind`). -/
structure State.Premises (s : State) : Prop where
  clean : s.cleanStart = true
  tap : s.wsizeAgrees = true
  window : ∃ bs, s.windowStart bs ∧ s.freshSums bs

end Sys2Proof.Machine
end

