-- ==== Sys2Proof/Machine/Run.lean ====
section
/-! DEFINITION. A launch and its outcome (70_reset_and_hazards.md R407): a start state that meets the launch premises
(R396), a list of descriptors and a stream. -/

namespace Sys2Proof.Machine

/-- How a run ends (R407). -/
inductive RunEnd where
  /-- The last descriptor has returned its `ST` and `RES`: the final state, and the stream events consumed. -/
  | completed (final : State) (consumed : Nat)
  /-- This command did not complete, since it waits at the stream port or, a DM_NEXT on an endless stream, scans for ever:
  there is no final state. -/
  | stuck (d : Descriptor)
deriving DecidableEq, Repr

/-- The outcome of a run: the (`ST`, `RES`) pair of every command that completed, and how it ended (R407). -/
structure RunOutcome where
  replies : List (Byte × Word64)
  ending  : RunEnd
deriving DecidableEq, Repr

/-- The pair the host receives for the command that has just completed (R32, R352, R370). -/
def reply (s : State) : Byte × Word64 := (s.lastSt.code, s.res)

/-- The descriptors in order, each to completion before the next (R82); `start` is the event count at the launch. -/
def runFrom (start : Nat) : List Descriptor → State → RunOutcome
  | [], s => { replies := [], ending := .completed s (s.port.taken - start) }
  | d :: ds, s =>
    match runCommand d s with
    | .next t => { runFrom start ds t with replies := reply t :: (runFrom start ds t).replies }
    | .fault _ => { replies := [], ending := .stuck d }
    | .refused _ => { replies := [], ending := .stuck d }

/-- A launch `(S0, L, P)` (R407). -/
structure Launch where
  start    : State
  commands : List Descriptor
  stream   : Port
deriving DecidableEq, Repr

/-- `S0` meets R396's premises, as the reset state does; `P` is a stream argument whatever port it is (`Port.kind`). -/
def Launch.Ok (l : Launch) : Prop := l.start.Premises

/-- The run of a launch (R407). -/
def runLaunch (l : Launch) (_ : l.Ok) : RunOutcome :=
  runFrom l.stream.taken l.commands { l.start with port := l.stream }

end Sys2Proof.Machine
end

