-- ==== Sys2Proof/Safety.lean ====
section
/-! DEFINITION. The terms claims use: the invariants of a reachable state, the window invariants of 45_power_window.md
R262, the power stream a window is held to, and how a stream of bytes stops. -/

namespace Sys2Proof.Machine

open Sys2Proof.Config

/-- The largest power sample (R235). -/
def maxPower : Nat := 134152200

/-- The largest peak sum (R40). -/
def maxPeakSum : Nat := 536608800

/-- The rows of spec/opcode_table.json: a command, its mask and its match value. -/
def opcodeRows : List (Op × Descriptor × Descriptor) :=
  [(.nop, 0xFFFFFFFFFFFFFFFFFFFFFFFFFFFFFFFF, 0x00000000000000000000000000000000),
   (.init, 0xFFFFFFFFFFFFFFFF00000000FFFF00FF, 0x00000000000000000000000000000001),
   (.csrr, 0xFFFFFFFFFFFFFFFFFFFFFFFFFFFF00FF, 0x00000000000000000000000000000002),
   (.sdNext, 0xFFFFFFFFFFFFFFFFFFFFFFFFFFFFFFFF, 0x00000000000000000000000000000010),
   (.pcNext, 0xFFFFFFFFFFFFFFFFFFFFFFFFFFFFFFFF, 0x00000000000000000000000000000018),
   (.pwGet, 0xFFFFFFFFFFFFFFFF00000000FFFFFFFF, 0x00000000000000000000000000000020),
   (.pwAdv, 0xFFFFFFFFFFFFFFFFFFFFFFFFFFFFFFFF, 0x00000000000000000000000000000021),
   (.pwAdvn, 0xFFFFFFFFFFFFFFFF00000000FFFFFFFF, 0x00000000000000000000000000000022),
   (.pwFull, 0xFFFFFFFFFFFFFFFFFFFFFFFFFFFFFFFF, 0x00000000000000000000000000000023),
   (.dmNext, 0xFFFFFFFFFFFFFFFFFFFFFFFFFFFFFFFF, 0x00000000000000000000000000000028),
   (.crcBuf, 0xFFFFFFFFFFFFFFFF000000000000FFFF, 0x00000000000000000000000000000030),
   (.crcTab, 0xFFFFFFFFFFFFFFFFFFFFFFFF0000FFFF, 0x00000000000000000000000000000031)] ++
  [(.bfExt, 0x0000000000000000000000000000FFFF, 0x00000000000000000000000000000038),
   (.bfTst, 0x000000000000000000000000FFFFFFFF, 0x00000000000000000000000000000039),
   (.bbWr, 0xFFFFFFFFFFFFFFFF000000000000FFFF, 0x00000000000000000000000000000040),
   (.bsByte, 0xFFFFFFFFFFFFFFFF00000000FFFFFFFF, 0x00000000000000000000000000000041),
   (.bsRange, 0xFFFFFFFFFFFFFFFF000000000000FFFF, 0x00000000000000000000000000000042),
   (.frDf, 0xFFFFFFFFFFFFFFFFFFFFFFFFFFFFFFFF, 0x00000000000000000000000000000048),
   (.frIcao, 0xFFFFFFFFFFFFFFFFFFFFFFFFFFFFFFFF, 0x00000000000000000000000000000049),
   (.frMe, 0xFFFFFFFFFFFFFFFFFFFFFFFFFFFFFFFF, 0x0000000000000000000000000000004A),
   (.frTc, 0xFFFFFFFFFFFFFFFFFFFFFFFFFFFFFFFF, 0x0000000000000000000000000000004B),
   (.frCheck, 0xFFFFFFFFFFFFFFFFFFFFFFFFFFFFFFFF, 0x0000000000000000000000000000004C),
   (.altDec, 0xFFFFFFFFFFFFFFFFFFFFFFFF0000FFFF, 0x00000000000000000000000000000050)]

/-- `FATAL_CAUSE` is the status that set `FATAL`, or 0 (R33, R356). -/
def State.causeAgrees (s : State) : Bool :=
  if s.fatal then decide (s.fatalCause = .ioError) || decide (s.fatalCause = .sampleRange)
  else decide (s.fatalCause = .ok)

/-- `FRAME_VALID` tells that the slot holds a frame with downlink format 17 and CRC 0 (R284, R285, R316). -/
def State.slotAgrees (s : State) : Bool :=
  if s.frameValid then
    decide ((s.bb.read 0).toNat / 8 = dfRequired) && decide (crc24 (memRead s 0 frameBytes) = 0)
  else true

/-- Under IDLE, SAMPLES and POWER the window and the detector hold their cleared values (R34, R141). -/
def State.windowQuiet (s : State) : Bool :=
  match s.tap with
  | .idle => quiet
  | .samples => quiet
  | .power => quiet
  | .window => true
  | .frames => true
where
  /-- Position, loaded end, detector sums, timestamp and FRAME_VALID are 0. -/
  quiet : Bool :=
    decide (s.pos = 0) && decide (s.le = 0) && decide (s.prevSum = 0) && decide (s.curSum = 0) && !s.curValid &&
      decide (s.fts = 0) && !s.frameValid

/-- What every reachable state satisfies. -/
structure State.Inv (s : State) : Prop where
  params : s.params.legal = true
  bb : s.bb.wf = true
  buf0 : s.buf0.canon = true
  buf1 : s.buf1.canon = true
  slots0 : ∀ i, (s.buf0.get i).toNat ≤ maxPower
  slots1 : ∀ i, (s.buf1.get i).toNat ≤ maxPower
  prevSum : s.prevSum.toNat ≤ maxPeakSum
  curSum : s.curSum.toNat ≤ maxPeakSum
  wsize : s.wsizeAgrees = true
  cause : s.causeAgrees = true
  slot : s.slotAgrees = true
  quiet : s.windowQuiet = true

/-- The invariants (a) and (b) of R262, for positions whose `LE` fits 64 bits (log 5). -/
def State.WindowInv (s : State) : Prop :=
  (s.tap = .window ∨ s.tap = .frames) → s.fatal = false → s.leFits = true → s.loadedEnd

/-- Everything the window and the detector hold is the power stream of `bs`, the bytes since INIT (R250, R251): the history,
the loaded end, and every loaded slot of both buffers, by its absolute index; R262 (c) and P-fresh follow it. -/
structure State.HoldsStream (s : State) (bs : List Byte) : Prop where
  bytesIn : s.bytesIn = BitVec.ofNat 64 bs.length
  legal : legalBytes s.params.nibbleMode bs = true
  even : s.eofSeen = false → bs.length % 4 = 0
  hist : s.hist = historyAfter #v[0, 0, 0, 0, 0, 0, 0, 0] (streamSamples bs)
  le : s.le.toNat = bs.length / 4
  slots : ∀ x, s.base ≤ x → x < s.le.toNat →
    (streamPowers bs)[x]? = some
      (if x < s.base + 65536 then (bufOf s s.sel).get (x - s.base) else (bufOf s (!s.sel)).get (x - s.base - 65536))
  fresh : s.freshSums bs

/-- The window holds the power stream of the bytes since INIT, for positions whose `LE` fits 64 bits (R250, R262 (c)). -/
def State.WindowHolds (s : State) : Prop :=
  (s.tap = .window ∨ s.tap = .frames) → s.fatal = false → s.leFits = true → ∃ bs, s.HoldsStream bs

/-! How a stream of whole bytes stops. -/

/-- What stands after a run of bytes that the CORE reads with no failure: end of stream, a failure of the source, or a pair
whose nibble NIBBLE_MODE = FAULT refuses (R81, R212). -/
inductive StreamEnd where
  | eof
  | ioerr
  | range (b0 b1 : Byte)
deriving DecidableEq, Repr

/-- The events that show it. -/
def StreamEnd.events : StreamEnd → List PortEvent
  | .eof => [.eof]
  | .ioerr => [.ioerr]
  | .range b0 b1 => [.byte b0, .byte b1]

/-- How many bytes are among them. -/
def StreamEnd.bytes : StreamEnd → Nat
  | .eof => 0
  | .ioerr => 0
  | .range _ _ => 2

/-- What reading it raises (R211, R212); OK, nothing, at end of stream. -/
def StreamEnd.status : StreamEnd → Status
  | .eof => .ok
  | .ioerr => .ioError
  | .range _ _ => .sampleRange

/-- It can stand after the bytes `bs`: a refused pair after whole pairs only, under NIBBLE_MODE = FAULT. -/
def StreamEnd.follows (m : NibbleMode) (bs : List Byte) : StreamEnd → Prop
  | .eof => True
  | .ioerr => True
  | .range _ b1 => m = .fault ∧ 16 ≤ b1.toNat ∧ bs.length % 2 = 0

end Sys2Proof.Machine
end

