-- ==== Sys2Proof/Certificates/Slice0/Obligations.lean ====
section
/-! DEFINITION. The statements for the provers. Each docstring names the rules of spec/ it formalises. -/

open Sys2Proof Sys2Proof.Machine Sys2Proof.Config

/-! Decoding and the step. -/

/-- R101, R103 to R105: the decoder reads back every well-formed command from its descriptor, with every operand. -/
def Obligations.DecodeInvertsEncode : Prop :=
  ∀ i : Instr, i.wf = true → decode (encode i) = .instr i

/-- R100, R103, R106: a descriptor that decodes is the descriptor of the command it decodes to, which is well formed; so no
two descriptors mean the same command and no bit is ignored. -/
def Obligations.EncodeInvertsDecode : Prop :=
  ∀ (d : Descriptor) (i : Instr), decode d = .instr i → i.wf = true ∧ encode i = d

/-- R110: the worked encodings, and the bytes of INIT WINDOW, 8. -/
def Obligations.WorkedEncodingsDecode : Prop :=
  decode 0x00000000000000000000000000000000 = .instr .nop ∧
  decode 0x00000000000000000000000800000301 = .instr (.init 3 8) ∧
  decode 0x00000000000000000000000000000401 = .instr (.init 4 0) ∧
  decode 0x00000000000000000000000000000202 = .instr (.csrr 2) ∧
  decode 0x0000000000000000FFFFFFFF00000020 = .instr (.pwGet (-1)) ∧
  decode 0x00000000000000000000FFFC00000022 = .instr (.pwAdvn 65532) ∧
  decode 0x00000000000000000000000000000028 = .instr .dmNext ∧
  decode 0x000000000000000000000000000E0030 = .instr (.crcBuf 0 14) ∧
  decode 0x00000000000000000000000000010031 = .instr (.crcTab 1) ∧
  decode 0x0058C382D690C8AC00000024000C0038 = .instr (.bfExt 0x58C382D690C8AC 36 12) ∧
  decode 0x00000000000000800000000700000039 = .instr (.bfTst 0x80 7) ∧
  decode 0x000000000000000000000000008D0040 = .instr (.bbWr 0 0x8D) ∧
  decode 0x00000000000000000000000100040042 = .instr (.bsRange 1 4) ∧
  decode 0x0000000000000000000000000C380050 = .instr (.altDec 0xC38) ∧
  decodeBytes ([0x01, 0x03, 0x00, 0x00, 0x08] ++ List.replicate 11 0) = .instr (.init 3 8)

/-- spec/opcode_table.json, R103, R105: a descriptor decodes to a row's command exactly when it has the row's match value
under the row's mask. -/
def Obligations.OpcodeTableRowsDecode : Prop :=
  ∀ r ∈ opcodeRows, ∀ d : Descriptor, (∃ i, decode d = .instr i ∧ i.op = r.1) ↔ d &&& r.2.1 = r.2.2

/-- R82, R106: a step takes the host's next command and runs what its descriptor decodes to; every other action of the host
stays in line. -/
def Obligations.StepRunsDecodedCommand : Prop :=
  ∀ (s : State) (d : Descriptor) (rest : List HostAct) (i : Instr),
    s.queue = .command d :: rest → decode d = .instr i → step s = exec i { s with queue := rest }

/-- R106, R107: a step whose descriptor has an opcode outside the map ends with ILLEGAL_OPCODE, whatever its other fields;
one whose opcode is in the map but which is no row of the table ends with RESERVED_FIELD, under every TAP and while FATAL
is set. Both write only RES and LAST_ST. -/
def Obligations.UndecodableDescriptorsEnd : Prop :=
  ∀ (s : State) (d : Descriptor) (rest : List HostAct), s.queue = .command d :: rest →
    ((∀ r ∈ opcodeRows, r.2.2.extractLsb' 0 8 ≠ d.extractLsb' 0 8) →
      step s = .next { s with queue := rest, res := 0, lastSt := .illegalOpcode }) ∧
    (∀ r ∈ opcodeRows, r.2.2.extractLsb' 0 8 = d.extractLsb' 0 8 → d &&& r.2.1 ≠ r.2.2 →
      step s = .next { s with queue := rest, res := 0, lastSt := .reservedField })

/-! Reset. -/

/-- R390 to R392: the external reset gives every element its reset value, also where it abandons a command, and leaves the
parameters and the host's later actions as they were; of the stream port it takes the `lost` events the abandoned command
had consumed, none between commands. Then every CSR from STATUS to PCH7 reads 0, CFG reads the parameters and ID its
constant. (The queue of host actions is the model's, log 1; the number `lost` is the host's, since
93_implementation_defined.md O20 leaves it open, log 10.) -/
def Obligations.ExternalResetGivesResetValues : Prop :=
  ∀ (s : State) (lost : Nat) (rest : List HostAct), s.queue = .reset lost :: rest →
    ∃ t, step s = .next t ∧
      t = { res := 0, lastSt := .ok, fatal := false, fatalCause := .ok, eofSeen := false, frameValid := false,
            tap := .idle, wsize := 0, bytesIn := 0, hist := #v[0, 0, 0, 0, 0, 0, 0, 0], buf0 := .zeros,
            buf1 := .zeros, sel := false, cnt0 := 0, cnt1 := 0, le := 0, pos := 0, prevSum := 0, curSum := 0,
            curValid := false, fts := 0, bb := [], params := s.params, queue := rest,
            port :=
              { ahead := s.port.ahead.drop lost, rest := s.port.rest,
                taken := s.port.taken + if s.port.rest = .waits then min lost s.port.ahead.length else lost } } ∧
      (lost = 0 → t.port = s.port) ∧
      (∀ n, n ≤ 15 → exec (.csrr n) t = .next { t with res := 0, lastSt := .ok }) ∧
      exec (.csrr 16) t = .next { t with res := cfgWord s.params, lastSt := .ok } ∧
      exec (.csrr 17) t = .next { t with res := 0x0000_0007_4A41_5649, lastSt := .ok } ∧
      (∀ i, (t.buf0.get i).toNat = 0 ∧ (t.buf1.get i).toNat = 0 ∧ (t.bb.read i).toNat = 0)

/-- R393: a reset followed by INIT IDLE is the reset state itself, and INIT does not clear BB. -/
def Obligations.ResetThenInitIdleIsReset : Prop :=
  (∀ (s : State) (lost : Nat), exec (.init 0 0) (assertReset lost s) = .next (assertReset lost s)) ∧
  ∀ (tap : Nat) (w : Int) (s t : State), exec (.init tap w) s = .next t → t.bb = s.bb

/-! Control. -/

/-- R140: NOP ends with OK and 0, under every TAP and while FATAL is set, and any nonzero field besides OPC ends it with
RESERVED_FIELD. -/
def Obligations.NopWritesOnlyResult : Prop :=
  (∀ s : State, exec .nop s = .next { s with res := 0, lastSt := .ok }) ∧
  decode 0 = .instr .nop ∧
  ∀ (s : State) (d : Descriptor), d.extractLsb' 0 8 = 0 → d ≠ 0 →
    runCommand d s = .next { s with res := 0, lastSt := .reservedField }

/-- R141, R146: an INIT whose arguments are refused ends with INVALID_ARGUMENT and changes nothing else. -/
def Obligations.RefusedInitChangesNothing : Prop :=
  ∀ (tap : Nat) (w : Int) (s : State),
    (tap > 4 ∨ (tap = 3 ∧ (w < 1 ∨ w > 65536)) ∨ (tap ≠ 3 ∧ w ≠ 0)) →
    exec (.init tap w) s = .next { s with res := 0, lastSt := .invalidArgument }

/-- R141, R142, R145: INIT under IDLE, SAMPLES and POWER clears the chain, sets TAP and WSIZE 0, and reads no stream byte;
BB, the parameters and the port stay. -/
def Obligations.InitWithoutWindowClearsChain : Prop :=
  ∀ (s : State) (tap : Nat) (t : Tap), (tap, t) ∈ [(0, Tap.idle), (1, Tap.samples), (2, Tap.power)] →
    exec (.init tap 0) s = .next
      { s with
        res := 0, lastSt := .ok, fatal := false, fatalCause := .ok, eofSeen := false, bytesIn := 0,
        hist := #v[0, 0, 0, 0, 0, 0, 0, 0], buf0 := .zeros, buf1 := .zeros, cnt0 := 0, cnt1 := 0, sel := false,
        pos := 0, le := 0, prevSum := 0, curSum := 0, curValid := false, fts := 0, frameValid := false, tap := t,
        wsize := 0 }

/-- R141, R143, R146, R252, R358: INIT under WINDOW and FRAMES loads both buffers before it returns, current with power
samples 0..65535 and next with 65536..131071 as far as the stream has them, and starts the window at POS 0; every other slot
is 0. A stream of fewer than 524288 bytes that then just ends sets EOF_SEEN and INIT still ends with OK; one that then fails,
or whose next pair has a bad nibble, makes it end with that fatal status: the new TAP and WSIZE, the cleared chain and the
slots stored so far stay. -/
def Obligations.InitLoadsBothBuffers : Prop :=
  ∀ (s : State) (bs : List Byte) (e : StreamEnd) (es : List PortEvent) (tap : Nat) (w : Int) (tp : Tap) (ws : BitVec 17)
    (st : Status),
    legalBytes s.params.nibbleMode bs = true → e.follows s.params.nibbleMode bs →
    s.port.ahead = bs.map .byte ++ (e.events ++ es) →
    ((tap = 3 ∧ 1 ≤ w ∧ w ≤ 65536 ∧ tp = .window ∧ (ws.toNat : Int) = w) ∨
      (tap = 4 ∧ w = 0 ∧ tp = .frames ∧ ws = s.params.dmWindow)) →
    st = (if 524288 ≤ bs.length then .ok else e.status) →
    ∃ t, exec (.init tap w) s = .next t ∧
      t = { s with
            res := 0, lastSt := st, fatal := decide (st ≠ .ok), fatalCause := st, frameValid := false, tap := tp, wsize := ws,
            sel := false, pos := 0, prevSum := 0, curSum := 0, curValid := false, fts := 0,
            eofSeen := decide (bs.length < 524288 ∧ e = .eof),
            bytesIn := BitVec.ofNat 64 (if 524288 ≤ bs.length then 524288 else bs.length + e.bytes),
            hist := historyAfter #v[0, 0, 0, 0, 0, 0, 0, 0] ((streamSamples bs).take 262144),
            le := BitVec.ofNat 64 (min 131072 (bs.length / 4)), cnt0 := BitVec.ofNat 17 (min 65536 (bs.length / 4)),
            cnt1 := BitVec.ofNat 17 (min 65536 (bs.length / 4 - 65536)), buf0 := t.buf0, buf1 := t.buf1,
            port :=
              { s.port with
                ahead := if 524288 ≤ bs.length then (bs.drop 524288).map .byte ++ (e.events ++ es) else es,
                taken := s.port.taken + if 524288 ≤ bs.length then 524288 else bs.length + e.events.length } } ∧
      ∀ x, x < 131072 →
        (if x < 65536 then t.buf0.get x else t.buf1.get (x - 65536)) =
          if x < bs.length / 4 then (streamPowers bs).getD x 0 else 0

/-- R46: the fields of STATUS, on the state before the CSRR; the status codes are those of the table of R351. -/
def Obligations.StatusRegisterFields : Prop :=
  ∀ (s : State) (codes : List (Status × Nat)) (last cause : Nat),
    codes = [(.ok, 0x00), (.eos, 0x01), (.noMsg, 0x02), (.invalidSize, 0x10), (.outOfRange, 0x11),
      (.invalidArgument, 0x12), (.ioError, 0x20), (.sampleRange, 0x21), (.fatal, 0x22), (.illegalOpcode, 0x30),
      (.reservedField, 0x31), (.wrongTap, 0x32), (.windowUnderrun, 0x40), (.overflow, 0x41)] →
    (s.lastSt, last) ∈ codes → (s.fatalCause, cause) ∈ codes →
    ∃ v : Word64, exec (.csrr 0) s = .next { s with res := v, lastSt := .ok } ∧
      v.toNat = s.fatal.toNat + 2 * s.eofSeen.toNat
        + 4 * (if (s.tap = .window ∨ s.tap = .frames) ∧ (s.le.toNat : Int) - s.pos.toNat ≥ s.wsize.toNat then 1 else 0)
        + 8 * s.frameValid.toNat
        + 16 * (match s.tap with | .idle => 0 | .samples => 1 | .power => 2 | .window => 3 | .frames => 4)
        + 256 * last + 65536 * cause

/-- R55: the fields of CFG; with the default parameters it reads 0x0000_04B0_04B0_0000; no step changes its value. -/
def Obligations.ConfigurationRegisterFields : Prop :=
  (∀ s : State, ∃ v : Word64, exec (.csrr 0x10) s = .next { s with res := v, lastSt := .ok } ∧
    v.toNat = (match s.params.peakCmp with | .gt => 0 | .ge => 1) + 2 * (match s.params.altRule with | .doc => 0 | .gillham => 1)
      + 4 * (match s.params.nibbleMode with | .fault => 0 | .mask => 1) + 65536 * s.params.frameSkip.toNat
      + 4294967296 * (s.params.dmWindow.toNat % 65536)) ∧
  (∀ s : State, s.params = Params.default →
    exec (.csrr 0x10) s = .next { s with res := 0x0000_04B0_04B0_0000, lastSt := .ok }) ∧
  ∀ s t : State, step s = .next t → ∃ v : Word64, exec (.csrr 0x10) s = .next { s with res := v, lastSt := .ok } ∧
    exec (.csrr 0x10) t = .next { t with res := v, lastSt := .ok }

/-- R47 to R54, R56: the other CSRs read the elements they name, the history sign-extended; an unassigned number ends with
OUT_OF_RANGE (R45, R147). -/
def Obligations.CsrsReadTheirElements : Prop :=
  ∀ (s : State) (n : Nat) (v : Word64),
    (((n = 0x01 ∧ v.toNat = s.wsize.toNat) ∨ (n = 0x02 ∧ v = s.pos) ∨ (n = 0x03 ∧ v = s.fts) ∨ (n = 0x04 ∧ v = s.bytesIn) ∨
      (n = 0x05 ∧ v = s.le) ∨ (n = 0x06 ∧ v.toNat = s.prevSum.toNat) ∨
      (n = 0x07 ∧ v.toNat = s.curSum.toNat + 4294967296 * s.curValid.toNat) ∨
      (∃ k : Fin 8, n = 0x08 + k ∧ v.toInt = s.hist[k].toInt) ∨ (n = 0x11 ∧ v = 0x0000_0007_4A41_5649)) →
    exec (.csrr n) s = .next { s with res := v, lastSt := .ok }) ∧
    (0x12 ≤ n → exec (.csrr n) s = .next { s with res := 0, lastSt := .outOfRange })

/-- R34, R106, R357: a stream-unit command under a TAP that does not allow it ends with WRONG_TAP, and under a TAP that
does, while FATAL is set, with FATAL; either way it writes only RES and LAST_ST. -/
def Obligations.StreamUnitStateChecks : Prop :=
  ∀ (s : State) (k n : Int) (i : Instr) (taps : List Tap),
    (i, taps) ∈ [(.sdNext, [.samples]), (.pcNext, [.power]), (.pwGet k, [.window, .frames]), (.pwAdv, [.window]),
      (.pwAdvn n, [.window]), (.pwFull, [.window, .frames]), (.dmNext, [Tap.frames])] →
    (s.tap ∉ taps → exec i s = .next { s with res := 0, lastSt := .wrongTap }) ∧
    (s.tap ∈ taps → s.fatal = true → exec i s = .next { s with res := 0, lastSt := .fatal })

/-! The sample decoder. -/

/-- R210: the next two stream bytes, little-endian, 12 bits, less the bias of 2048; the upper nibble of the second byte is
zero, or ignored under NIBBLE_MODE = MASK (R212). -/
def Obligations.SdNextReturnsCentredSample : Prop :=
  ∀ (s : State) (b0 b1 : Byte) (es : List PortEvent),
    s.tap = .samples → s.fatal = false → s.eofSeen = false → s.port.ahead = .byte b0 :: .byte b1 :: es →
    (b1.toNat < 16 ∨ s.params.nibbleMode = .mask) →
    ∃ v : Word64, exec .sdNext s = .next
        { s with
          res := v, lastSt := .ok, bytesIn := s.bytesIn + 2,
          port := { s.port with ahead := es, taken := s.port.taken + 2 } } ∧
      v.toInt = (b1.toNat % 16 : Nat) * 256 + (b0.toNat : Int) - 2048

/-- R211, R214: SD_NEXT ends with EOS when EOF_SEEN is set (reading nothing), at EOF, and at EOF after a lone byte, which is
consumed, counted and dropped. -/
def Obligations.SdNextEndsAtEndOfStream : Prop :=
  ∀ s : State, s.tap = .samples → s.fatal = false →
    (s.eofSeen = true → exec .sdNext s = .next { s with res := 0, lastSt := .eos }) ∧
    (∀ es, s.eofSeen = false → s.port.ahead = .eof :: es → exec .sdNext s = .next
      { s with res := 0, lastSt := .eos, eofSeen := true,
               port := { s.port with ahead := es, taken := s.port.taken + 1 } }) ∧
    (∀ b es, s.eofSeen = false → s.port.ahead = .byte b :: .eof :: es → exec .sdNext s = .next
      { s with res := 0, lastSt := .eos, eofSeen := true, bytesIn := s.bytesIn + 1,
               port := { s.port with ahead := es, taken := s.port.taken + 2 } })

/-- R211, R212, R216, R232, R234, R356, R358: an I/O failure before a sample is whole is the fatal IO_ERROR, a nonzero upper
nibble under NIBBLE_MODE = FAULT the fatal SAMPLE_RANGE, for SD_NEXT (at most one byte before the failure) and for PC_NEXT in
either sample of its pair (at most three); the bytes read are consumed and counted, and the history is unchanged. -/
def Obligations.FailedSampleReadIsFatal : Prop :=
  ∀ (s : State) (bs : List Byte) (e : StreamEnd) (es : List PortEvent),
    s.fatal = false → s.eofSeen = false → legalBytes s.params.nibbleMode bs = true →
    e ≠ .eof → e.follows s.params.nibbleMode bs → s.port.ahead = bs.map .byte ++ (e.events ++ es) →
    (∀ i : Instr, (i = .sdNext ∧ s.tap = .samples ∧ bs.length < 2) ∨ (i = .pcNext ∧ s.tap = .power ∧ bs.length < 4) →
      exec i s = .next
        { s with res := 0, lastSt := e.status, fatal := true, fatalCause := e.status,
                 bytesIn := s.bytesIn + BitVec.ofNat 64 (bs.length + e.bytes),
                 port := { s.port with ahead := es, taken := s.port.taken + (bs.length + e.events.length) } })

/-- R81, R371, R390 (the model's form of "stuck", log 3): a command that finds the port empty and waiting, and a step with no
action of the host, have no next state. -/
def Obligations.WaitingHasNoNextState : Prop :=
  (∀ s : State, s.queue = [] → step s = .fault .awaitingCommand) ∧
  ∀ s : State, s.fatal = false → s.eofSeen = false → s.port.ahead = [] → s.port.rest = .waits →
    (s.tap = .samples → exec .sdNext s = .fault .awaitingStream) ∧
    (s.tap = .power → exec .pcNext s = .fault .awaitingStream) ∧
    (s.tap = .window → s.pos.toNat % 65536 = 65535 → s.pos ≠ BitVec.allOnes 64 → exec .pwAdv s = .fault .awaitingStream) ∧
    (∀ w, 1 ≤ w → w ≤ 65536 → exec (.init 3 w) s = .fault .awaitingStream) ∧ exec (.init 4 0) s = .fault .awaitingStream

/-! The power computer. -/

/-- R230, R231: two samples shift into the history, the two oldest leave, and the result is the exact power of the eight;
under NIBBLE_MODE = MASK the upper nibbles of the second bytes are ignored (R212). -/
def Obligations.PcNextReturnsPower : Prop :=
  ∀ (s : State) (b0 b1 b2 b3 : Byte) (es : List PortEvent) (r0 r1 : Sample),
    s.tap = .power → s.fatal = false → s.eofSeen = false →
    s.port.ahead = .byte b0 :: .byte b1 :: .byte b2 :: .byte b3 :: es →
    ((b1.toNat < 16 ∧ b3.toNat < 16) ∨ s.params.nibbleMode = .mask) →
    r0.toInt = (b1.toNat % 16 : Nat) * 256 + (b0.toNat : Int) - 2048 →
    r1.toInt = (b3.toNat % 16 : Nat) * 256 + (b2.toNat : Int) - 2048 →
    ∃ v : Word64, exec .pcNext s = .next
        { s with
          res := v, lastSt := .ok, bytesIn := s.bytesIn + 4,
          hist := #v[s.hist[2], s.hist[3], s.hist[4], s.hist[5], s.hist[6], s.hist[7], r0, r1],
          port := { s.port with ahead := es, taken := s.port.taken + 4 } } ∧
      (v.toNat : Int) = (r1.toInt - s.hist[7].toInt + s.hist[5].toInt - s.hist[3].toInt) ^ 2
        + (r0.toInt - s.hist[6].toInt + s.hist[4].toInt - s.hist[2].toInt) ^ 2

/-- R232, R234: with fewer than four bytes before EOF, PC_NEXT ends with EOS, the bytes are consumed and counted, and H is
unchanged; once EOF_SEEN is set it ends with EOS and reads nothing. -/
def Obligations.PcNextShortPairEnds : Prop :=
  ∀ s : State, s.tap = .power → s.fatal = false →
    (s.eofSeen = true → exec .pcNext s = .next { s with res := 0, lastSt := .eos }) ∧
    ∀ (bs : List Byte) (es : List PortEvent),
      s.eofSeen = false → bs.length < 4 → legalBytes s.params.nibbleMode bs = true →
      s.port.ahead = bs.map .byte ++ .eof :: es →
      exec .pcNext s = .next
        { s with res := 0, lastSt := .eos, eofSeen := true, bytesIn := s.bytesIn + BitVec.ofNat 64 bs.length,
                 port := { s.port with ahead := es, taken := s.port.taken + (bs.length + 1) } }

/-- R231, R235: each bracket is at most 8190 in magnitude and a power sample, computed exactly, at most 134152200; that value
and 0 are reached. -/
def Obligations.PowerSampleRange : Prop :=
  (∀ h : Vector Sample 8, (powerOf h).toNat ≤ 134152200 ∧
    ((powerOf h).toNat : Int) = (h[7].toInt - h[5].toInt + h[3].toInt - h[1].toInt) ^ 2
      + (h[6].toInt - h[4].toInt + h[2].toInt - h[0].toInt) ^ 2 ∧
    |h[7].toInt - h[5].toInt + h[3].toInt - h[1].toInt| ≤ 8190 ∧
    |h[6].toInt - h[4].toInt + h[2].toInt - h[0].toInt| ≤ 8190) ∧
  (powerOf #v[0x800, 0x800, 0x7FF, 0x7FF, 0x800, 0x800, 0x7FF, 0x7FF]).toNat = 134152200 ∧
  (powerOf #v[0, 0, 0, 0, 0, 0, 0, 0]).toNat = 0

/-! The power window. -/

/-- R251, R255, R257: PW_GET's checks, and the slot a window offset maps to. -/
def Obligations.PwGetReadsTheWindow : Prop :=
  ∀ (s : State) (i : Int), (s.tap = .window ∨ s.tap = .frames) → s.fatal = false →
    ((i < 0 ∨ i ≥ s.wsize.toNat) → exec (.pwGet i) s = .next { s with res := 0, lastSt := .outOfRange }) ∧
    (0 ≤ i → i < s.wsize.toNat → (s.pos.toNat : Int) + i ≥ s.le.toNat →
      exec (.pwGet i) s = .next { s with res := 0, lastSt := .windowUnderrun }) ∧
    (0 ≤ i → i < s.wsize.toNat → (s.pos.toNat : Int) + i < s.le.toNat →
      ∃ v : Word64, exec (.pwGet i) s = .next { s with res := v, lastSt := .ok } ∧
        ∀ off : Nat, (off : Int) = s.pos.toNat + i - (s.pos.toNat - s.pos.toNat % 65536 : Nat) →
          v.toNat = if off < 65536 then ((if s.sel then s.buf1 else s.buf0).get off).toNat
            else ((if s.sel then s.buf0 else s.buf1).get (off - 65536)).toNat)

/-- R253, R258, R259: while no 65536-sample boundary is crossed, PW_ADV and PW_ADVN move POS and nothing else; at
POS = 2^64 - 1 PW_ADV ends with OVERFLOW and moves nothing; PW_ADVN refuses a negative count. -/
def Obligations.WindowMovesInsideBuffer : Prop :=
  ∀ s : State, s.tap = .window → s.fatal = false →
    (s.pos.toNat % 65536 < 65535 → exec .pwAdv s = .next { s with res := 0, lastSt := .ok, pos := s.pos + 1 }) ∧
    (∀ n : Int, 0 ≤ n → (s.pos.toNat % 65536 : Nat) + n < 65536 →
      exec (.pwAdvn n) s = .next { s with res := 0, lastSt := .ok, pos := s.pos + BitVec.ofInt 64 n }) ∧
    (s.pos = BitVec.allOnes 64 → exec .pwAdv s = .next { s with res := 0, lastSt := .overflow }) ∧
    ∀ n : Int, n < 0 → exec (.pwAdvn n) s = .next { s with res := 0, lastSt := .invalidArgument }

/-- R252, R253, R258, R261, R358: crossing a boundary swaps the buffers and refills the old current one with the next power
samples; the slots from CNT on keep their old contents, the other buffer is not written, and everything else is unchanged.
Once EOF_SEEN is set the fill stores nothing. A refill that meets a failure or a bad nibble ends PW_ADV with that fatal
status: POS has moved, the swap is done, and the slots stored so far stay stored and counted in LE. -/
def Obligations.PwAdvRefillsAtBoundary : Prop :=
  ∀ s : State, s.tap = .window → s.fatal = false → s.pos.toNat % 65536 = 65535 → s.pos ≠ BitVec.allOnes 64 →
    (s.eofSeen = true → exec .pwAdv s = .next
      (if s.sel then { s with res := 0, lastSt := .ok, pos := s.pos + 1, sel := false, cnt1 := 0 }
        else { s with res := 0, lastSt := .ok, pos := s.pos + 1, sel := true, cnt0 := 0 })) ∧
    ∀ (bs : List Byte) (e : StreamEnd) (es : List PortEvent) (st : Status),
      s.eofSeen = false → s.buf0.canon = true → s.buf1.canon = true → s.le.toNat + 65536 < 2 ^ 64 →
      legalBytes s.params.nibbleMode bs = true → e.follows s.params.nibbleMode bs →
      s.port.ahead = bs.map .byte ++ (e.events ++ es) → st = (if 262144 ≤ bs.length then .ok else e.status) →
      ∃ t, exec .pwAdv s = .next t ∧
        t = { s with
              res := 0, lastSt := st, fatal := decide (st ≠ .ok), fatalCause := if st = .ok then s.fatalCause else st,
              pos := s.pos + 1, sel := !s.sel, eofSeen := decide (bs.length < 262144 ∧ e = .eof),
              bytesIn := s.bytesIn + BitVec.ofNat 64 (if 262144 ≤ bs.length then 262144 else bs.length + e.bytes),
              hist := historyAfter s.hist ((streamSamples bs).take 131072),
              le := s.le + BitVec.ofNat 64 (min 65536 (bs.length / 4)),
              cnt0 := if s.sel then s.cnt0 else BitVec.ofNat 17 (min 65536 (bs.length / 4)),
              cnt1 := if s.sel then BitVec.ofNat 17 (min 65536 (bs.length / 4)) else s.cnt1,
              buf0 := if s.sel then s.buf0 else t.buf0, buf1 := if s.sel then t.buf1 else s.buf1,
              port :=
                { s.port with
                  ahead := if 262144 ≤ bs.length then (bs.drop 262144).map .byte ++ (e.events ++ es) else es,
                  taken := s.port.taken + if 262144 ≤ bs.length then 262144 else bs.length + e.events.length } } ∧
        ∀ k, k < 65536 →
          (if s.sel then t.buf1 else t.buf0).get k =
            if k < bs.length / 4 then (samplePowers s.hist (streamSamples bs)).getD k 0
            else (if s.sel then s.buf1 else s.buf0).get k

/-- R259: PW_ADVN n leaves exactly the state that n PW_ADV commands leave, up to and including the first that fails. -/
def Obligations.PwAdvnIsRepeatedPwAdv : Prop :=
  ∀ s : State, s.tap = .window → s.fatal = false →
    exec (.pwAdvn 0) s = .next { s with res := 0, lastSt := .ok } ∧
    ∀ n : Nat, exec (.pwAdvn ((n : Int) + 1)) s =
      match exec .pwAdv s with
      | .next t => if t.lastSt = .ok then exec (.pwAdvn n) t else .next t
      | o => o

/-- R254, R260: PW_FULL returns 1 exactly when LE - POS >= WSIZE over mathematical integers. -/
def Obligations.PwFullReportsIsFull : Prop :=
  ∀ s : State, (s.tap = .window ∨ s.tap = .frames) → s.fatal = false →
    ((s.le.toNat : Int) - s.pos.toNat ≥ s.wsize.toNat → exec .pwFull s = .next { s with res := 1, lastSt := .ok }) ∧
    ((s.le.toNat : Int) - s.pos.toNat < s.wsize.toNat → exec .pwFull s = .next { s with res := 0, lastSt := .ok })

/-- R262 (a) and (b): every step keeps them, from every state that has them, up to the positions whose LE does not fit its
64 bits (log 5). -/
def Obligations.WindowInvariantKept : Prop :=
  ∀ s t : State, s.WindowInv → step s = .next t → t.WindowInv

/-- R250, R251, R262 (c), R396 (P-fresh): every step keeps the window on the power stream of the bytes taken since INIT: the
history, LE, every loaded slot of both buffers, and under FRAMES the detector sums, are that stream's; so under WINDOW and
FRAMES, while nothing is fatal, the window shows the power stream (for positions whose LE fits its 64 bits, log 5; the form
of P-fresh is the model's reading, log 18). -/
def Obligations.WindowHoldsPowerStream : Prop :=
  (∀ s t : State, s.Inv → s.WindowInv → s.WindowHolds → step s = .next t → t.WindowHolds) ∧
  ∀ s : State, s.Inv → s.WindowInv → s.WindowHolds → (s.tap = .window ∨ s.tap = .frames) → s.fatal = false →
    s.leFits = true → s.Premises

/-- R254, R262: while EOF_SEEN is 0 the window is full, so PW_FULL returns 1 (for positions whose LE fits its 64 bits,
log 5). -/
def Obligations.WindowFullUntilStreamEnds : Prop :=
  ∀ s : State, s.Inv → s.WindowInv → (s.tap = .window ∨ s.tap = .frames) → s.fatal = false → s.eofSeen = false →
    s.pos.toNat - s.pos.toNat % 65536 + 131072 < 2 ^ 64 →
    s.le.toNat ≥ s.pos.toNat + 65537 ∧ exec .pwFull s = .next { s with res := 1, lastSt := .ok }

/-- R250, R255, R262 (c): after INIT WINDOW, w and PW_ADVN n over a stream that ends, PW_GET i returns power sample n + i of the
stream where the stream has it, and WINDOW_UNDERRUN where it does not. -/
def Obligations.WindowShowsPowerStream : Prop :=
  ∀ (s : State) (bs : List Byte) (es : List PortEvent) (w n i : Int),
    legalBytes s.params.nibbleMode bs = true → s.port.ahead = bs.map .byte ++ .eof :: es →
    1 ≤ w → w ≤ 65536 → 0 ≤ n → n < 2 ^ 31 → 0 ≤ i → i < w →
    ∃ t u : State, exec (.init 3 w) s = .next t ∧ t.lastSt = .ok ∧ exec (.pwAdvn n) t = .next u ∧ u.lastSt = .ok ∧
      u.pos.toNat = n.toNat ∧
      exec (.pwGet i) u = .next
        (if (n + i).toNat < (streamPowers bs).length
          then { u with res := ((streamPowers bs).getD (n + i).toNat 0).setWidth 64, lastSt := .ok }
          else { u with res := 0, lastSt := .windowUnderrun })

/-! The preamble detector. -/

/-- R289, R290: when the window cannot be filled, DM_NEXT ends with EOS and keeps the scan state. The second clause is the
model's choice (log 11): on an endless stream, at a position whose LE does not fit its 64 bits, it never ends. -/
def Obligations.DmNextEndsWhenNotFull : Prop :=
  ∀ s : State, s.tap = .frames → s.fatal = false → (s.le.toNat : Int) - s.pos.toNat < s.wsize.toNat →
    ((s.port.kind ≠ .infinite ∨ s.eofSeen = true ∨ s.pos.toNat - s.pos.toNat % 65536 + 131072 < 2 ^ 64) →
      exec .dmNext s = .next { s with res := 0, lastSt := .eos }) ∧
    (s.port.kind = .infinite → s.eofSeen = false → s.pos.toNat - s.pos.toNat % 65536 + 131072 ≥ 2 ^ 64 →
      exec .dmNext s = .fault .endlessScan)

/-- R281 to R285, R288, R289: at a full window position without an accepted frame, DM_NEXT makes one window step and goes on
from the next position, with this position's peak sum as the predecessor and its successor's as the current one; a window
step that fails ends it, but for the step past POS = 2^64 - 1 on an endless stream, where the model never ends (its choice,
log 11). -/
def Obligations.DmNextPassesOverPosition : Prop :=
  ∀ (s s1 : State) (w : Nat → Nat) (pk0 pk1 vl0 : Nat), s.tap = .frames → s.fatal = false →
    (s.le.toNat : Int) - s.pos.toNat ≥ s.wsize.toNat → (∀ i, w i = (wread s i).toNat) →
    pk0 = (if s.curValid then s.curSum.toNat else w 0 + w 10 + w 35 + w 45) → pk1 = w 1 + w 11 + w 36 + w 46 →
    vl0 = w 5 + w 15 + w 20 + w 25 + w 30 + w 40 →
    s1 = { s with curSum := BitVec.ofNat 32 pk0, curValid := true } →
    (¬ (s.prevSum.toNat < pk0 ∧ pk0 > pk1 ∧
        (match s.params.peakCmp with | .gt => pk0 > 2 * vl0 | .ge => pk0 ≥ 2 * vl0)) ∨
      (frameByte s 0).toNat / 8 ≠ 17 ∨ crc24 (candidate s) ≠ 0) →
    (∀ u, wstep s1 = .ok () u →
      exec .dmNext s = exec .dmNext { u with prevSum := BitVec.ofNat 32 pk0, curSum := BitVec.ofNat 32 pk1 }) ∧
    (∀ st u, wstep s1 = .ended st u → (st ≠ .overflow ∨ s.port.kind ≠ .infinite ∨ s.eofSeen = true) →
      exec .dmNext s = .next { u with res := 0, lastSt := st }) ∧
    (∀ u, wstep s1 = .ended .overflow u → s.port.kind = .infinite → s.eofSeen = false →
      exec .dmNext s = .fault .endlessScan) ∧
    (s.pos.toNat % 65536 < 65535 → wstep s1 = .ok () { s1 with pos := s.pos + 1 })

/-- R281 to R288: at a full window position that passes the preamble test, with downlink format 17 and CRC 0, DM_NEXT
delivers the frame, its timestamp 100 * POS, skips FRAME_SKIP positions (here inside the buffer) and forgets the sums.
Bit k of the frame is bit 7 - (k mod 8) of byte k / 8. -/
def Obligations.DmNextDeliversFrame : Prop :=
  ∀ (s : State) (w : Nat → Nat) (pk0 pk1 vl0 : Nat), s.tap = .frames → s.fatal = false → s.bb.wf = true →
    (s.le.toNat : Int) - s.pos.toNat ≥ s.wsize.toNat → (∀ i, w i = (wread s i).toNat) →
    pk0 = (if s.curValid then s.curSum.toNat else w 0 + w 10 + w 35 + w 45) → pk1 = w 1 + w 11 + w 36 + w 46 →
    vl0 = w 5 + w 15 + w 20 + w 25 + w 30 + w 40 →
    s.prevSum.toNat < pk0 → pk0 > pk1 →
    (match s.params.peakCmp with | .gt => pk0 > 2 * vl0 | .ge => pk0 ≥ 2 * vl0) →
    (frameByte s 0).toNat / 8 = 17 → crc24 (candidate s) = 0 →
    s.pos.toNat ≤ 184467440737095516 → s.pos.toNat % 65536 + s.params.frameSkip.toNat < 65536 →
    ∃ t, exec .dmNext s = .next t ∧
      t = { s with
            res := BitVec.ofNat 64 (100 * s.pos.toNat), lastSt := .ok, fts := BitVec.ofNat 64 (100 * s.pos.toNat),
            frameValid := true, pos := s.pos + s.params.frameSkip.setWidth 64, prevSum := 0, curSum := 0,
            curValid := false, bb := t.bb } ∧
      (∀ k, k < 112 → (t.bb.read (k / 8)).getLsbD (7 - k % 8) = decide (¬ w (80 + 10 * k) < w (85 + 10 * k))) ∧
      (∀ n, n < 14 → t.bb.read n = (candidate s).getD n 0 ∧ t.bb.read n = frameByte s n) ∧
      (∀ a, 14 ≤ a → t.bb.read a = s.bb.read a)

/-- R286, R287, R289: an accepted frame whose timestamp does not fit ends DM_NEXT with OVERFLOW and nothing delivered; a
frame skip that fails leaves the frame in the slot and FTS, with RES 0 and the failure's status; a frame skip that crosses a
buffer boundary ends as the skip does. -/
def Obligations.DmNextFrameSkipOutcomes : Prop :=
  ∀ (s s1 d : State), s.tap = .frames → s.fatal = false → isFull s = true → s1 = loadCur s → hitHere s1 = true →
    accepted s1 = true → d = deliver s1 →
    (s.pos.toNat > 184467440737095516 → exec .dmNext s = .next { s1 with res := 0, lastSt := .overflow }) ∧
    (s.pos.toNat ≤ 184467440737095516 →
      (∀ st u, wsteps s.params.frameSkip.toNat d = .ended st u →
        exec .dmNext s = .next { u with res := 0, lastSt := st } ∧ u.bb = d.bb ∧ u.fts = d.fts ∧ u.frameValid = true) ∧
      (∀ u, wsteps s.params.frameSkip.toNat d = .ok () u →
        exec .dmNext s = .next
          { u with res := BitVec.ofNat 64 (100 * s.pos.toNat), lastSt := .ok, prevSum := 0, curSum := 0, curValid := false }))

/-- R287, R291: what DM_NEXT does does not depend on BB: on another BB it ends, or does not end, in the same way, with the
same state apart from BB. It leaves either BB as it was, or it has delivered a frame: then bytes 0..13 of both are the same
and the others are each as they were. One that ends with EOS delivers none. -/
def Obligations.DetectorIgnoresByteBuffer : Prop :=
  ∀ (s : State) (m : Memory),
    (∀ t, exec .dmNext s = .next t →
      ∃ b : Memory, exec .dmNext { s with bb := m } = .next { t with bb := b } ∧
        ((t.bb = s.bb ∧ b = m) ∨
          (t.frameValid = true ∧ (s.bb.wf = true → m.wf = true → ∀ n, n < 14 → b.read n = t.bb.read n) ∧
            ∀ a, 14 ≤ a → b.read a = m.read a ∧ t.bb.read a = s.bb.read a)) ∧
        (t.frameValid = false ∨ t.lastSt = .eos → t.bb = s.bb ∧ b = m) ∧
        (t.lastSt = .eos → t.frameValid = s.frameValid)) ∧
    ∀ why, exec .dmNext s = .fault why → exec .dmNext { s with bb := m } = .fault why

/-! CRC-24. -/

/-- R192, R197: the table holds the bitwise CRC of each single byte value, and CRC_TAB reads it. -/
def Obligations.CrcTableIsBitwiseCrc : Prop :=
  (∀ b : Byte, crcEntry b = crcBits [b]) ∧
  (∀ (s : State) (n : Nat), n ≤ 255 →
    exec (.crcTab n) s = .next { s with res := (crcBits [BitVec.ofNat 8 n]).setWidth 64, lastSt := .ok }) ∧
  ∀ (s : State) (n : Nat), n > 255 → exec (.crcTab n) s = .next { s with res := 0, lastSt := .outOfRange }

/-- R195: the byte-wise CRC is the bitwise CRC, for every byte list. -/
def Obligations.ByteCrcIsBitwiseCrc : Prop :=
  ∀ bs : List Byte, crc24 bs = crcBits bs

/-- R196: CRC_BUF returns the CRC of the bytes from..to-1 of BB, and refuses a range not inside [0, 256]. -/
def Obligations.CrcBufReturnsCrc : Prop :=
  ∀ (s : State) (lo : Int) (hi : Nat),
    ((lo < 0 ∨ lo > hi ∨ hi > 256) → exec (.crcBuf lo hi) s = .next { s with res := 0, lastSt := .outOfRange }) ∧
    (0 ≤ lo → lo ≤ hi → hi ≤ 256 →
      ∃ v : Word64, exec (.crcBuf lo hi) s = .next { s with res := v, lastSt := .ok } ∧
        v.toNat = (crc24 ((List.range (hi - lo.toNat)).map fun j => s.bb.read (lo.toNat + j))).toNat)

/-- R198: appending the three bytes of a list's CRC, most significant first, gives a list whose CRC is 0. -/
def Obligations.AppendedParityGivesZero : Prop :=
  ∀ bs : List Byte, crc24 (bs ++ [(crc24 bs).extractLsb' 16 8, (crc24 bs).extractLsb' 8 8, (crc24 bs).extractLsb' 0 8]) = 0

/-- R199: the CRC is linear over lists of equal length, and flipping any one bit of a valid 14-byte frame makes its CRC
nonzero. -/
def Obligations.SingleBitErrorsDetected : Prop :=
  (∀ as bs : List Byte, as.length = bs.length → crc24 (List.zipWith (· ^^^ ·) as bs) = crc24 as ^^^ crc24 bs) ∧
  (∀ (f : List Byte) (k : Nat), f.length = 14 → crc24 f = 0 → k < 112 →
    crc24 (f.set (k / 8) (f.getD (k / 8) 0 ^^^ BitVec.twoPow 8 (7 - k % 8))) ≠ 0) ∧
  crc24 [0x8D, 0x48, 0x40, 0xD6, 0x20, 0x2C, 0xC3, 0x71, 0xC3, 0x2C, 0xE0, 0x57, 0x60, 0x99] = 0xFFF409

/-! Bit fields and the byte buffer. -/

/-- R160, R165: BF_EXT is the mathematical bit slice for every valid size and start, and every invalid pair fails, the size
first. -/
def Obligations.BfExtIsMathematicalSlice : Prop :=
  ∀ (s : State) (value : Word64) (start : Int) (size : Nat),
    ((size = 0 ∨ size ≥ 32) → exec (.bfExt value start size) s = .next { s with res := 0, lastSt := .invalidSize }) ∧
    (1 ≤ size → size ≤ 31 → (start < 0 ∨ start + size > 64) →
      exec (.bfExt value start size) s = .next { s with res := 0, lastSt := .outOfRange }) ∧
    (1 ≤ size → size ≤ 31 → 0 ≤ start → start + size ≤ 64 →
      ∃ v : Word64, exec (.bfExt value start size) s = .next { s with res := v, lastSt := .ok } ∧
        v.toNat = value.toNat / 2 ^ start.toNat % 2 ^ size)

/-- R161: BF_TST returns the bit at the index, and fails outside [0, 64). -/
def Obligations.BfTstReturnsBit : Prop :=
  ∀ (s : State) (value : Word64) (index : Int),
    ((index < 0 ∨ index ≥ 64) → exec (.bfTst value index) s = .next { s with res := 0, lastSt := .outOfRange }) ∧
    (0 ≤ index → index < 64 →
      exec (.bfTst value index) s = .next
        { s with res := if value.getLsbD index.toNat then 1 else 0, lastSt := .ok })

/-- R162: BB_WR stores one byte, clears FRAME_VALID below index 14, and is refused, storing nothing, when IMM16[15:8] is
nonzero or the index is outside 0..255. -/
def Obligations.BbWrStoresOneByte : Prop :=
  ∀ (s : State) (index : Int) (imm : BitVec 16),
    (imm.toNat ≥ 256 → exec (.bbWr index imm) s = .next { s with res := 0, lastSt := .reservedField }) ∧
    (imm.toNat < 256 → (index < 0 ∨ index > 255) →
      exec (.bbWr index imm) s = .next { s with res := 0, lastSt := .outOfRange }) ∧
    (imm.toNat < 256 → 0 ≤ index → index ≤ 255 → s.bb.wf = true →
      ∃ t, exec (.bbWr index imm) s = .next t ∧
        t = { s with res := 0, lastSt := .ok, frameValid := if index < 14 then false else s.frameValid, bb := t.bb } ∧
        (t.bb.read index.toNat).toNat = imm.toNat ∧ ∀ a, a ≠ index.toNat → t.bb.read a = s.bb.read a)

/-- R163: BS_BYTE returns the byte at the index, zero-extended, and fails outside 0..255. -/
def Obligations.BsByteReadsByte : Prop :=
  ∀ (s : State) (index : Int),
    ((index < 0 ∨ index > 255) → exec (.bsByte index) s = .next { s with res := 0, lastSt := .outOfRange }) ∧
    (0 ≤ index → index ≤ 255 →
      ∃ v : Word64, exec (.bsByte index) s = .next { s with res := v, lastSt := .ok } ∧
        v.toNat = (s.bb.read index.toNat).toNat)

/-- R164: BS_RANGE reads the bytes [from, to) big-endian; the bounds are checked before the length. -/
def Obligations.BsRangeReadsBigEndian : Prop :=
  ∀ (s : State) (lo : Int) (hi : Nat),
    ((lo < 0 ∨ lo > hi ∨ hi > 256) → exec (.bsRange lo hi) s = .next { s with res := 0, lastSt := .outOfRange }) ∧
    (0 ≤ lo → hi ≤ 256 → hi - lo > 8 →
      exec (.bsRange lo hi) s = .next { s with res := 0, lastSt := .invalidArgument }) ∧
    (0 ≤ lo → lo ≤ hi → hi ≤ 256 → hi - lo ≤ 8 →
      ∃ v : Word64, exec (.bsRange lo hi) s = .next { s with res := v, lastSt := .ok } ∧
        v.toNat = ((List.range (hi - lo.toNat)).map fun j =>
          (s.bb.read (lo.toNat + j)).toNat * 256 ^ (hi - lo.toNat - 1 - j)).sum)

/-- R168: only BB_WR and DM_NEXT write BB, DM_NEXT no byte outside 0..13. -/
def Obligations.OnlyBbWrAndDmNextWriteBuffer : Prop :=
  ∀ (i : Instr) (s t : State), exec i s = .next t →
    (i ≠ .dmNext → (∀ index imm, i ≠ .bbWr index imm) → t.bb = s.bb) ∧
    (i = .dmNext → ∀ a, 14 ≤ a → t.bb.read a = s.bb.read a)

/-- R166, R167: formatting after parsing gives back every string the adaptor accepts, and parsing after formatting every
byte list; a string of odd length, or with any character outside 0-9 and A-F, is refused and issues no BB_WR. -/
def Obligations.HexRoundTrip : Prop :=
  (∀ (cs : List Char) (bs : List Byte), parseHex cs = some bs → formatHex bs = cs) ∧
  (∀ bs : List Byte, parseHex (formatHex bs) = some bs) ∧
  ∀ cs : List Char,
    (cs.length % 2 = 1 ∨
      ∃ c ∈ cs, c ∉ ['0', '1', '2', '3', '4', '5', '6', '7', '8', '9', 'A', 'B', 'C', 'D', 'E', 'F']) →
    parseHex cs = none ∧ ∀ a, bbLoadHex a cs = none

/-! Frame fields and altitude. -/

/-- R311 to R314: the frame fields of the slot, and the type code is the top five bits of ME (R73). -/
def Obligations.FrameFieldsOfSlot : Prop :=
  ∀ (s : State) (b : Nat → Nat), (∀ n, b n = (s.bb.read n).toNat) →
    ∃ df icao me tc : Word64,
      exec .frDf s = .next { s with res := df, lastSt := .ok } ∧ df.toNat = b 0 / 8 ∧
      exec .frIcao s = .next { s with res := icao, lastSt := .ok } ∧ icao.toNat = 65536 * b 1 + 256 * b 2 + b 3 ∧
      exec .frMe s = .next { s with res := me, lastSt := .ok } ∧
      me.toNat = 256 ^ 6 * b 4 + 256 ^ 5 * b 5 + 256 ^ 4 * b 6 + 256 ^ 3 * b 7 + 256 ^ 2 * b 8 + 256 * b 9 + b 10 ∧
      exec .frTc s = .next { s with res := tc, lastSt := .ok } ∧ tc.toNat = b 4 / 8 ∧ tc.toNat = me.toNat / 2 ^ 51

/-- R315: FR_CHECK ends with OK exactly when the CRC of the 14 slot bytes is 0, else with NOMSG; it sets no flag. -/
def Obligations.FrCheckTestsCrc : Prop :=
  ∀ (s : State) (f : List Byte), f = (List.range 14).map (fun n => s.bb.read n) →
    (crc24 f = 0 → exec .frCheck s = .next { s with res := 0, lastSt := .ok }) ∧
    (crc24 f ≠ 0 → exec .frCheck s = .next { s with res := 0, lastSt := .noMsg })

/-- R331, R337: with IMM16[15:12] nonzero ALT_DEC ends with RESERVED_FIELD; with the Q bit set it returns the 25-ft code. -/
def Obligations.AltDecDirectCode : Prop :=
  ∀ (s : State) (imm : BitVec 16),
    (imm.toNat ≥ 4096 → exec (.altDec imm) s = .next { s with res := 0, lastSt := .reservedField }) ∧
    (imm.toNat < 4096 → imm.getLsbD 4 = true →
      ∃ v : Word64, exec (.altDec imm) s = .next { s with res := v, lastSt := .ok } ∧
        v.toInt = -1000 + 25 * ((imm.toNat / 32 * 16 + imm.toNat % 16 : Nat) : Int) ∧ -1000 ≤ v.toInt ∧ v.toInt ≤ 50175)

/-- R332 to R336: with the Q bit clear, the two interleaved groups are the Gray codes of one coarse and one fine value; an
invalid pair ends with NOMSG under either ALT_RULE, any other gives the altitude of the remapped, mirrored fine value. -/
def Obligations.AltDecGrayCode : Prop :=
  ∀ (s : State) (imm : BitVec 16) (f : Nat → Nat), imm.toNat < 4096 → imm.getLsbD 4 = false →
    (∀ k, f k = (imm.getLsbD k).toNat) →
    ∃ coarse fine : Nat, coarse < 256 ∧ fine < 8 ∧
      coarse ^^^ (coarse / 2) = 128 * f 2 + 64 * f 0 + 32 * f 10 + 16 * f 8 + 8 * f 6 + 4 * f 5 + 2 * f 3 + f 1 ∧
      fine ^^^ (fine / 2) = 4 * f 11 + 2 * f 9 + f 7 ∧
      ((fine = 0 ∨ fine = 5 ∨ (s.params.altRule = .doc ∧ coarse = 6) ∨ (s.params.altRule = .gillham ∧ fine = 6)) →
        exec (.altDec imm) s = .next { s with res := 0, lastSt := .noMsg }) ∧
      (¬ (fine = 0 ∨ fine = 5 ∨ (s.params.altRule = .doc ∧ coarse = 6) ∨ (s.params.altRule = .gillham ∧ fine = 6)) →
        ∃ v : Word64, exec (.altDec imm) s = .next { s with res := v, lastSt := .ok } ∧
          v.toInt = -1300 + 500 * (coarse : Int) + 100 *
            (if coarse % 2 = 1 then 6 - (if fine = 7 then 5 else (fine : Int)) else (if fine = 7 then 5 else (fine : Int))))

/-! The whole machine. -/

/-- R30, R33, R35, R38, R40, R42, R235, R316: every step keeps the invariant of reachable states, from every state that has
it: canonical stores, bounded slots and sums, WSIZE as TAP says, FATAL_CAUSE as FATAL says, and a frame with downlink format
17 and CRC 0 in the slot while FRAME_VALID is set. -/
def Obligations.InvariantKept : Prop :=
  ∀ s t : State, s.Inv → step s = .next t → t.Inv

/-- R391, R396: the reset state has the invariants and meets the launch premises, and so does the state every INIT leaves
that ends with OK, whatever the state before and the stream. -/
def Obligations.ResetHasInvariants : Prop :=
  State.reset.Inv ∧ State.reset.WindowInv ∧ State.reset.WindowHolds ∧ State.reset.Premises ∧
  ∀ (tap : Nat) (w : Int) (s t : State), exec (.init tap w) s = .next t → t.lastSt = .ok →
    t.WindowInv ∧ t.WindowHolds ∧ t.Premises

/-- R33, R357: no command but INIT clears FATAL, its cause, or EOF_SEEN; and FRAME_VALID goes from 0 to 1 in DM_NEXT alone. -/
def Obligations.FlagsClearedOnlyByInit : Prop :=
  ∀ (i : Instr) (s t : State), (∀ tap w, i ≠ .init tap w) → exec i s = .next t →
    (s.fatal = true → t.fatal = true ∧ t.fatalCause = s.fatalCause) ∧ (s.eofSeen = true → t.eofSeen = true) ∧
    (i ≠ .dmNext → t.frameValid = true → s.frameValid = true)

/-- R35, R391, R392: TAP and WSIZE are written by INIT and reset only, and no step writes the parameters. -/
def Obligations.OnlyInitSetsTapAndWindowSize : Prop :=
  (∀ (i : Instr) (s t : State), (∀ tap w, i ≠ .init tap w) → exec i s = .next t → t.tap = s.tap ∧ t.wsize = s.wsize) ∧
  ∀ s t : State, step s = .next t → t.params = s.params

/-- R145, R357: the pure commands run under every TAP and while FATAL is set; they write nothing of the chain, and, CSRR
apart, what they do depends on BB and the parameters alone. -/
def Obligations.PureCommandsLeaveChainAlone : Prop :=
  ∀ (i : Instr),
    i.op ∈ [.nop, .csrr, .crcBuf, .crcTab, .bfExt, .bfTst, .bbWr, .bsByte, .bsRange, .frDf, .frIcao, .frMe, .frTc, .frCheck,
      .altDec] →
    (∀ s, ∃ t, exec i s = .next t ∧
      t = { s with res := t.res, lastSt := t.lastSt, bb := t.bb, frameValid := t.frameValid }) ∧
    ∀ s s' t t', i.op ≠ .csrr → s.bb = s'.bb → s.params = s'.params → exec i s = .next t → exec i s' = .next t' →
      t.res = t'.res ∧ t.lastSt = t'.lastSt ∧ t.bb = t'.bb

/-- R81, R289, R290, R352: when the port goes on with end of stream or failure, every command of every state ends with a
status; when it goes on with endless bytes, every command but DM_NEXT does, and DM_NEXT ends or scans for ever. On an endless
stream, with the window full as R262 has it, a DM_NEXT that ends has delivered a frame, met a bad nibble, or found a frame
whose timestamp does not fit. That a scan without a frame never ends there, where R289 also lists OVERFLOW at
POS = 2^64 - 1, is the model's choice (log 11). -/
def Obligations.ClosedStreamNeverWaits : Prop :=
  (∀ (i : Instr) (s : State), s.port.rest = .ends ∨ s.port.rest = .fails →
    ∃ t, exec i s = .next t ∧ t.port.rest = s.port.rest) ∧
  (∀ (i : Instr) (s : State), s.port.rest = .live →
    (∃ t, exec i s = .next t ∧ t.port.rest = .live) ∨ (i = .dmNext ∧ exec i s = .fault .endlessScan)) ∧
  ∀ s t : State, s.Inv → s.WindowInv → s.tap = .frames → s.fatal = false → s.eofSeen = false → s.port.kind = .infinite →
    exec .dmNext s = .next t →
    t.lastSt = .ok ∨ t.lastSt = .sampleRange ∨
      (t.lastSt = .overflow ∧ hitHere t = true ∧ accepted t = true ∧ t.pos.toNat > 184467440737095516)

/-- R405: the most stream bytes each command consumes. -/
def Obligations.StreamBytesPerCommand : Prop :=
  (∀ (i : Instr) (s t : State), i.wf = true → i ≠ .dmNext → (∀ tap w, i ≠ .init tap w) → exec i s = .next t →
    (t.bytesIn - s.bytesIn).toNat ≤
      match i with
      | .sdNext => 2
      | .pcNext => 4
      | .pwAdv => 262144
      | .pwAdvn n => 262144 * ((s.pos.toNat % 65536 + n.toNat) / 65536)
      | _ => 0) ∧
  ∀ (tap : Nat) (w : Int) (s t : State), exec (.init tap w) s = .next t → t.lastSt ≠ .invalidArgument →
    t.bytesIn.toNat ≤ if tap ≤ 2 then 0 else 524288
end

