-- ==== Sys2Proof/Laws/Memory.lean ====
section
/-! SUPPORT. What the two stores do: read after write, the canonical forms kept, reading a list. -/

namespace Sys2Proof.Machine

open Sys2Proof.Config

/-! `BB`. -/

theorem Memory.wfFrom_mono {lo lo' : Nat} {m : Memory} (h : Memory.wfFrom lo m = true) (hle : lo' ≤ lo) :
    Memory.wfFrom lo' m = true := by
  cases m with
  | nil => rfl
  | cons c m =>
    simp only [Memory.wfFrom, Bool.and_eq_true, decide_eq_true_eq] at h ⊢
    exact ⟨⟨⟨by omega, h.1.1.2⟩, h.1.2⟩, h.2⟩

theorem Memory.read_below {m : Memory} {lo a : Nat} (h : Memory.wfFrom lo m = true) (ha : a < lo) :
    Memory.read m a = Memory.unlisted := by
  induction m generalizing lo with
  | nil => rfl
  | cons c m ih =>
    simp only [Memory.wfFrom, Bool.and_eq_true, decide_eq_true_eq] at h
    have hne : c.1 ≠ a := by omega
    simp only [Memory.read, if_neg hne]
    exact ih h.2 (by omega)

/-- A read of the index just put in front. -/
theorem Memory.read_cons_same {m : Memory} {a : Nat} {v : Byte} (h : Memory.read m a = Memory.unlisted) :
    Memory.read (Memory.cons a v m) a = v := by
  unfold Memory.cons
  split
  · next hv => rw [h, hv]
  · simp [Memory.read]

/-- Putting an index in front leaves every other index alone. -/
theorem Memory.read_cons_other {m : Memory} {a b : Nat} {v : Byte} (hab : b ≠ a) :
    Memory.read (Memory.cons a v m) b = Memory.read m b := by
  unfold Memory.cons
  split
  · rfl
  · simp [Memory.read, Ne.symm hab]

theorem Memory.wfFrom_cons {m : Memory} {lo a : Nat} {v : Byte} (hm : Memory.wfFrom (a + 1) m = true) (hlo : lo ≤ a)
    (ha : a < bbSize) : Memory.wfFrom lo (Memory.cons a v m) = true := by
  unfold Memory.cons
  split
  · exact Memory.wfFrom_mono hm (by omega)
  · next hv => simp [Memory.wfFrom, hlo, ha, hv, hm]

/-- A write keeps the canonical form (and cannot leave the buffer). -/
theorem Memory.wfFrom_write {m : Memory} {lo a : Nat} (v : Byte) (h : Memory.wfFrom lo m = true) (hlo : lo ≤ a)
    (ha : a < bbSize) : Memory.wfFrom lo (Memory.write m a v) = true := by
  induction m generalizing lo with
  | nil => exact Memory.wfFrom_cons rfl hlo ha
  | cons c m ih =>
    obtain ⟨k, w⟩ := c
    have h' := h
    simp only [Memory.wfFrom, Bool.and_eq_true, decide_eq_true_eq] at h
    simp only [Memory.write]
    split
    · next hlt => exact Memory.wfFrom_cons (by simp [Memory.wfFrom, h.1.1.2, h.1.2, h.2]; omega) hlo ha
    · split
      · next heq => subst heq; exact Memory.wfFrom_cons h.2 hlo ha
      · next hlt hne =>
        simp only [Memory.wfFrom, Bool.and_eq_true, decide_eq_true_eq]
        exact ⟨h.1, ih h.2 (by omega)⟩

theorem Memory.wf_write {m : Memory} {a : Nat} (v : Byte) (h : m.wf = true) (ha : a < bbSize) :
    (Memory.write m a v).wf = true := Memory.wfFrom_write v h (Nat.zero_le a) ha

theorem Memory.read_write_same_from {m : Memory} {lo a : Nat} (v : Byte) (h : Memory.wfFrom lo m = true) :
    Memory.read (Memory.write m a v) a = v := by
  induction m generalizing lo with
  | nil => exact Memory.read_cons_same rfl
  | cons c m ih =>
    obtain ⟨k, w⟩ := c
    have h' := h
    simp only [Memory.wfFrom, Bool.and_eq_true, decide_eq_true_eq] at h
    simp only [Memory.write]
    split
    · next hlt =>
      refine Memory.read_cons_same ?_
      simp only [Memory.read, if_neg (by omega : k ≠ a)]
      exact Memory.read_below h.2 (by omega)
    · split
      · next heq => subst heq; exact Memory.read_cons_same (Memory.read_below h.2 (by omega))
      · next hlt hne => simp only [Memory.read, if_neg (Ne.symm hne)]; exact ih h.2

/-- Read after write, the same index. -/
theorem Memory.read_write_same {m : Memory} (a : Nat) (v : Byte) (h : m.wf = true) :
    Memory.read (Memory.write m a v) a = v := Memory.read_write_same_from v h

/-- Read after write, another index. -/
theorem Memory.read_write_other (m : Memory) {a b : Nat} (v : Byte) (hab : b ≠ a) :
    Memory.read (Memory.write m a v) b = Memory.read m b := by
  induction m with
  | nil => exact Memory.read_cons_other hab
  | cons c m ih =>
    obtain ⟨k, w⟩ := c
    simp only [Memory.write]
    split
    · exact Memory.read_cons_other hab
    · split
      · next heq =>
        subst heq
        rw [Memory.read_cons_other hab]
        simp [Memory.read, Ne.symm hab]
      · simp only [Memory.read]; split
        · rfl
        · exact ih

/-- Writing a list keeps the canonical form. -/
theorem Memory.wf_writeList {m : Memory} {a : Nat} {bs : List Byte} (h : m.wf = true) (ha : a + bs.length ≤ bbSize) :
    (Memory.writeList m a bs).wf = true := by
  induction bs generalizing m a with
  | nil => exact h
  | cons b bs ih =>
    simp only [List.length_cons] at ha
    exact ih (Memory.wf_write b h (by omega)) (by omega)

/-- Writing a list leaves every index outside it alone. -/
theorem Memory.read_writeList_outside (m : Memory) {a k : Nat} (bs : List Byte) (hk : k < a ∨ a + bs.length ≤ k) :
    Memory.read (Memory.writeList m a bs) k = Memory.read m k := by
  induction bs generalizing m a with
  | nil => rfl
  | cons b bs ih =>
    simp only [List.length_cons] at hk
    show Memory.read (Memory.writeList (Memory.write m a b) (a + 1) bs) k = _
    rw [ih (m := Memory.write m a b) (a := a + 1) (by omega), Memory.read_write_other m b (by omega)]

/-- Writing a list puts its bytes at the indices from `a` up. -/
theorem Memory.read_writeList_inside {m : Memory} {a k : Nat} {bs : List Byte} (h : m.wf = true)
    (ha : a + bs.length ≤ bbSize) (hk : k < bs.length) :
    Memory.read (Memory.writeList m a bs) (a + k) = bs[k] := by
  induction bs generalizing m a k with
  | nil => simp at hk
  | cons b bs ih =>
    simp only [List.length_cons] at ha hk
    show Memory.read (Memory.writeList (Memory.write m a b) (a + 1) bs) (a + k) = _
    cases k with
    | zero =>
      rw [Memory.read_writeList_outside _ bs (by omega), Nat.add_zero, Memory.read_write_same a b h]
      rfl
    | succ k =>
      have := ih (m := Memory.write m a b) (a := a + 1) (k := k) (Memory.wf_write b h (by omega)) (by omega) (by omega)
      rw [show a + (k + 1) = a + 1 + k by omega, this]
      rfl

@[simp] theorem Memory.length_readList (m : Memory) (a n : Nat) : (Memory.readList m a n).length = n := by
  induction n generalizing a with
  | zero => rfl
  | succ n ih => simp [Memory.readList, ih]

/-- The list read holds the bytes of the range in order. -/
theorem Memory.getElem_readList (m : Memory) (a n j : Nat) (hj : j < (Memory.readList m a n).length) :
    (Memory.readList m a n)[j] = Memory.read m (a + j) := by
  induction n generalizing a j with
  | zero => simp [Memory.readList] at hj
  | succ n ih =>
    cases j with
    | zero => rfl
    | succ j =>
      have := ih (a + 1) j (by simpa [Memory.readList] using hj)
      simpa [Memory.readList, show a + 1 + j = a + (j + 1) by omega] using this

/-- Reading back a list just written gives the list (R71). -/
theorem Memory.readList_writeList {m : Memory} {a : Nat} {bs : List Byte} (h : m.wf = true)
    (ha : a + bs.length ≤ bbSize) : Memory.readList (Memory.writeList m a bs) a bs.length = bs := by
  apply List.ext_getElem (by simp)
  intro j h1 h2
  rw [Memory.getElem_readList, Memory.read_writeList_inside h ha h2]

/-- The reset contents of both stores are in canonical form (R391). -/
theorem reset_stores_canonical :
    State.reset.bb.wf = true ∧ State.reset.buf0.canon = true ∧ State.reset.buf1.canon = true := by decide

/-! `BUF[s]`. -/

@[simp] theorem PowerBuf.get_zeros (i : Nat) : PowerBuf.zeros.get i = 0 := rfl

theorem PowerBuf.get_join (e o : PowerBuf) (i : Nat) :
    (PowerBuf.join e o).get i = if i % 2 = 0 then e.get (i / 2) else o.get (i / 2) := by
  unfold PowerBuf.join
  split
  · simp
  · rfl

theorem PowerBuf.get_halves {d : Nat} {b : PowerBuf} (h : PowerBuf.canonAt (d + 1) b = true) (i : Nat) :
    b.get i = if i % 2 = 0 then b.halves.1.get (i / 2) else b.halves.2.get (i / 2) := by
  cases b with
  | zeros => simp [PowerBuf.halves]
  | slot p => simp [PowerBuf.canonAt] at h
  | node e o => rfl

theorem PowerBuf.canon_halves {d : Nat} {b : PowerBuf} (h : PowerBuf.canonAt (d + 1) b = true) :
    PowerBuf.canonAt d b.halves.1 = true ∧ PowerBuf.canonAt d b.halves.2 = true := by
  cases b with
  | zeros => cases d <;> simp [PowerBuf.halves, PowerBuf.canonAt]
  | slot p => simp [PowerBuf.canonAt] at h
  | node e o => simp only [PowerBuf.canonAt, Bool.and_eq_true] at h; exact h.1

theorem PowerBuf.canon_join {d : Nat} {e o : PowerBuf} (he : PowerBuf.canonAt d e = true)
    (ho : PowerBuf.canonAt d o = true) : PowerBuf.canonAt (d + 1) (PowerBuf.join e o) = true := by
  unfold PowerBuf.join
  split
  · rfl
  · next hne =>
    simp only [PowerBuf.canonAt, Bool.and_eq_true, Bool.or_eq_true]
    refine ⟨⟨he, ho⟩, ?_⟩
    cases e <;> cases o <;> simp_all [PowerBuf.nonzero]

/-- A slot write keeps the canonical form, at every depth. -/
theorem PowerBuf.canonAt_setAt {d : Nat} {b : PowerBuf} (i : Nat) (p : Power) (h : PowerBuf.canonAt d b = true) :
    PowerBuf.canonAt d (PowerBuf.setAt d b i p) = true := by
  induction d generalizing b i with
  | zero =>
    unfold PowerBuf.setAt
    split
    · rfl
    · next hp => simpa [PowerBuf.canonAt] using hp
  | succ d ih =>
    have hh := PowerBuf.canon_halves h
    simp only [PowerBuf.setAt]
    split
    · exact PowerBuf.canon_join (ih (i / 2) hh.1) hh.2
    · exact PowerBuf.canon_join hh.1 (ih (i / 2) hh.2)

/-- A slot write keeps the canonical form. -/
theorem PowerBuf.canon_set {b : PowerBuf} (i : Nat) (p : Power) (h : b.canon = true) : (b.set i p).canon = true :=
  PowerBuf.canonAt_setAt i p h

theorem PowerBuf.get_setAt_same {d : Nat} {b : PowerBuf} (i : Nat) (p : Power) : (PowerBuf.setAt d b i p).get i = p := by
  induction d generalizing b i with
  | zero =>
    unfold PowerBuf.setAt
    split
    · next hp => simp [hp]
    · rfl
  | succ d ih =>
    simp only [PowerBuf.setAt]
    split
    · next hi => rw [PowerBuf.get_join, if_pos hi]; exact ih (i / 2)
    · next hi => rw [PowerBuf.get_join, if_neg hi]; exact ih (i / 2)

/-- Read after write, the same slot. -/
theorem PowerBuf.get_set_same (b : PowerBuf) (i : Nat) (p : Power) : (b.set i p).get i = p :=
  PowerBuf.get_setAt_same i p

theorem PowerBuf.get_setAt_other {d : Nat} {b : PowerBuf} {i j : Nat} (p : Power) (h : PowerBuf.canonAt d b = true)
    (hi : i < 2 ^ d) (hj : j < 2 ^ d) (hij : j ≠ i) : (PowerBuf.setAt d b i p).get j = b.get j := by
  induction d generalizing b i j with
  | zero => omega
  | succ d ih =>
    have hh := PowerBuf.canon_halves h
    rw [Nat.pow_succ] at hi hj
    rw [PowerBuf.get_halves h j]
    simp only [PowerBuf.setAt]
    split
    · next hi0 =>
      rw [PowerBuf.get_join]
      split
      · exact ih hh.1 (by omega) (by omega) (by omega)
      · rfl
    · next hi0 =>
      rw [PowerBuf.get_join]
      split
      · rfl
      · exact ih hh.2 (by omega) (by omega) (by omega)

/-- Read after write, another slot of the 65536. -/
theorem PowerBuf.get_set_other {b : PowerBuf} {i j : Nat} (p : Power) (h : b.canon = true) (hi : i < pwBatch)
    (hj : j < pwBatch) (hij : j ≠ i) : (b.set i p).get j = b.get j :=
  PowerBuf.get_setAt_other p h hi hj hij

/-- Two canonical buffers with the same slots are the same data. -/
theorem PowerBuf.ext_canonAt {d : Nat} {b c : PowerBuf} (hb : PowerBuf.canonAt d b = true)
    (hc : PowerBuf.canonAt d c = true) (h : ∀ i, i < 2 ^ d → b.get i = c.get i) : b = c := by
  have nonzero_get : ∀ {d : Nat} {b : PowerBuf}, PowerBuf.canonAt d b = true → b.nonzero = true →
      ∃ i, i < 2 ^ d ∧ b.get i ≠ 0 := by
    intro d
    induction d with
    | zero =>
      intro b hb hn
      cases b with
      | zeros => simp [PowerBuf.nonzero] at hn
      | slot p => exact ⟨0, by simp, by simpa [PowerBuf.canonAt, PowerBuf.get] using hb⟩
      | node e o => simp [PowerBuf.canonAt] at hb
    | succ d ih =>
      intro b hb hn
      cases b with
      | zeros => simp [PowerBuf.nonzero] at hn
      | slot p => simp [PowerBuf.canonAt] at hb
      | node e o =>
        simp only [PowerBuf.canonAt, Bool.and_eq_true, Bool.or_eq_true] at hb
        rcases hb.2 with he | ho
        · obtain ⟨i, hi, hg⟩ := ih hb.1.1 he
          exact ⟨2 * i, by rw [Nat.pow_succ]; omega, by simpa [PowerBuf.get] using hg⟩
        · obtain ⟨i, hi, hg⟩ := ih hb.1.2 ho
          exact ⟨2 * i + 1, by rw [Nat.pow_succ]; omega, by
            simpa [PowerBuf.get, show (2 * i + 1) % 2 = 1 by omega, show (2 * i + 1) / 2 = i by omega] using hg⟩
  induction d generalizing b c with
  | zero =>
    cases b <;> cases c <;> simp_all [PowerBuf.canonAt, PowerBuf.get]
  | succ d ih =>
    have key : ∀ {b c : PowerBuf}, PowerBuf.canonAt (d + 1) b = true → PowerBuf.canonAt (d + 1) c = true →
        (∀ i, i < 2 ^ (d + 1) → b.get i = c.get i) → b = .zeros → c = .zeros := by
      intro b c _ hc h hz
      by_contra hne
      have hn : c.nonzero = true := by cases c <;> simp_all [PowerBuf.nonzero]
      obtain ⟨i, hi, hg⟩ := nonzero_get hc hn
      exact hg (by rw [← h i hi, hz]; rfl)
    cases b with
    | zeros => exact (key hb hc h rfl).symm
    | slot p => simp [PowerBuf.canonAt] at hb
    | node e o =>
      cases c with
      | zeros => exact key hc hb (fun i hi => (h i hi).symm) rfl
      | slot p => simp [PowerBuf.canonAt] at hc
      | node e' o' =>
        have hb' := PowerBuf.canon_halves hb
        have hc' := PowerBuf.canon_halves hc
        have hE : e = e' := ih hb'.1 hc'.1 fun i hi => by
          have := h (2 * i) (by rw [Nat.pow_succ]; omega)
          simpa [PowerBuf.get] using this
        have hO : o = o' := ih hb'.2 hc'.2 fun i hi => by
          have := h (2 * i + 1) (by rw [Nat.pow_succ]; omega)
          simpa [PowerBuf.get, show (2 * i + 1) % 2 = 1 by omega, show (2 * i + 1) / 2 = i by omega] using this
        rw [hE, hO]

end Sys2Proof.Machine
end

