-- ==== Sys2Proof/Laws/State.lean ====
section
/-! SUPPORT. Each field of the state after each named update, so that no later proof unfolds a record update. -/

namespace Sys2Proof.Machine

@[simp] theorem State.finish_res (s : State) (st : Status) (v : Word64) : (s.finish st v).res = if st = .ok then v else 0 := rfl
@[simp] theorem State.finish_lastSt (s : State) (st : Status) (v : Word64) : (s.finish st v).lastSt = st := rfl
@[simp] theorem State.finish_fatal (s : State) (st : Status) (v : Word64) : (s.finish st v).fatal = s.fatal := rfl
@[simp] theorem State.finish_fatalCause (s : State) (st : Status) (v : Word64) : (s.finish st v).fatalCause = s.fatalCause := rfl
@[simp] theorem State.finish_eofSeen (s : State) (st : Status) (v : Word64) : (s.finish st v).eofSeen = s.eofSeen := rfl
@[simp] theorem State.finish_frameValid (s : State) (st : Status) (v : Word64) : (s.finish st v).frameValid = s.frameValid := rfl
@[simp] theorem State.finish_tap (s : State) (st : Status) (v : Word64) : (s.finish st v).tap = s.tap := rfl
@[simp] theorem State.finish_wsize (s : State) (st : Status) (v : Word64) : (s.finish st v).wsize = s.wsize := rfl
@[simp] theorem State.finish_bytesIn (s : State) (st : Status) (v : Word64) : (s.finish st v).bytesIn = s.bytesIn := rfl
@[simp] theorem State.finish_hist (s : State) (st : Status) (v : Word64) : (s.finish st v).hist = s.hist := rfl
@[simp] theorem State.finish_buf0 (s : State) (st : Status) (v : Word64) : (s.finish st v).buf0 = s.buf0 := rfl
@[simp] theorem State.finish_buf1 (s : State) (st : Status) (v : Word64) : (s.finish st v).buf1 = s.buf1 := rfl
@[simp] theorem State.finish_sel (s : State) (st : Status) (v : Word64) : (s.finish st v).sel = s.sel := rfl
@[simp] theorem State.finish_cnt0 (s : State) (st : Status) (v : Word64) : (s.finish st v).cnt0 = s.cnt0 := rfl
@[simp] theorem State.finish_cnt1 (s : State) (st : Status) (v : Word64) : (s.finish st v).cnt1 = s.cnt1 := rfl
@[simp] theorem State.finish_le (s : State) (st : Status) (v : Word64) : (s.finish st v).le = s.le := rfl
@[simp] theorem State.finish_pos (s : State) (st : Status) (v : Word64) : (s.finish st v).pos = s.pos := rfl
@[simp] theorem State.finish_prevSum (s : State) (st : Status) (v : Word64) : (s.finish st v).prevSum = s.prevSum := rfl
@[simp] theorem State.finish_curSum (s : State) (st : Status) (v : Word64) : (s.finish st v).curSum = s.curSum := rfl
@[simp] theorem State.finish_curValid (s : State) (st : Status) (v : Word64) : (s.finish st v).curValid = s.curValid := rfl
@[simp] theorem State.finish_fts (s : State) (st : Status) (v : Word64) : (s.finish st v).fts = s.fts := rfl
@[simp] theorem State.finish_bb (s : State) (st : Status) (v : Word64) : (s.finish st v).bb = s.bb := rfl
@[simp] theorem State.finish_params (s : State) (st : Status) (v : Word64) : (s.finish st v).params = s.params := rfl
@[simp] theorem State.finish_port (s : State) (st : Status) (v : Word64) : (s.finish st v).port = s.port := rfl
@[simp] theorem State.finish_queue (s : State) (st : Status) (v : Word64) : (s.finish st v).queue = s.queue := rfl

@[simp] theorem countByte_res (s : State) : (countByte s).res = s.res := rfl
@[simp] theorem countByte_lastSt (s : State) : (countByte s).lastSt = s.lastSt := rfl
@[simp] theorem countByte_fatal (s : State) : (countByte s).fatal = s.fatal := rfl
@[simp] theorem countByte_fatalCause (s : State) : (countByte s).fatalCause = s.fatalCause := rfl
@[simp] theorem countByte_eofSeen (s : State) : (countByte s).eofSeen = s.eofSeen := rfl
@[simp] theorem countByte_frameValid (s : State) : (countByte s).frameValid = s.frameValid := rfl
@[simp] theorem countByte_tap (s : State) : (countByte s).tap = s.tap := rfl
@[simp] theorem countByte_wsize (s : State) : (countByte s).wsize = s.wsize := rfl
@[simp] theorem countByte_bytesIn (s : State) : (countByte s).bytesIn = s.bytesIn + 1 := rfl
@[simp] theorem countByte_hist (s : State) : (countByte s).hist = s.hist := rfl
@[simp] theorem countByte_buf0 (s : State) : (countByte s).buf0 = s.buf0 := rfl
@[simp] theorem countByte_buf1 (s : State) : (countByte s).buf1 = s.buf1 := rfl
@[simp] theorem countByte_sel (s : State) : (countByte s).sel = s.sel := rfl
@[simp] theorem countByte_cnt0 (s : State) : (countByte s).cnt0 = s.cnt0 := rfl
@[simp] theorem countByte_cnt1 (s : State) : (countByte s).cnt1 = s.cnt1 := rfl
@[simp] theorem countByte_le (s : State) : (countByte s).le = s.le := rfl
@[simp] theorem countByte_pos (s : State) : (countByte s).pos = s.pos := rfl
@[simp] theorem countByte_prevSum (s : State) : (countByte s).prevSum = s.prevSum := rfl
@[simp] theorem countByte_curSum (s : State) : (countByte s).curSum = s.curSum := rfl
@[simp] theorem countByte_curValid (s : State) : (countByte s).curValid = s.curValid := rfl
@[simp] theorem countByte_fts (s : State) : (countByte s).fts = s.fts := rfl
@[simp] theorem countByte_bb (s : State) : (countByte s).bb = s.bb := rfl
@[simp] theorem countByte_params (s : State) : (countByte s).params = s.params := rfl
@[simp] theorem countByte_port (s : State) : (countByte s).port = s.port := rfl
@[simp] theorem countByte_queue (s : State) : (countByte s).queue = s.queue := rfl

@[simp] theorem memWrite_res (s : State) (a : Nat) (bs : List Byte) : (memWrite s a bs).res = s.res := rfl
@[simp] theorem memWrite_lastSt (s : State) (a : Nat) (bs : List Byte) : (memWrite s a bs).lastSt = s.lastSt := rfl
@[simp] theorem memWrite_fatal (s : State) (a : Nat) (bs : List Byte) : (memWrite s a bs).fatal = s.fatal := rfl
@[simp] theorem memWrite_fatalCause (s : State) (a : Nat) (bs : List Byte) : (memWrite s a bs).fatalCause = s.fatalCause := rfl
@[simp] theorem memWrite_eofSeen (s : State) (a : Nat) (bs : List Byte) : (memWrite s a bs).eofSeen = s.eofSeen := rfl
@[simp] theorem memWrite_frameValid (s : State) (a : Nat) (bs : List Byte) : (memWrite s a bs).frameValid = s.frameValid := rfl
@[simp] theorem memWrite_tap (s : State) (a : Nat) (bs : List Byte) : (memWrite s a bs).tap = s.tap := rfl
@[simp] theorem memWrite_wsize (s : State) (a : Nat) (bs : List Byte) : (memWrite s a bs).wsize = s.wsize := rfl
@[simp] theorem memWrite_bytesIn (s : State) (a : Nat) (bs : List Byte) : (memWrite s a bs).bytesIn = s.bytesIn := rfl
@[simp] theorem memWrite_hist (s : State) (a : Nat) (bs : List Byte) : (memWrite s a bs).hist = s.hist := rfl
@[simp] theorem memWrite_buf0 (s : State) (a : Nat) (bs : List Byte) : (memWrite s a bs).buf0 = s.buf0 := rfl
@[simp] theorem memWrite_buf1 (s : State) (a : Nat) (bs : List Byte) : (memWrite s a bs).buf1 = s.buf1 := rfl
@[simp] theorem memWrite_sel (s : State) (a : Nat) (bs : List Byte) : (memWrite s a bs).sel = s.sel := rfl
@[simp] theorem memWrite_cnt0 (s : State) (a : Nat) (bs : List Byte) : (memWrite s a bs).cnt0 = s.cnt0 := rfl
@[simp] theorem memWrite_cnt1 (s : State) (a : Nat) (bs : List Byte) : (memWrite s a bs).cnt1 = s.cnt1 := rfl
@[simp] theorem memWrite_le (s : State) (a : Nat) (bs : List Byte) : (memWrite s a bs).le = s.le := rfl
@[simp] theorem memWrite_pos (s : State) (a : Nat) (bs : List Byte) : (memWrite s a bs).pos = s.pos := rfl
@[simp] theorem memWrite_prevSum (s : State) (a : Nat) (bs : List Byte) : (memWrite s a bs).prevSum = s.prevSum := rfl
@[simp] theorem memWrite_curSum (s : State) (a : Nat) (bs : List Byte) : (memWrite s a bs).curSum = s.curSum := rfl
@[simp] theorem memWrite_curValid (s : State) (a : Nat) (bs : List Byte) : (memWrite s a bs).curValid = s.curValid := rfl
@[simp] theorem memWrite_fts (s : State) (a : Nat) (bs : List Byte) : (memWrite s a bs).fts = s.fts := rfl
@[simp] theorem memWrite_bb (s : State) (a : Nat) (bs : List Byte) : (memWrite s a bs).bb = Memory.writeList s.bb a bs := rfl
@[simp] theorem memWrite_params (s : State) (a : Nat) (bs : List Byte) : (memWrite s a bs).params = s.params := rfl
@[simp] theorem memWrite_port (s : State) (a : Nat) (bs : List Byte) : (memWrite s a bs).port = s.port := rfl
@[simp] theorem memWrite_queue (s : State) (a : Nat) (bs : List Byte) : (memWrite s a bs).queue = s.queue := rfl

@[simp] theorem insertPair_res (r0 r1 : Sample) (s : State) : (insertPair r0 r1 s).res = s.res := rfl
@[simp] theorem insertPair_lastSt (r0 r1 : Sample) (s : State) : (insertPair r0 r1 s).lastSt = s.lastSt := rfl
@[simp] theorem insertPair_fatal (r0 r1 : Sample) (s : State) : (insertPair r0 r1 s).fatal = s.fatal := rfl
@[simp] theorem insertPair_fatalCause (r0 r1 : Sample) (s : State) : (insertPair r0 r1 s).fatalCause = s.fatalCause := rfl
@[simp] theorem insertPair_eofSeen (r0 r1 : Sample) (s : State) : (insertPair r0 r1 s).eofSeen = s.eofSeen := rfl
@[simp] theorem insertPair_frameValid (r0 r1 : Sample) (s : State) : (insertPair r0 r1 s).frameValid = s.frameValid := rfl
@[simp] theorem insertPair_tap (r0 r1 : Sample) (s : State) : (insertPair r0 r1 s).tap = s.tap := rfl
@[simp] theorem insertPair_wsize (r0 r1 : Sample) (s : State) : (insertPair r0 r1 s).wsize = s.wsize := rfl
@[simp] theorem insertPair_bytesIn (r0 r1 : Sample) (s : State) : (insertPair r0 r1 s).bytesIn = s.bytesIn := rfl
@[simp] theorem insertPair_hist (r0 r1 : Sample) (s : State) : (insertPair r0 r1 s).hist = shiftIn s.hist r0 r1 := rfl
@[simp] theorem insertPair_buf0 (r0 r1 : Sample) (s : State) : (insertPair r0 r1 s).buf0 = s.buf0 := rfl
@[simp] theorem insertPair_buf1 (r0 r1 : Sample) (s : State) : (insertPair r0 r1 s).buf1 = s.buf1 := rfl
@[simp] theorem insertPair_sel (r0 r1 : Sample) (s : State) : (insertPair r0 r1 s).sel = s.sel := rfl
@[simp] theorem insertPair_cnt0 (r0 r1 : Sample) (s : State) : (insertPair r0 r1 s).cnt0 = s.cnt0 := rfl
@[simp] theorem insertPair_cnt1 (r0 r1 : Sample) (s : State) : (insertPair r0 r1 s).cnt1 = s.cnt1 := rfl
@[simp] theorem insertPair_le (r0 r1 : Sample) (s : State) : (insertPair r0 r1 s).le = s.le := rfl
@[simp] theorem insertPair_pos (r0 r1 : Sample) (s : State) : (insertPair r0 r1 s).pos = s.pos := rfl
@[simp] theorem insertPair_prevSum (r0 r1 : Sample) (s : State) : (insertPair r0 r1 s).prevSum = s.prevSum := rfl
@[simp] theorem insertPair_curSum (r0 r1 : Sample) (s : State) : (insertPair r0 r1 s).curSum = s.curSum := rfl
@[simp] theorem insertPair_curValid (r0 r1 : Sample) (s : State) : (insertPair r0 r1 s).curValid = s.curValid := rfl
@[simp] theorem insertPair_fts (r0 r1 : Sample) (s : State) : (insertPair r0 r1 s).fts = s.fts := rfl
@[simp] theorem insertPair_bb (r0 r1 : Sample) (s : State) : (insertPair r0 r1 s).bb = s.bb := rfl
@[simp] theorem insertPair_params (r0 r1 : Sample) (s : State) : (insertPair r0 r1 s).params = s.params := rfl
@[simp] theorem insertPair_port (r0 r1 : Sample) (s : State) : (insertPair r0 r1 s).port = s.port := rfl
@[simp] theorem insertPair_queue (r0 r1 : Sample) (s : State) : (insertPair r0 r1 s).queue = s.queue := rfl

@[simp] theorem startFill_res (b : Bool) (s : State) : (startFill b s).res = s.res := by cases b <;> rfl
@[simp] theorem startFill_lastSt (b : Bool) (s : State) : (startFill b s).lastSt = s.lastSt := by cases b <;> rfl
@[simp] theorem startFill_fatal (b : Bool) (s : State) : (startFill b s).fatal = s.fatal := by cases b <;> rfl
@[simp] theorem startFill_fatalCause (b : Bool) (s : State) : (startFill b s).fatalCause = s.fatalCause := by cases b <;> rfl
@[simp] theorem startFill_eofSeen (b : Bool) (s : State) : (startFill b s).eofSeen = s.eofSeen := by cases b <;> rfl
@[simp] theorem startFill_frameValid (b : Bool) (s : State) : (startFill b s).frameValid = s.frameValid := by cases b <;> rfl
@[simp] theorem startFill_tap (b : Bool) (s : State) : (startFill b s).tap = s.tap := by cases b <;> rfl
@[simp] theorem startFill_wsize (b : Bool) (s : State) : (startFill b s).wsize = s.wsize := by cases b <;> rfl
@[simp] theorem startFill_bytesIn (b : Bool) (s : State) : (startFill b s).bytesIn = s.bytesIn := by cases b <;> rfl
@[simp] theorem startFill_hist (b : Bool) (s : State) : (startFill b s).hist = s.hist := by cases b <;> rfl
@[simp] theorem startFill_buf0 (b : Bool) (s : State) : (startFill b s).buf0 = s.buf0 := by cases b <;> rfl
@[simp] theorem startFill_buf1 (b : Bool) (s : State) : (startFill b s).buf1 = s.buf1 := by cases b <;> rfl
@[simp] theorem startFill_sel (b : Bool) (s : State) : (startFill b s).sel = s.sel := by cases b <;> rfl
@[simp] theorem startFill_cnt0 (b : Bool) (s : State) : (startFill b s).cnt0 = if b then s.cnt0 else 0 := by cases b <;> rfl
@[simp] theorem startFill_cnt1 (b : Bool) (s : State) : (startFill b s).cnt1 = if b then 0 else s.cnt1 := by cases b <;> rfl
@[simp] theorem startFill_le (b : Bool) (s : State) : (startFill b s).le = s.le := by cases b <;> rfl
@[simp] theorem startFill_pos (b : Bool) (s : State) : (startFill b s).pos = s.pos := by cases b <;> rfl
@[simp] theorem startFill_prevSum (b : Bool) (s : State) : (startFill b s).prevSum = s.prevSum := by cases b <;> rfl
@[simp] theorem startFill_curSum (b : Bool) (s : State) : (startFill b s).curSum = s.curSum := by cases b <;> rfl
@[simp] theorem startFill_curValid (b : Bool) (s : State) : (startFill b s).curValid = s.curValid := by cases b <;> rfl
@[simp] theorem startFill_fts (b : Bool) (s : State) : (startFill b s).fts = s.fts := by cases b <;> rfl
@[simp] theorem startFill_bb (b : Bool) (s : State) : (startFill b s).bb = s.bb := by cases b <;> rfl
@[simp] theorem startFill_params (b : Bool) (s : State) : (startFill b s).params = s.params := by cases b <;> rfl
@[simp] theorem startFill_port (b : Bool) (s : State) : (startFill b s).port = s.port := by cases b <;> rfl
@[simp] theorem startFill_queue (b : Bool) (s : State) : (startFill b s).queue = s.queue := by cases b <;> rfl

@[simp] theorem storeSlot_res (b : Bool) (p : Power) (s : State) : (storeSlot b p s).res = s.res := by cases b <;> rfl
@[simp] theorem storeSlot_lastSt (b : Bool) (p : Power) (s : State) : (storeSlot b p s).lastSt = s.lastSt := by cases b <;> rfl
@[simp] theorem storeSlot_fatal (b : Bool) (p : Power) (s : State) : (storeSlot b p s).fatal = s.fatal := by cases b <;> rfl
@[simp] theorem storeSlot_fatalCause (b : Bool) (p : Power) (s : State) : (storeSlot b p s).fatalCause = s.fatalCause := by cases b <;> rfl
@[simp] theorem storeSlot_eofSeen (b : Bool) (p : Power) (s : State) : (storeSlot b p s).eofSeen = s.eofSeen := by cases b <;> rfl
@[simp] theorem storeSlot_frameValid (b : Bool) (p : Power) (s : State) : (storeSlot b p s).frameValid = s.frameValid := by cases b <;> rfl
@[simp] theorem storeSlot_tap (b : Bool) (p : Power) (s : State) : (storeSlot b p s).tap = s.tap := by cases b <;> rfl
@[simp] theorem storeSlot_wsize (b : Bool) (p : Power) (s : State) : (storeSlot b p s).wsize = s.wsize := by cases b <;> rfl
@[simp] theorem storeSlot_bytesIn (b : Bool) (p : Power) (s : State) : (storeSlot b p s).bytesIn = s.bytesIn := by cases b <;> rfl
@[simp] theorem storeSlot_hist (b : Bool) (p : Power) (s : State) : (storeSlot b p s).hist = s.hist := by cases b <;> rfl
@[simp] theorem storeSlot_buf0 (b : Bool) (p : Power) (s : State) : (storeSlot b p s).buf0 = if b then s.buf0 else s.buf0.set s.cnt0.toNat p := by cases b <;> rfl
@[simp] theorem storeSlot_buf1 (b : Bool) (p : Power) (s : State) : (storeSlot b p s).buf1 = if b then s.buf1.set s.cnt1.toNat p else s.buf1 := by cases b <;> rfl
@[simp] theorem storeSlot_sel (b : Bool) (p : Power) (s : State) : (storeSlot b p s).sel = s.sel := by cases b <;> rfl
@[simp] theorem storeSlot_cnt0 (b : Bool) (p : Power) (s : State) : (storeSlot b p s).cnt0 = if b then s.cnt0 else s.cnt0 + 1 := by cases b <;> rfl
@[simp] theorem storeSlot_cnt1 (b : Bool) (p : Power) (s : State) : (storeSlot b p s).cnt1 = if b then s.cnt1 + 1 else s.cnt1 := by cases b <;> rfl
@[simp] theorem storeSlot_le (b : Bool) (p : Power) (s : State) : (storeSlot b p s).le = leNext s := by cases b <;> rfl
@[simp] theorem storeSlot_pos (b : Bool) (p : Power) (s : State) : (storeSlot b p s).pos = s.pos := by cases b <;> rfl
@[simp] theorem storeSlot_prevSum (b : Bool) (p : Power) (s : State) : (storeSlot b p s).prevSum = s.prevSum := by cases b <;> rfl
@[simp] theorem storeSlot_curSum (b : Bool) (p : Power) (s : State) : (storeSlot b p s).curSum = s.curSum := by cases b <;> rfl
@[simp] theorem storeSlot_curValid (b : Bool) (p : Power) (s : State) : (storeSlot b p s).curValid = s.curValid := by cases b <;> rfl
@[simp] theorem storeSlot_fts (b : Bool) (p : Power) (s : State) : (storeSlot b p s).fts = s.fts := by cases b <;> rfl
@[simp] theorem storeSlot_bb (b : Bool) (p : Power) (s : State) : (storeSlot b p s).bb = s.bb := by cases b <;> rfl
@[simp] theorem storeSlot_params (b : Bool) (p : Power) (s : State) : (storeSlot b p s).params = s.params := by cases b <;> rfl
@[simp] theorem storeSlot_port (b : Bool) (p : Power) (s : State) : (storeSlot b p s).port = s.port := by cases b <;> rfl
@[simp] theorem storeSlot_queue (b : Bool) (p : Power) (s : State) : (storeSlot b p s).queue = s.queue := by cases b <;> rfl

@[simp] theorem movePos_res (s : State) : (movePos s).res = s.res := by unfold movePos; dsimp only; split <;> rfl
@[simp] theorem movePos_lastSt (s : State) : (movePos s).lastSt = s.lastSt := by unfold movePos; dsimp only; split <;> rfl
@[simp] theorem movePos_fatal (s : State) : (movePos s).fatal = s.fatal := by unfold movePos; dsimp only; split <;> rfl
@[simp] theorem movePos_fatalCause (s : State) : (movePos s).fatalCause = s.fatalCause := by unfold movePos; dsimp only; split <;> rfl
@[simp] theorem movePos_eofSeen (s : State) : (movePos s).eofSeen = s.eofSeen := by unfold movePos; dsimp only; split <;> rfl
@[simp] theorem movePos_frameValid (s : State) : (movePos s).frameValid = s.frameValid := by unfold movePos; dsimp only; split <;> rfl
@[simp] theorem movePos_tap (s : State) : (movePos s).tap = s.tap := by unfold movePos; dsimp only; split <;> rfl
@[simp] theorem movePos_wsize (s : State) : (movePos s).wsize = s.wsize := by unfold movePos; dsimp only; split <;> rfl
@[simp] theorem movePos_bytesIn (s : State) : (movePos s).bytesIn = s.bytesIn := by unfold movePos; dsimp only; split <;> rfl
@[simp] theorem movePos_hist (s : State) : (movePos s).hist = s.hist := by unfold movePos; dsimp only; split <;> rfl
@[simp] theorem movePos_buf0 (s : State) : (movePos s).buf0 = s.buf0 := by unfold movePos; dsimp only; split <;> rfl
@[simp] theorem movePos_buf1 (s : State) : (movePos s).buf1 = s.buf1 := by unfold movePos; dsimp only; split <;> rfl
@[simp] theorem movePos_sel (s : State) : (movePos s).sel = if (s.pos + 1).toNat % Config.pwBatch = 0 then !s.sel else s.sel := by unfold movePos; dsimp only; split <;> rfl
@[simp] theorem movePos_cnt0 (s : State) : (movePos s).cnt0 = s.cnt0 := by unfold movePos; dsimp only; split <;> rfl
@[simp] theorem movePos_cnt1 (s : State) : (movePos s).cnt1 = s.cnt1 := by unfold movePos; dsimp only; split <;> rfl
@[simp] theorem movePos_le (s : State) : (movePos s).le = s.le := by unfold movePos; dsimp only; split <;> rfl
@[simp] theorem movePos_pos (s : State) : (movePos s).pos = s.pos + 1 := by unfold movePos; dsimp only; split <;> rfl
@[simp] theorem movePos_prevSum (s : State) : (movePos s).prevSum = s.prevSum := by unfold movePos; dsimp only; split <;> rfl
@[simp] theorem movePos_curSum (s : State) : (movePos s).curSum = s.curSum := by unfold movePos; dsimp only; split <;> rfl
@[simp] theorem movePos_curValid (s : State) : (movePos s).curValid = s.curValid := by unfold movePos; dsimp only; split <;> rfl
@[simp] theorem movePos_fts (s : State) : (movePos s).fts = s.fts := by unfold movePos; dsimp only; split <;> rfl
@[simp] theorem movePos_bb (s : State) : (movePos s).bb = s.bb := by unfold movePos; dsimp only; split <;> rfl
@[simp] theorem movePos_params (s : State) : (movePos s).params = s.params := by unfold movePos; dsimp only; split <;> rfl
@[simp] theorem movePos_port (s : State) : (movePos s).port = s.port := by unfold movePos; dsimp only; split <;> rfl
@[simp] theorem movePos_queue (s : State) : (movePos s).queue = s.queue := by unfold movePos; dsimp only; split <;> rfl

@[simp] theorem loadCur_res (s : State) : (loadCur s).res = s.res := by unfold loadCur; split <;> rfl
@[simp] theorem loadCur_lastSt (s : State) : (loadCur s).lastSt = s.lastSt := by unfold loadCur; split <;> rfl
@[simp] theorem loadCur_fatal (s : State) : (loadCur s).fatal = s.fatal := by unfold loadCur; split <;> rfl
@[simp] theorem loadCur_fatalCause (s : State) : (loadCur s).fatalCause = s.fatalCause := by unfold loadCur; split <;> rfl
@[simp] theorem loadCur_eofSeen (s : State) : (loadCur s).eofSeen = s.eofSeen := by unfold loadCur; split <;> rfl
@[simp] theorem loadCur_frameValid (s : State) : (loadCur s).frameValid = s.frameValid := by unfold loadCur; split <;> rfl
@[simp] theorem loadCur_tap (s : State) : (loadCur s).tap = s.tap := by unfold loadCur; split <;> rfl
@[simp] theorem loadCur_wsize (s : State) : (loadCur s).wsize = s.wsize := by unfold loadCur; split <;> rfl
@[simp] theorem loadCur_bytesIn (s : State) : (loadCur s).bytesIn = s.bytesIn := by unfold loadCur; split <;> rfl
@[simp] theorem loadCur_hist (s : State) : (loadCur s).hist = s.hist := by unfold loadCur; split <;> rfl
@[simp] theorem loadCur_buf0 (s : State) : (loadCur s).buf0 = s.buf0 := by unfold loadCur; split <;> rfl
@[simp] theorem loadCur_buf1 (s : State) : (loadCur s).buf1 = s.buf1 := by unfold loadCur; split <;> rfl
@[simp] theorem loadCur_sel (s : State) : (loadCur s).sel = s.sel := by unfold loadCur; split <;> rfl
@[simp] theorem loadCur_cnt0 (s : State) : (loadCur s).cnt0 = s.cnt0 := by unfold loadCur; split <;> rfl
@[simp] theorem loadCur_cnt1 (s : State) : (loadCur s).cnt1 = s.cnt1 := by unfold loadCur; split <;> rfl
@[simp] theorem loadCur_le (s : State) : (loadCur s).le = s.le := by unfold loadCur; split <;> rfl
@[simp] theorem loadCur_pos (s : State) : (loadCur s).pos = s.pos := by unfold loadCur; split <;> rfl
@[simp] theorem loadCur_prevSum (s : State) : (loadCur s).prevSum = s.prevSum := by unfold loadCur; split <;> rfl
@[simp] theorem loadCur_curSum (s : State) : (loadCur s).curSum = if s.curValid then s.curSum else BitVec.ofNat 32 (peakSum s 0) := by unfold loadCur; split <;> rfl
@[simp] theorem loadCur_curValid (s : State) : (loadCur s).curValid = true := by unfold loadCur; split <;> simp_all
@[simp] theorem loadCur_fts (s : State) : (loadCur s).fts = s.fts := by unfold loadCur; split <;> rfl
@[simp] theorem loadCur_bb (s : State) : (loadCur s).bb = s.bb := by unfold loadCur; split <;> rfl
@[simp] theorem loadCur_params (s : State) : (loadCur s).params = s.params := by unfold loadCur; split <;> rfl
@[simp] theorem loadCur_port (s : State) : (loadCur s).port = s.port := by unfold loadCur; split <;> rfl
@[simp] theorem loadCur_queue (s : State) : (loadCur s).queue = s.queue := by unfold loadCur; split <;> rfl

@[simp] theorem shiftSums_res (cur : BitVec 32) (nxt : Nat) (s : State) : (shiftSums cur nxt s).res = s.res := rfl
@[simp] theorem shiftSums_lastSt (cur : BitVec 32) (nxt : Nat) (s : State) : (shiftSums cur nxt s).lastSt = s.lastSt := rfl
@[simp] theorem shiftSums_fatal (cur : BitVec 32) (nxt : Nat) (s : State) : (shiftSums cur nxt s).fatal = s.fatal := rfl
@[simp] theorem shiftSums_fatalCause (cur : BitVec 32) (nxt : Nat) (s : State) : (shiftSums cur nxt s).fatalCause = s.fatalCause := rfl
@[simp] theorem shiftSums_eofSeen (cur : BitVec 32) (nxt : Nat) (s : State) : (shiftSums cur nxt s).eofSeen = s.eofSeen := rfl
@[simp] theorem shiftSums_frameValid (cur : BitVec 32) (nxt : Nat) (s : State) : (shiftSums cur nxt s).frameValid = s.frameValid := rfl
@[simp] theorem shiftSums_tap (cur : BitVec 32) (nxt : Nat) (s : State) : (shiftSums cur nxt s).tap = s.tap := rfl
@[simp] theorem shiftSums_wsize (cur : BitVec 32) (nxt : Nat) (s : State) : (shiftSums cur nxt s).wsize = s.wsize := rfl
@[simp] theorem shiftSums_bytesIn (cur : BitVec 32) (nxt : Nat) (s : State) : (shiftSums cur nxt s).bytesIn = s.bytesIn := rfl
@[simp] theorem shiftSums_hist (cur : BitVec 32) (nxt : Nat) (s : State) : (shiftSums cur nxt s).hist = s.hist := rfl
@[simp] theorem shiftSums_buf0 (cur : BitVec 32) (nxt : Nat) (s : State) : (shiftSums cur nxt s).buf0 = s.buf0 := rfl
@[simp] theorem shiftSums_buf1 (cur : BitVec 32) (nxt : Nat) (s : State) : (shiftSums cur nxt s).buf1 = s.buf1 := rfl
@[simp] theorem shiftSums_sel (cur : BitVec 32) (nxt : Nat) (s : State) : (shiftSums cur nxt s).sel = s.sel := rfl
@[simp] theorem shiftSums_cnt0 (cur : BitVec 32) (nxt : Nat) (s : State) : (shiftSums cur nxt s).cnt0 = s.cnt0 := rfl
@[simp] theorem shiftSums_cnt1 (cur : BitVec 32) (nxt : Nat) (s : State) : (shiftSums cur nxt s).cnt1 = s.cnt1 := rfl
@[simp] theorem shiftSums_le (cur : BitVec 32) (nxt : Nat) (s : State) : (shiftSums cur nxt s).le = s.le := rfl
@[simp] theorem shiftSums_pos (cur : BitVec 32) (nxt : Nat) (s : State) : (shiftSums cur nxt s).pos = s.pos := rfl
@[simp] theorem shiftSums_prevSum (cur : BitVec 32) (nxt : Nat) (s : State) : (shiftSums cur nxt s).prevSum = cur := rfl
@[simp] theorem shiftSums_curSum (cur : BitVec 32) (nxt : Nat) (s : State) : (shiftSums cur nxt s).curSum = BitVec.ofNat 32 nxt := rfl
@[simp] theorem shiftSums_curValid (cur : BitVec 32) (nxt : Nat) (s : State) : (shiftSums cur nxt s).curValid = s.curValid := rfl
@[simp] theorem shiftSums_fts (cur : BitVec 32) (nxt : Nat) (s : State) : (shiftSums cur nxt s).fts = s.fts := rfl
@[simp] theorem shiftSums_bb (cur : BitVec 32) (nxt : Nat) (s : State) : (shiftSums cur nxt s).bb = s.bb := rfl
@[simp] theorem shiftSums_params (cur : BitVec 32) (nxt : Nat) (s : State) : (shiftSums cur nxt s).params = s.params := rfl
@[simp] theorem shiftSums_port (cur : BitVec 32) (nxt : Nat) (s : State) : (shiftSums cur nxt s).port = s.port := rfl
@[simp] theorem shiftSums_queue (cur : BitVec 32) (nxt : Nat) (s : State) : (shiftSums cur nxt s).queue = s.queue := rfl

@[simp] theorem forgetSums_res (s : State) : (forgetSums s).res = s.res := rfl
@[simp] theorem forgetSums_lastSt (s : State) : (forgetSums s).lastSt = s.lastSt := rfl
@[simp] theorem forgetSums_fatal (s : State) : (forgetSums s).fatal = s.fatal := rfl
@[simp] theorem forgetSums_fatalCause (s : State) : (forgetSums s).fatalCause = s.fatalCause := rfl
@[simp] theorem forgetSums_eofSeen (s : State) : (forgetSums s).eofSeen = s.eofSeen := rfl
@[simp] theorem forgetSums_frameValid (s : State) : (forgetSums s).frameValid = s.frameValid := rfl
@[simp] theorem forgetSums_tap (s : State) : (forgetSums s).tap = s.tap := rfl
@[simp] theorem forgetSums_wsize (s : State) : (forgetSums s).wsize = s.wsize := rfl
@[simp] theorem forgetSums_bytesIn (s : State) : (forgetSums s).bytesIn = s.bytesIn := rfl
@[simp] theorem forgetSums_hist (s : State) : (forgetSums s).hist = s.hist := rfl
@[simp] theorem forgetSums_buf0 (s : State) : (forgetSums s).buf0 = s.buf0 := rfl
@[simp] theorem forgetSums_buf1 (s : State) : (forgetSums s).buf1 = s.buf1 := rfl
@[simp] theorem forgetSums_sel (s : State) : (forgetSums s).sel = s.sel := rfl
@[simp] theorem forgetSums_cnt0 (s : State) : (forgetSums s).cnt0 = s.cnt0 := rfl
@[simp] theorem forgetSums_cnt1 (s : State) : (forgetSums s).cnt1 = s.cnt1 := rfl
@[simp] theorem forgetSums_le (s : State) : (forgetSums s).le = s.le := rfl
@[simp] theorem forgetSums_pos (s : State) : (forgetSums s).pos = s.pos := rfl
@[simp] theorem forgetSums_prevSum (s : State) : (forgetSums s).prevSum = 0 := rfl
@[simp] theorem forgetSums_curSum (s : State) : (forgetSums s).curSum = 0 := rfl
@[simp] theorem forgetSums_curValid (s : State) : (forgetSums s).curValid = false := rfl
@[simp] theorem forgetSums_fts (s : State) : (forgetSums s).fts = s.fts := rfl
@[simp] theorem forgetSums_bb (s : State) : (forgetSums s).bb = s.bb := rfl
@[simp] theorem forgetSums_params (s : State) : (forgetSums s).params = s.params := rfl
@[simp] theorem forgetSums_port (s : State) : (forgetSums s).port = s.port := rfl
@[simp] theorem forgetSums_queue (s : State) : (forgetSums s).queue = s.queue := rfl

@[simp] theorem deliver_res (s : State) : (deliver s).res = s.res := rfl
@[simp] theorem deliver_lastSt (s : State) : (deliver s).lastSt = s.lastSt := rfl
@[simp] theorem deliver_fatal (s : State) : (deliver s).fatal = s.fatal := rfl
@[simp] theorem deliver_fatalCause (s : State) : (deliver s).fatalCause = s.fatalCause := rfl
@[simp] theorem deliver_eofSeen (s : State) : (deliver s).eofSeen = s.eofSeen := rfl
@[simp] theorem deliver_frameValid (s : State) : (deliver s).frameValid = true := rfl
@[simp] theorem deliver_tap (s : State) : (deliver s).tap = s.tap := rfl
@[simp] theorem deliver_wsize (s : State) : (deliver s).wsize = s.wsize := rfl
@[simp] theorem deliver_bytesIn (s : State) : (deliver s).bytesIn = s.bytesIn := rfl
@[simp] theorem deliver_hist (s : State) : (deliver s).hist = s.hist := rfl
@[simp] theorem deliver_buf0 (s : State) : (deliver s).buf0 = s.buf0 := rfl
@[simp] theorem deliver_buf1 (s : State) : (deliver s).buf1 = s.buf1 := rfl
@[simp] theorem deliver_sel (s : State) : (deliver s).sel = s.sel := rfl
@[simp] theorem deliver_cnt0 (s : State) : (deliver s).cnt0 = s.cnt0 := rfl
@[simp] theorem deliver_cnt1 (s : State) : (deliver s).cnt1 = s.cnt1 := rfl
@[simp] theorem deliver_le (s : State) : (deliver s).le = s.le := rfl
@[simp] theorem deliver_pos (s : State) : (deliver s).pos = s.pos := rfl
@[simp] theorem deliver_prevSum (s : State) : (deliver s).prevSum = s.prevSum := rfl
@[simp] theorem deliver_curSum (s : State) : (deliver s).curSum = s.curSum := rfl
@[simp] theorem deliver_curValid (s : State) : (deliver s).curValid = s.curValid := rfl
@[simp] theorem deliver_fts (s : State) : (deliver s).fts = timestamp s := rfl
@[simp] theorem deliver_bb (s : State) : (deliver s).bb = Memory.writeList s.bb 0 (candidate s) := rfl
@[simp] theorem deliver_params (s : State) : (deliver s).params = s.params := rfl
@[simp] theorem deliver_port (s : State) : (deliver s).port = s.port := rfl
@[simp] theorem deliver_queue (s : State) : (deliver s).queue = s.queue := rfl

@[simp] theorem clearFrameValidBelow_res (a : Nat) (s : State) : (clearFrameValidBelow a s).res = s.res := by unfold clearFrameValidBelow; split <;> rfl
@[simp] theorem clearFrameValidBelow_lastSt (a : Nat) (s : State) : (clearFrameValidBelow a s).lastSt = s.lastSt := by unfold clearFrameValidBelow; split <;> rfl
@[simp] theorem clearFrameValidBelow_fatal (a : Nat) (s : State) : (clearFrameValidBelow a s).fatal = s.fatal := by unfold clearFrameValidBelow; split <;> rfl
@[simp] theorem clearFrameValidBelow_fatalCause (a : Nat) (s : State) : (clearFrameValidBelow a s).fatalCause = s.fatalCause := by unfold clearFrameValidBelow; split <;> rfl
@[simp] theorem clearFrameValidBelow_eofSeen (a : Nat) (s : State) : (clearFrameValidBelow a s).eofSeen = s.eofSeen := by unfold clearFrameValidBelow; split <;> rfl
@[simp] theorem clearFrameValidBelow_frameValid (a : Nat) (s : State) : (clearFrameValidBelow a s).frameValid = if a < Config.frameBytes then false else s.frameValid := by unfold clearFrameValidBelow; split <;> rfl
@[simp] theorem clearFrameValidBelow_tap (a : Nat) (s : State) : (clearFrameValidBelow a s).tap = s.tap := by unfold clearFrameValidBelow; split <;> rfl
@[simp] theorem clearFrameValidBelow_wsize (a : Nat) (s : State) : (clearFrameValidBelow a s).wsize = s.wsize := by unfold clearFrameValidBelow; split <;> rfl
@[simp] theorem clearFrameValidBelow_bytesIn (a : Nat) (s : State) : (clearFrameValidBelow a s).bytesIn = s.bytesIn := by unfold clearFrameValidBelow; split <;> rfl
@[simp] theorem clearFrameValidBelow_hist (a : Nat) (s : State) : (clearFrameValidBelow a s).hist = s.hist := by unfold clearFrameValidBelow; split <;> rfl
@[simp] theorem clearFrameValidBelow_buf0 (a : Nat) (s : State) : (clearFrameValidBelow a s).buf0 = s.buf0 := by unfold clearFrameValidBelow; split <;> rfl
@[simp] theorem clearFrameValidBelow_buf1 (a : Nat) (s : State) : (clearFrameValidBelow a s).buf1 = s.buf1 := by unfold clearFrameValidBelow; split <;> rfl
@[simp] theorem clearFrameValidBelow_sel (a : Nat) (s : State) : (clearFrameValidBelow a s).sel = s.sel := by unfold clearFrameValidBelow; split <;> rfl
@[simp] theorem clearFrameValidBelow_cnt0 (a : Nat) (s : State) : (clearFrameValidBelow a s).cnt0 = s.cnt0 := by unfold clearFrameValidBelow; split <;> rfl
@[simp] theorem clearFrameValidBelow_cnt1 (a : Nat) (s : State) : (clearFrameValidBelow a s).cnt1 = s.cnt1 := by unfold clearFrameValidBelow; split <;> rfl
@[simp] theorem clearFrameValidBelow_le (a : Nat) (s : State) : (clearFrameValidBelow a s).le = s.le := by unfold clearFrameValidBelow; split <;> rfl
@[simp] theorem clearFrameValidBelow_pos (a : Nat) (s : State) : (clearFrameValidBelow a s).pos = s.pos := by unfold clearFrameValidBelow; split <;> rfl
@[simp] theorem clearFrameValidBelow_prevSum (a : Nat) (s : State) : (clearFrameValidBelow a s).prevSum = s.prevSum := by unfold clearFrameValidBelow; split <;> rfl
@[simp] theorem clearFrameValidBelow_curSum (a : Nat) (s : State) : (clearFrameValidBelow a s).curSum = s.curSum := by unfold clearFrameValidBelow; split <;> rfl
@[simp] theorem clearFrameValidBelow_curValid (a : Nat) (s : State) : (clearFrameValidBelow a s).curValid = s.curValid := by unfold clearFrameValidBelow; split <;> rfl
@[simp] theorem clearFrameValidBelow_fts (a : Nat) (s : State) : (clearFrameValidBelow a s).fts = s.fts := by unfold clearFrameValidBelow; split <;> rfl
@[simp] theorem clearFrameValidBelow_bb (a : Nat) (s : State) : (clearFrameValidBelow a s).bb = s.bb := by unfold clearFrameValidBelow; split <;> rfl
@[simp] theorem clearFrameValidBelow_params (a : Nat) (s : State) : (clearFrameValidBelow a s).params = s.params := by unfold clearFrameValidBelow; split <;> rfl
@[simp] theorem clearFrameValidBelow_port (a : Nat) (s : State) : (clearFrameValidBelow a s).port = s.port := by unfold clearFrameValidBelow; split <;> rfl
@[simp] theorem clearFrameValidBelow_queue (a : Nat) (s : State) : (clearFrameValidBelow a s).queue = s.queue := by unfold clearFrameValidBelow; split <;> rfl

@[simp] theorem clearChain_res (t : Tap) (w : Int) (s : State) : (clearChain t w s).res = s.res := rfl
@[simp] theorem clearChain_lastSt (t : Tap) (w : Int) (s : State) : (clearChain t w s).lastSt = s.lastSt := rfl
@[simp] theorem clearChain_fatal (t : Tap) (w : Int) (s : State) : (clearChain t w s).fatal = false := rfl
@[simp] theorem clearChain_fatalCause (t : Tap) (w : Int) (s : State) : (clearChain t w s).fatalCause = .ok := rfl
@[simp] theorem clearChain_eofSeen (t : Tap) (w : Int) (s : State) : (clearChain t w s).eofSeen = false := rfl
@[simp] theorem clearChain_frameValid (t : Tap) (w : Int) (s : State) : (clearChain t w s).frameValid = false := rfl
@[simp] theorem clearChain_tap (t : Tap) (w : Int) (s : State) : (clearChain t w s).tap = t := rfl
@[simp] theorem clearChain_wsize (t : Tap) (w : Int) (s : State) : (clearChain t w s).wsize = initWsize t w s := rfl
@[simp] theorem clearChain_bytesIn (t : Tap) (w : Int) (s : State) : (clearChain t w s).bytesIn = 0 := rfl
@[simp] theorem clearChain_hist (t : Tap) (w : Int) (s : State) : (clearChain t w s).hist = #v[0, 0, 0, 0, 0, 0, 0, 0] := rfl
@[simp] theorem clearChain_buf0 (t : Tap) (w : Int) (s : State) : (clearChain t w s).buf0 = .zeros := rfl
@[simp] theorem clearChain_buf1 (t : Tap) (w : Int) (s : State) : (clearChain t w s).buf1 = .zeros := rfl
@[simp] theorem clearChain_sel (t : Tap) (w : Int) (s : State) : (clearChain t w s).sel = false := rfl
@[simp] theorem clearChain_cnt0 (t : Tap) (w : Int) (s : State) : (clearChain t w s).cnt0 = 0 := rfl
@[simp] theorem clearChain_cnt1 (t : Tap) (w : Int) (s : State) : (clearChain t w s).cnt1 = 0 := rfl
@[simp] theorem clearChain_le (t : Tap) (w : Int) (s : State) : (clearChain t w s).le = 0 := rfl
@[simp] theorem clearChain_pos (t : Tap) (w : Int) (s : State) : (clearChain t w s).pos = 0 := rfl
@[simp] theorem clearChain_prevSum (t : Tap) (w : Int) (s : State) : (clearChain t w s).prevSum = 0 := rfl
@[simp] theorem clearChain_curSum (t : Tap) (w : Int) (s : State) : (clearChain t w s).curSum = 0 := rfl
@[simp] theorem clearChain_curValid (t : Tap) (w : Int) (s : State) : (clearChain t w s).curValid = false := rfl
@[simp] theorem clearChain_fts (t : Tap) (w : Int) (s : State) : (clearChain t w s).fts = 0 := rfl
@[simp] theorem clearChain_bb (t : Tap) (w : Int) (s : State) : (clearChain t w s).bb = s.bb := rfl
@[simp] theorem clearChain_params (t : Tap) (w : Int) (s : State) : (clearChain t w s).params = s.params := rfl
@[simp] theorem clearChain_port (t : Tap) (w : Int) (s : State) : (clearChain t w s).port = s.port := rfl
@[simp] theorem clearChain_queue (t : Tap) (w : Int) (s : State) : (clearChain t w s).queue = s.queue := rfl

end Sys2Proof.Machine
end

