-- ==== Sys2Proof/Laws/Flow.lean ====
section
/-! SUPPORT. What the shared operations can do: the three ways a part of the pseudocode goes on, how a command closes, the
stream port. -/

namespace Sys2Proof.Machine

open Sys2Proof.Config

/-- The state a part of the pseudocode leaves, whether it goes on or ends the command. -/
def Flow.Leaves {α : Type} (x : Flow α) (t : State) : Prop :=
  match x with
  | .ok _ s => s = t
  | .ended _ s => s = t
  | .stuck _ => False

@[simp] theorem Flow.leaves_ok {α : Type} (a : α) (s t : State) : (Flow.ok a s).Leaves t ↔ s = t := Iff.rfl
@[simp] theorem Flow.leaves_ended {α : Type} (st : Status) (s t : State) :
    (Flow.ended st s : Flow α).Leaves t ↔ s = t := Iff.rfl
@[simp] theorem Flow.leaves_stuck {α : Type} (why : Fault) (t : State) :
    (Flow.stuck why : Flow α).Leaves t ↔ False := Iff.rfl

@[simp] theorem Flow.bind_ok {α β : Type} (a : α) (s : State) (f : α → State → Flow β) :
    (Flow.ok a s).bind f = f a s := rfl
@[simp] theorem Flow.bind_ended {α β : Type} (st : Status) (s : State) (f : α → State → Flow β) :
    (Flow.ended st s).bind f = .ended st s := rfl
@[simp] theorem Flow.bind_stuck {α β : Type} (why : Fault) (f : α → State → Flow β) :
    (Flow.stuck why : Flow α).bind f = .stuck why := rfl

/-- A chain leaves the state its first part leaves, or the state its second part leaves from there. -/
theorem Flow.leaves_bind {α β : Type} {x : Flow α} {f : α → State → Flow β} {t : State} (h : (x.bind f).Leaves t) :
    (∃ st, x = .ended st t) ∨ ∃ a s, x = .ok a s ∧ (f a s).Leaves t := by
  cases x with
  | ok a s => exact .inr ⟨a, s, rfl, h⟩
  | ended st s => exact .inl ⟨st, by rw [show s = t from h]⟩
  | stuck why => exact h.elim

@[simp] theorem Flow.close_ok (v : Word64) (s : State) : (Flow.ok v s).close = .next (s.finish .ok v) := rfl
@[simp] theorem Flow.close_ended (st : Status) (s : State) : (Flow.ended st s).close = .next (s.finish st 0) := rfl
@[simp] theorem Flow.close_stuck (why : Fault) : (Flow.stuck why).close = .fault why := rfl

/-- A command that closes with a next state leaves a state and finishes it. -/
theorem Flow.close_next {x : Flow Word64} {t : State} (h : x.close = .next t) :
    ∃ s st v, x.Leaves s ∧ t = s.finish st v := by
  cases x with
  | ok v s => exact ⟨s, .ok, v, rfl, by simpa using h.symm⟩
  | ended st s => exact ⟨s, st, 0, rfl, by simpa using h.symm⟩
  | stuck why => simp at h

/-- A command closes with a next state unless it is stuck. -/
theorem Flow.close_goes_on {x : Flow Word64} (h : ∀ why, x ≠ .stuck why) : ∃ t, x.close = .next t := by
  cases x with
  | ok v s => exact ⟨_, rfl⟩
  | ended st s => exact ⟨_, rfl⟩
  | stuck why => exact absurd rfl (h why)

@[simp] theorem leaves_raiseFatal {α : Type} (st : Status) (s t : State) :
    (raiseFatal st s : Flow α).Leaves t ↔ { s with fatal := true, fatalCause := st } = t := Iff.rfl

/-! The state checks of decode (R106). -/

/-- A stream-unit command runs its body under a TAP that allows it, while FATAL is 0. -/
theorem streamUnit_open {o : Op} {s : State} (body : State → Flow Word64) (ht : s.tap.allows o = true)
    (hf : s.fatal = false) : streamUnit o s body = body s := by
  unfold streamUnit; rw [if_neg (by simp [ht]), if_neg (by simp [hf])]

/-- Under a TAP that does not allow it, a stream-unit command ends with WRONG_TAP. -/
theorem streamUnit_wrongTap {o : Op} {s : State} (body : State → Flow Word64) (ht : s.tap.allows o = false) :
    streamUnit o s body = .ended .wrongTap s := by unfold streamUnit; rw [if_pos ht]

/-- Under a TAP that allows it, while FATAL is set, a stream-unit command ends with FATAL. -/
theorem streamUnit_fatal {o : Op} {s : State} (body : State → Flow Word64) (ht : s.tap.allows o = true)
    (hf : s.fatal = true) : streamUnit o s body = .ended .fatal s := by
  unfold streamUnit; rw [if_neg (by simp [ht]), if_pos hf]

/-! The stream port. -/

/-- What taking an event does: the first event lined up, or what the port goes on with (R81). -/
theorem Port.take_cases {p p' : Port} {e : PortEvent} (h : p.take = some (e, p')) :
    p'.taken = p.taken + 1 ∧ p'.rest = p.rest ∧
      (p.ahead = e :: p'.ahead ∨ (p.ahead = [] ∧ p'.ahead = [] ∧ p.rest ≠ .waits)) := by
  obtain ⟨ahead, rest, taken⟩ := p
  unfold Port.take at h
  cases ahead with
  | cons a as => simp at h; obtain ⟨rfl, rfl⟩ := h; simp
  | nil => cases rest <;> simp at h <;> (obtain ⟨rfl, rfl⟩ := h; simp)

/-- The port waits only when nothing is lined up and it was told to wait (R81). -/
theorem Port.take_none {p : Port} (h : p.take = none) : p.ahead = [] ∧ p.rest = .waits := by
  obtain ⟨ahead, rest, taken⟩ := p
  unfold Port.take at h
  cases ahead with
  | cons a as => simp at h
  | nil => cases rest <;> simp at h ⊢

theorem Port.take_ahead {p : Port} {e : PortEvent} {es : List PortEvent} (h : p.ahead = e :: es) :
    p.take = some (e, { p with ahead := es, taken := p.taken + 1 }) := by
  unfold Port.take; rw [h]

/-- The next event lined up is what a port read returns. -/
theorem portRead_ahead {s : State} {e : PortEvent} {es : List PortEvent} (h : s.port.ahead = e :: es) :
    portRead s = .ok e { s with port := { s.port with ahead := es, taken := s.port.taken + 1 } } := by
  unfold portRead; rw [Port.take_ahead h]

theorem portRead_ok {s t : State} {e : PortEvent} (h : portRead s = .ok e t) :
    ∃ p, s.port.take = some (e, p) ∧ t = { s with port := p } := by
  unfold portRead at h
  split at h
  · next e' p hp => simp only [Flow.ok.injEq] at h; exact ⟨p, by rw [hp, h.1], h.2.symm⟩
  · simp at h

theorem portRead_not_ended (s t : State) (st : Status) : portRead s ≠ .ended st t := by
  unfold portRead; split <;> simp

/-- A port that does not wait answers every read. -/
theorem portRead_goes_on {s : State} (h : s.port.rest ≠ .waits) : ∃ e p, portRead s = .ok e { s with port := p } ∧
    s.port.take = some (e, p) := by
  unfold portRead
  cases hp : s.port.take with
  | none => exact absurd (Port.take_none hp).2 h
  | some ep => exact ⟨ep.1, ep.2, rfl, rfl⟩

end Sys2Proof.Machine
end

