-- ==== Sys2Proof/Laws/Blind.lean ====
section
/-! SUPPORT. The sample chain never reads `RES`, `LAST_ST`, `BB` or the host's later actions: on a state that differs in
these alone it does the same (46_preamble_detector.md R291). -/

namespace Sys2Proof.Machine

open Sys2Proof.Config

/-- The state with another `RES`, `LAST_ST`, `BB` and queue. -/
def State.over (r : Word64) (l : Status) (m : Memory) (q : List HostAct) (s : State) : State :=
  { s with res := r, lastSt := l, bb := m, queue := q }

/-- The same outcome on changed states. -/
def Flow.onState {α : Type} (g : State → State) (x : Flow α) : Flow α :=
  match x with
  | .ok a s => .ok a (g s)
  | .ended st s => .ended st (g s)
  | .stuck why => .stuck why

@[simp] theorem Flow.onState_ok {α : Type} (g : State → State) (a : α) (s : State) :
    (Flow.ok a s).onState g = .ok a (g s) := rfl
@[simp] theorem Flow.onState_ended {α : Type} (g : State → State) (st : Status) (s : State) :
    (Flow.ended st s : Flow α).onState g = .ended st (g s) := rfl
@[simp] theorem Flow.onState_stuck {α : Type} (g : State → State) (why : Fault) :
    (Flow.stuck why : Flow α).onState g = .stuck why := rfl

/-- A chain is blind to `g` when its parts are. -/
theorem Flow.onState_bind {α β : Type} {g : State → State} (x : Flow α) {f f' : α → State → Flow β}
    (h : ∀ a s, f' a (g s) = (f a s).onState g) : (x.onState g).bind f' = (x.bind f).onState g := by
  cases x with
  | ok a s => exact h a s
  | ended st s => rfl
  | stuck why => rfl

variable (r : Word64) (l : Status) (m : Memory) (q : List HostAct)

@[simp] theorem portRead_over (s : State) : portRead (s.over r l m q) = (portRead s).onState (·.over r l m q) := by
  unfold portRead
  show (match s.port.take with
    | some (e, p) => Flow.ok e { s.over r l m q with port := p }
    | none => .stuck .awaitingStream) = _
  cases s.port.take <;> rfl

theorem assembleSample_over (b0 b1 : Byte) (s : State) :
    assembleSample b0 b1 (s.over r l m q) = (assembleSample b0 b1 s).onState (·.over r l m q) := by
  unfold assembleSample
  split
  · show (match s.params.nibbleMode with
      | .fault => raiseFatal .sampleRange (s.over r l m q)
      | .mask => Flow.ok _ (s.over r l m q)) = _
    cases s.params.nibbleMode <;> rfl
  · rfl

theorem readSample_over (s : State) : readSample (s.over r l m q) = (readSample s).onState (·.over r l m q) := by
  unfold readSample
  cases he : s.eofSeen with
  | true => rw [if_pos (by exact he), if_pos rfl]; rfl
  | false =>
    rw [if_neg (by show ¬ s.eofSeen = true; simp [he]), if_neg (by simp), portRead_over]
    refine Flow.onState_bind _ fun e0 s => ?_
    cases e0 with
    | eof => rfl
    | ioerr => rfl
    | byte b0 =>
      rw [show countByte (s.over r l m q) = (countByte s).over r l m q from rfl, portRead_over]
      refine Flow.onState_bind _ fun e1 s => ?_
      cases e1 with
      | eof => rfl
      | ioerr => rfl
      | byte b1 => exact assembleSample_over r l m q b0 b1 (countByte s)

theorem powerStep_over (s : State) : powerStep (s.over r l m q) = (powerStep s).onState (·.over r l m q) := by
  unfold powerStep
  rw [readSample_over]
  refine Flow.onState_bind _ fun r0 s => ?_
  cases r0 with
  | none => rfl
  | some r0 =>
    simp only []
    rw [readSample_over]
    refine Flow.onState_bind _ fun r1 s => ?_
    cases r1 <;> rfl

theorem storeSlot_over (b : Bool) (p : Power) (s : State) :
    storeSlot b p (s.over r l m q) = (storeSlot b p s).over r l m q := by cases b <;> rfl

theorem fillSlots_over (n : Nat) (b : Bool) (s : State) :
    fillSlots n b (s.over r l m q) = (fillSlots n b s).onState (·.over r l m q) := by
  induction n generalizing s with
  | zero => rfl
  | succ n ih =>
    simp only [fillSlots, powerStep_over]
    cases powerStep s with
    | stuck why => rfl
    | ended st s' => rfl
    | ok p s' =>
      cases p with
      | none => rfl
      | some p => simp only [Flow.onState_ok, storeSlot_over]; exact ih _

theorem fill_over (b : Bool) (s : State) : fill b (s.over r l m q) = (fill b s).onState (·.over r l m q) := by
  have : startFill b (s.over r l m q) = (startFill b s).over r l m q := by cases b <;> rfl
  unfold fill
  rw [this, fillSlots_over]

theorem movePos_over (s : State) : movePos (s.over r l m q) = (movePos s).over r l m q := by
  unfold movePos
  show (if (s.pos + 1).toNat % pwBatch = 0 then _ else _) = State.over r l m q (if (s.pos + 1).toNat % pwBatch = 0 then _ else _)
  split <;> rfl

theorem wstep_over (s : State) : wstep (s.over r l m q) = (wstep s).onState (·.over r l m q) := by
  unfold wstep
  by_cases h : s.pos = BitVec.allOnes 64
  · rw [if_pos (by exact h), if_pos h]; rfl
  · rw [if_neg (by exact h), if_neg h, movePos_over]
    by_cases h2 : (movePos s).pos.toNat % pwBatch = 0
    · rw [if_pos (by exact h2), if_pos h2]
      exact fill_over r l m q (!(movePos s).sel) (movePos s)
    · rw [if_neg (by exact h2), if_neg h2]; rfl

theorem wsteps_over (n : Nat) (s : State) : wsteps n (s.over r l m q) = (wsteps n s).onState (·.over r l m q) := by
  induction n generalizing s with
  | zero => rfl
  | succ n ih =>
    simp only [wsteps, wstep_over]
    cases wstep s with
    | stuck why => rfl
    | ended st s' => rfl
    | ok u s' => exact ih s'

end Sys2Proof.Machine
end

