-- ==== Sys2Proof/Laws/Encode.lean ====
section
/-! SUPPORT. The descriptor's fields and the opcode map: packing and unpacking are inverse, the map is unambiguous. -/

namespace Sys2Proof

/-- The fields of a packed descriptor. -/
@[simp] theorem fieldsOf_pack (f : Fields) : fieldsOf (pack f) = f := by
  obtain ⟨opc, sub, imm, a, v⟩ := f
  simp only [fieldsOf, pack, Fields.mk.injEq]
  refine ⟨?_, ?_, ?_, ?_, ?_⟩ <;> (ext i hi; simp [BitVec.getElem_extractLsb'])
  all_goals grind

/-- A descriptor is the packing of its fields. -/
@[simp] theorem pack_fieldsOf (d : Descriptor) : pack (fieldsOf d) = d := by
  simp only [fieldsOf, pack]
  ext i hi
  simp only [BitVec.getElem_append, BitVec.getElem_extractLsb']
  grind

/-- Every opcode's code stands for it. -/
@[simp] theorem Op.ofCode_code (o : Op) : Op.ofCode o.code = some o := by cases o <;> decide

/-- A code stands for the opcode that has it. -/
theorem Op.code_of_ofCode {c : BitVec 8} {o : Op} (h : Op.ofCode c = some o) : o.code = c := by
  have := List.find?_some h
  simpa using this

end Sys2Proof
end

