-- ==== Sys2Proof/Laws/Keeps.lean ====
section
/-! SUPPORT. The inductions over the command bodies, packaged once: a property that every basic write keeps is kept by the
sample read, the power step, a fill, the window steps, the detector's scan, a command, and a step. -/

namespace Sys2Proof.Machine

open Sys2Proof.Config

/-- The writes of the sample read (R211) keep `P`. -/
structure ReadKeeps (P : State → Prop) : Prop where
  take : ∀ s e p, s.port.take = some (e, p) → P s → P { s with port := p }
  count : ∀ s, P s → P (countByte s)
  sawEof : ∀ s, P s → P { s with eofSeen := true }
  failed : ∀ s st, st = .ioError ∨ st = .sampleRange → P s → P { s with fatal := true, fatalCause := st }

/-- The writes of a power step (R232) keep `P`. -/
structure PairKeeps (P : State → Prop) : Prop extends ReadKeeps P where
  insert : ∀ s r0 r1, P s → P (insertPair r0 r1 s)

/-- The writes of a fill (R252) keep `P`. -/
structure FillKeeps (P : State → Prop) : Prop extends PairKeeps P where
  start : ∀ s b, P s → P (startFill b s)
  store : ∀ s b h, P s → P (storeSlot b (powerOf h) s)

/-- The writes of a window step (R253) keep `P`. -/
structure StepKeeps (P : State → Prop) : Prop extends FillKeeps P where
  move : ∀ s, s.pos ≠ BitVec.allOnes 64 → P s → P (movePos s)

/-- The writes of the detector (R289) keep `P`. -/
structure ScanKeeps (P : State → Prop) : Prop extends StepKeeps P where
  load : ∀ s, P s → P (loadCur s)
  shift : ∀ s s', P s → P s' → P (shiftSums s.curSum (peakSum s 1) s')
  deliver : ∀ s, accepted s = true → P s → P (deliver s)
  forget : ∀ s, P s → P (forgetSums s)

theorem portRead_keeps {P : State → Prop} (h : ReadKeeps P) {s t : State} {e : PortEvent} (hs : P s)
    (hr : portRead s = .ok e t) : P t := by
  obtain ⟨p, hp, rfl⟩ := portRead_ok hr
  exact h.take s e p hp hs

theorem assembleSample_keeps {P : State → Prop} (h : ReadKeeps P) {s t : State} {b0 b1 : Byte} (hs : P s)
    (hl : (assembleSample b0 b1 s).Leaves t) : P t := by
  unfold assembleSample at hl
  split at hl
  · split at hl
    · simp only [leaves_raiseFatal] at hl; subst hl; exact h.failed s _ (.inr rfl) hs
    · simp only [Flow.leaves_ok] at hl; subst hl; exact hs
  · simp only [Flow.leaves_ok] at hl; subst hl; exact hs

theorem readSample_keeps {P : State → Prop} (h : ReadKeeps P) {s t : State} (hs : P s)
    (hl : (readSample s).Leaves t) : P t := by
  unfold readSample at hl
  split at hl
  · simp only [Flow.leaves_ok] at hl; subst hl; exact hs
  · rcases Flow.leaves_bind hl with ⟨st, he⟩ | ⟨e0, s1, h1, hl⟩
    · exact absurd he (portRead_not_ended _ _ _)
    · have hs1 := portRead_keeps h hs h1
      cases e0 with
      | eof => simp only [Flow.leaves_ok] at hl; subst hl; exact h.sawEof _ hs1
      | ioerr => simp only [leaves_raiseFatal] at hl; subst hl; exact h.failed _ _ (.inl rfl) hs1
      | byte b0 =>
        rcases Flow.leaves_bind hl with ⟨st, he⟩ | ⟨e1, s2, h2, hl⟩
        · exact absurd he (portRead_not_ended _ _ _)
        · have hs2 := portRead_keeps h (h.count _ hs1) h2
          cases e1 with
          | eof => simp only [Flow.leaves_ok] at hl; subst hl; exact h.sawEof _ hs2
          | ioerr => simp only [leaves_raiseFatal] at hl; subst hl; exact h.failed _ _ (.inl rfl) hs2
          | byte b1 => exact assembleSample_keeps h (h.count _ hs2) hl

theorem powerStep_keeps {P : State → Prop} (h : PairKeeps P) {s t : State} (hs : P s)
    (hl : (powerStep s).Leaves t) : P t := by
  unfold powerStep at hl
  rcases Flow.leaves_bind hl with ⟨st, he⟩ | ⟨r0, s1, h1, hl⟩
  · exact readSample_keeps h.toReadKeeps hs (by rw [he]; rfl)
  · have hs1 : P s1 := readSample_keeps h.toReadKeeps hs (by rw [h1]; rfl)
    cases r0 with
    | none => simp only [Flow.leaves_ok] at hl; subst hl; exact hs1
    | some r0 =>
      rcases Flow.leaves_bind hl with ⟨st, he⟩ | ⟨r1, s2, h2, hl⟩
      · exact readSample_keeps h.toReadKeeps hs1 (by rw [he]; rfl)
      · have hs2 : P s2 := readSample_keeps h.toReadKeeps hs1 (by rw [h2]; rfl)
        cases r1 with
        | none => simp only [Flow.leaves_ok] at hl; subst hl; exact hs2
        | some r1 => simp only [Flow.leaves_ok] at hl; subst hl; exact h.insert _ _ _ hs2

/-- The power sample a power step returns is `POWER` of the history it leaves (R232). -/
theorem powerStep_value {s t : State} {p : Power} (h : powerStep s = .ok (some p) t) : p = powerOf t.hist := by
  unfold powerStep at h
  cases h1 : readSample s with
  | stuck why => simp [h1] at h
  | ended st s1 => simp [h1] at h
  | ok r0 s1 =>
    cases r0 with
    | none => simp [h1] at h
    | some r0 =>
      cases h2 : readSample s1 with
      | stuck why => simp [h1, h2] at h
      | ended st s2 => simp [h1, h2] at h
      | ok r1 s2 =>
        cases r1 with
        | none => simp [h1, h2] at h
        | some r1 =>
          simp only [h1, h2, Flow.bind_ok, Flow.ok.injEq, Option.some.injEq] at h
          rw [← h.1, ← h.2]

theorem fillSlots_keeps {P : State → Prop} (h : FillKeeps P) {n : Nat} {b : Bool} {s t : State} (hs : P s)
    (hl : (fillSlots n b s).Leaves t) : P t := by
  induction n generalizing s with
  | zero => simp only [fillSlots, Flow.leaves_ok] at hl; subst hl; exact hs
  | succ n ih =>
    simp only [fillSlots] at hl
    cases hp : powerStep s with
    | stuck why => simp [hp] at hl
    | ended st s1 =>
      simp only [hp, Flow.leaves_ended] at hl; subst hl
      exact powerStep_keeps h.toPairKeeps hs (by rw [hp]; rfl)
    | ok r s1 =>
      have hs1 : P s1 := powerStep_keeps h.toPairKeeps hs (by rw [hp]; rfl)
      cases r with
      | none => simp only [hp, Flow.leaves_ok] at hl; subst hl; exact hs1
      | some p =>
        simp only [hp] at hl
        exact ih (by rw [powerStep_value hp]; exact h.store _ _ _ hs1) hl

theorem fill_keeps {P : State → Prop} (h : FillKeeps P) {b : Bool} {s t : State} (hs : P s)
    (hl : (fill b s).Leaves t) : P t := fillSlots_keeps h (h.start _ _ hs) hl

theorem fillInitial_keeps {P : State → Prop} (h : FillKeeps P) {s t : State} (hs : P s)
    (hl : (fillInitial s).Leaves t) : P t := by
  rcases Flow.leaves_bind hl with ⟨st, he⟩ | ⟨u, s1, h1, hl⟩
  · exact fill_keeps h hs (by rw [he]; rfl)
  · exact fill_keeps h (fill_keeps h hs (by rw [h1]; rfl)) hl

theorem wstep_keeps {P : State → Prop} (h : StepKeeps P) {s t : State} (hs : P s) (hl : (wstep s).Leaves t) : P t := by
  unfold wstep at hl
  split at hl
  · simp only [Flow.leaves_ended] at hl; subst hl; exact hs
  · next hp =>
    split at hl
    · exact fill_keeps h.toFillKeeps (h.move _ hp hs) hl
    · simp only [Flow.leaves_ok] at hl; subst hl; exact h.move _ hp hs

theorem wsteps_keeps {P : State → Prop} (h : StepKeeps P) {n : Nat} {s t : State} (hs : P s)
    (hl : (wsteps n s).Leaves t) : P t := by
  induction n generalizing s with
  | zero => simp only [wsteps, Flow.leaves_ok] at hl; subst hl; exact hs
  | succ n ih =>
    simp only [wsteps] at hl
    cases hw : wstep s with
    | stuck why => simp [hw] at hl
    | ended st s1 => simp only [hw, Flow.leaves_ended] at hl; subst hl; exact wstep_keeps h hs (by rw [hw]; rfl)
    | ok u s1 => simp only [hw] at hl; exact ih (wstep_keeps h hs (by rw [hw]; rfl)) hl

theorem takeFrame_keeps {P : State → Prop} (h : ScanKeeps P) {s t : State} (ha : accepted s = true) (hs : P s)
    (hl : (takeFrame s).Leaves t) : P t := by
  unfold takeFrame at hl
  split at hl
  · simp only [Flow.leaves_ended] at hl; subst hl; exact hs
  · have hd := h.deliver s ha hs
    rcases Flow.leaves_bind hl with ⟨st, he⟩ | ⟨u, s1, h1, hl⟩
    · exact wsteps_keeps h.toStepKeeps hd (by rw [he]; rfl)
    · simp only [Flow.leaves_ok] at hl; subst hl
      exact h.forget _ (wsteps_keeps h.toStepKeeps hd (by rw [h1]; rfl))

/-- A scan without a frame that ends leaves the state it is in. -/
theorem leaves_endScan {st : Status} {s t : State} (h : (endScan st s).Leaves t) : s = t := by
  unfold endScan at h
  split at h
  · exact h.elim
  · exact h

/-- Where the stream is not endless, or `LE` fits, or FATAL is set, a scan without a frame ends with its status. -/
theorem endScan_ends {s : State} (st : Status) (h : s.endless = false ∨ s.leFits = true ∨ s.fatal = true) :
    endScan st s = .ended st s := by
  unfold endScan
  rw [if_neg]
  rcases h with h | h | h <;> simp [h]

/-- Past the positions whose `LE` fits, with FATAL 0, a scan without a frame over an endless stream never ends. -/
theorem endScan_stuck {s : State} (st : Status) (he : s.endless = true) (hl : s.leFits = false) (hf : s.fatal = false) :
    endScan st s = .stuck .endlessScan := by
  unfold endScan
  rw [if_pos (by simp [he, hl, hf])]

theorem scan_keeps {P : State → Prop} (h : ScanKeeps P) {n : Nat} {s t : State} (hs : P s)
    (hl : (scan n s).Leaves t) : P t := by
  induction n generalizing s with
  | zero => rw [← leaves_endScan hl]; exact hs
  | succ n ih =>
    simp only [scan] at hl
    split at hl
    · rw [← leaves_endScan hl]; exact hs
    · have hL := h.load _ hs
      split at hl
      · next hit =>
        rw [Bool.and_eq_true] at hit
        exact takeFrame_keeps h hit.2 hL hl
      · cases hw : wstep (loadCur s) with
        | stuck why => simp [hw] at hl
        | ended st s1 =>
          simp only [hw] at hl
          rw [← leaves_endScan hl]
          exact wstep_keeps h.toStepKeeps hL (by rw [hw]; rfl)
        | ok u s1 =>
          simp only [hw] at hl
          exact ih (h.shift _ _ hL (wstep_keeps h.toStepKeeps hL (by rw [hw]; rfl))) hl

/-- The state checks of decode write nothing (R106). -/
theorem streamUnit_leaves {o : Op} {s t : State} {body : State → Flow Word64}
    (hl : (streamUnit o s body).Leaves t) : t = s ∨ (s.tap.allows o = true ∧ s.fatal = false ∧ (body s).Leaves t) := by
  unfold streamUnit at hl
  split at hl
  · exact .inl (by simpa using hl.symm)
  · next ht =>
    split at hl
    · exact .inl (by simpa using hl.symm)
    · next hf => exact .inr ⟨by simpa using ht, by simpa using hf, hl⟩

/-! The bodies of the stream-unit commands. -/

theorem execSdNext_keeps {P : State → Prop} (h : ReadKeeps P) (hfin : ∀ s st v, P s → P (s.finish st v)) {s t : State}
    (hs : P s) (hx : execSdNext s = .next t) : P t := by
  obtain ⟨s1, st, v, hl, rfl⟩ := Flow.close_next hx
  refine hfin _ _ _ ?_
  rcases streamUnit_leaves hl with rfl | ⟨-, -, hl⟩
  · exact hs
  · rcases Flow.leaves_bind hl with ⟨st, he⟩ | ⟨r, s2, h2, hl⟩
    · exact readSample_keeps h hs (by rw [he]; rfl)
    · have hs2 : P s2 := readSample_keeps h hs (by rw [h2]; rfl)
      cases r <;> (simp at hl; subst hl; exact hs2)

theorem execPcNext_keeps {P : State → Prop} (h : PairKeeps P) (hfin : ∀ s st v, P s → P (s.finish st v)) {s t : State}
    (hs : P s) (hx : execPcNext s = .next t) : P t := by
  obtain ⟨s1, st, v, hl, rfl⟩ := Flow.close_next hx
  refine hfin _ _ _ ?_
  rcases streamUnit_leaves hl with rfl | ⟨-, -, hl⟩
  · exact hs
  · rcases Flow.leaves_bind hl with ⟨st, he⟩ | ⟨r, s2, h2, hl⟩
    · exact powerStep_keeps h hs (by rw [he]; rfl)
    · have hs2 : P s2 := powerStep_keeps h hs (by rw [h2]; rfl)
      cases r <;> (simp at hl; subst hl; exact hs2)

theorem execPwAdv_keeps {P : State → Prop} (h : StepKeeps P) (hfin : ∀ s st v, P s → P (s.finish st v)) {s t : State}
    (hs : P s) (hx : execPwAdv s = .next t) : P t := by
  obtain ⟨s1, st, v, hl, rfl⟩ := Flow.close_next hx
  refine hfin _ _ _ ?_
  rcases streamUnit_leaves hl with rfl | ⟨-, -, hl⟩
  · exact hs
  · rcases Flow.leaves_bind hl with ⟨st, he⟩ | ⟨r, s2, h2, hl⟩
    · exact wstep_keeps h hs (by rw [he]; rfl)
    · simp at hl; subst hl; exact wstep_keeps h hs (by rw [h2]; rfl)

theorem execPwAdvn_keeps {P : State → Prop} (h : StepKeeps P) (hfin : ∀ s st v, P s → P (s.finish st v)) {n : Int}
    {s t : State} (hs : P s) (hx : execPwAdvn n s = .next t) : P t := by
  obtain ⟨s1, st, v, hl, rfl⟩ := Flow.close_next hx
  refine hfin _ _ _ ?_
  rcases streamUnit_leaves hl with rfl | ⟨-, -, hl⟩
  · exact hs
  · split at hl
    · simp at hl; subst hl; exact hs
    · rcases Flow.leaves_bind hl with ⟨st, he⟩ | ⟨r, s2, h2, hl⟩
      · exact wsteps_keeps h hs (by rw [he]; rfl)
      · simp at hl; subst hl; exact wsteps_keeps h hs (by rw [h2]; rfl)

theorem execDmNext_keeps {P : State → Prop} (h : ScanKeeps P) (hfin : ∀ s st v, P s → P (s.finish st v)) {s t : State}
    (hs : P s) (hx : execDmNext s = .next t) : P t := by
  obtain ⟨s1, st, v, hl, rfl⟩ := Flow.close_next hx
  refine hfin _ _ _ ?_
  rcases streamUnit_leaves hl with rfl | ⟨-, -, hl⟩
  · exact hs
  · exact scan_keeps h hs hl

/-- INIT: the writes before the fill, then the fill (R141). -/
theorem execInit_keeps {P : State → Prop} (h : FillKeeps P) (hfin : ∀ s st v, P s → P (s.finish st v)) {tap : Nat}
    {w : Int} {s t : State} (hs : P s) (hclear : ∀ tp, initArgOk tp w = true → P (clearChain tp w s))
    (hx : execInit tap w s = .next t) : P t := by
  obtain ⟨s1, st, v, hl, rfl⟩ := Flow.close_next hx
  refine hfin _ _ _ ?_
  split at hl
  · simp at hl; subst hl; exact hs
  · next tp htp =>
    split at hl
    · simp at hl; subst hl; exact hs
    · next hok =>
      have hc := hclear tp (by simpa using hok)
      have hf : ∀ t, (initFill tp (clearChain tp w s)).Leaves t → P t := by
        intro t ht
        cases tp with
        | idle => simp only [initFill, Flow.leaves_ok] at ht; subst ht; exact hc
        | samples => simp only [initFill, Flow.leaves_ok] at ht; subst ht; exact hc
        | power => simp only [initFill, Flow.leaves_ok] at ht; subst ht; exact hc
        | window => exact fillInitial_keeps h hc ht
        | frames => exact fillInitial_keeps h hc ht
      rcases Flow.leaves_bind hl with ⟨st, he⟩ | ⟨u, s2, h2, hl⟩
      · exact hf _ (by rw [he]; rfl)
      · simp at hl; subst hl; exact hf _ (by rw [h2]; rfl)

/-! The commands that write nothing but `RES` and `LAST_ST`, and BB_WR. -/

/-- Every command but INIT, SD_NEXT, PC_NEXT, PW_ADV, PW_ADVN, DM_NEXT and BB_WR. -/
def Instr.reads : Instr → Bool
  | .nop => true
  | .init _ _ => false
  | .csrr _ => true
  | .sdNext => false
  | .pcNext => false
  | .pwGet _ => true
  | .pwAdv => false
  | .pwAdvn _ => false
  | .pwFull => true
  | .dmNext => false
  | .crcBuf _ _ => true
  | .crcTab _ => true
  | .bfExt _ _ _ => true
  | .bfTst _ _ => true
  | .bbWr _ _ => false
  | .bsByte _ => true
  | .bsRange _ _ => true
  | .frDf => true
  | .frIcao => true
  | .frMe => true
  | .frTc => true
  | .frCheck => true
  | .altDec _ => true

/-- A reading command ends, and writes nothing but `RES` and `LAST_ST`. -/
theorem exec_reads {i : Instr} (h : Instr.reads i = true) (s : State) : ∃ st v, exec i s = .next (s.finish st v) := by
  have hclose : ∀ x : Flow Word64, (∃ v, x = .ok v s) ∨ (∃ st, x = .ended st s) →
      ∃ st v, x.close = .next (s.finish st v) := by
    rintro x (⟨v, rfl⟩ | ⟨st, rfl⟩)
    · exact ⟨_, _, rfl⟩
    · exact ⟨_, _, rfl⟩
  have hunit : ∀ o (body : State → Flow Word64), ((∃ v, body s = .ok v s) ∨ ∃ st, body s = .ended st s) →
      (∃ v, streamUnit o s body = .ok v s) ∨ ∃ st, streamUnit o s body = .ended st s := by
    intro o body hb
    unfold streamUnit
    split
    · exact .inr ⟨_, rfl⟩
    · split
      · exact .inr ⟨_, rfl⟩
      · exact hb
  cases i with
  | nop => exact hclose _ (.inl ⟨_, rfl⟩)
  | init tap w => simp [Instr.reads] at h
  | csrr n => refine hclose _ ?_; split <;> simp
  | sdNext => simp [Instr.reads] at h
  | pcNext => simp [Instr.reads] at h
  | pwGet k =>
    refine hclose _ (hunit _ _ ?_)
    unfold windowGet
    split
    · simp
    · split <;> simp
  | pwAdv => simp [Instr.reads] at h
  | pwAdvn n => simp [Instr.reads] at h
  | pwFull => exact hclose _ (hunit _ _ (.inl ⟨_, rfl⟩))
  | dmNext => simp [Instr.reads] at h
  | crcBuf lo hi => refine hclose _ ?_; split <;> simp
  | crcTab index => refine hclose _ ?_; split <;> simp
  | bfExt value start size =>
    refine hclose _ ?_
    split
    · simp
    · split <;> simp
  | bfTst value index => refine hclose _ ?_; split <;> simp
  | bbWr index imm => simp [Instr.reads] at h
  | bsByte index => refine hclose _ ?_; split <;> simp
  | bsRange lo hi =>
    refine hclose _ ?_
    split
    · simp
    · split <;> simp
  | frDf => exact hclose _ (.inl ⟨_, rfl⟩)
  | frIcao => exact hclose _ (.inl ⟨_, rfl⟩)
  | frMe => exact hclose _ (.inl ⟨_, rfl⟩)
  | frTc => exact hclose _ (.inl ⟨_, rfl⟩)
  | frCheck => refine hclose _ ?_; split <;> simp
  | altDec imm =>
    refine hclose _ ?_
    split
    · simp
    · split <;> simp

/-- BB_WR ends, and writes one byte of `BB` inside it, or nothing but `RES` and `LAST_ST` (R162). -/
theorem execBbWr_next {index : Int} {imm : BitVec 16} (s : State) :
    (∃ st, execBbWr index imm s = .next (s.finish st 0)) ∨
      ∃ a, a < bbSize ∧ execBbWr index imm s =
        .next ((clearFrameValidBelow a (memWrite s a [imm.extractLsb' 0 8])).finish .ok 0) := by
  unfold execBbWr
  split
  · exact .inl ⟨_, rfl⟩
  · unfold bbIndex
    split
    · next heq => exact .inl ⟨_, rfl⟩
    · next a heq =>
      split at heq
      · simp at heq
      · next hr =>
        simp only [Option.some.injEq] at heq
        subst heq
        exact .inr ⟨index.toNat, by simp [bbSize]; omega, rfl⟩

/-- What every write of a command keeps, every command keeps. -/
structure ExecKeeps (P : State → Prop) : Prop extends ScanKeeps P where
  finish : ∀ s st v, P s → P (s.finish st v)
  clear : ∀ s t w, initArgOk t w = true → P s → P (clearChain t w s)
  write : ∀ s a b, a < bbSize → P s → P (clearFrameValidBelow a (memWrite s a [b]))

theorem exec_keeps {P : State → Prop} (h : ExecKeeps P) {i : Instr} {s t : State} (hs : P s)
    (hx : exec i s = .next t) : P t := by
  by_cases hr : Instr.reads i = true
  · obtain ⟨st, v, he⟩ := exec_reads hr s
    rw [he, Host.Outcome.next.injEq] at hx
    subst hx
    exact h.finish _ _ _ hs
  · cases i with
    | init tap w =>
      exact execInit_keeps h.toFillKeeps h.finish hs (fun tp hok => h.clear s tp w hok hs) hx
    | sdNext => exact execSdNext_keeps h.toReadKeeps h.finish hs hx
    | pcNext => exact execPcNext_keeps h.toPairKeeps h.finish hs hx
    | pwAdv => exact execPwAdv_keeps h.toStepKeeps h.finish hs hx
    | pwAdvn n => exact execPwAdvn_keeps h.toStepKeeps h.finish hs hx
    | dmNext => exact execDmNext_keeps h.toScanKeeps h.finish hs hx
    | bbWr index imm =>
      rcases execBbWr_next (index := index) (imm := imm) s with ⟨st, he⟩ | ⟨a, ha, he⟩
      · rw [show exec (.bbWr index imm) s = execBbWr index imm s from rfl, he, Host.Outcome.next.injEq] at hx
        subst hx; exact h.finish _ _ _ hs
      · rw [show exec (.bbWr index imm) s = execBbWr index imm s from rfl, he, Host.Outcome.next.injEq] at hx
        subst hx; exact h.finish _ _ _ (h.write _ _ _ ha hs)
    | _ => exact absurd rfl hr

/-- What every write of a step keeps, every step keeps. -/
structure KeptByStep (P : State → Prop) : Prop extends ExecKeeps P where
  queue : ∀ s q, P s → P { s with queue := q }
  reset : ∀ s lost, P s → P (assertReset lost s)

theorem step_keeps {P : State → Prop} (h : KeptByStep P) {s t : State} (hs : P s) (hx : step s = .next t) : P t := by
  unfold step at hx
  split at hx
  · simp at hx
  · simp only [Host.Outcome.next.injEq] at hx; subst hx; exact h.reset _ _ (h.queue _ _ hs)
  · unfold runCommand at hx
    split at hx
    · exact exec_keeps h.toExecKeeps (h.queue _ _ hs) hx
    · simp only [Host.Outcome.next.injEq] at hx; subst hx; exact h.finish _ _ _ (h.queue _ _ hs)

end Sys2Proof.Machine
end

