-- ==== Sys2Proof/Laws/PerInstr.lean ====
section
/-! SUPPORT. Per instruction: the encoded descriptor carries the command's opcode (30_encoding.md R105) and is zero in
every field its format does not use (R103). -/

namespace Sys2Proof.Laws.Layout

/-- The opcode byte and the reserved fields of a command's descriptor. -/
def Statement (i : Instr) : Prop :=
  (fieldsOf (encode i)).opc = i.op.code ∧ i.op.format.reservedZero (fieldsOf (encode i)) = true

theorem nop : Statement .nop := by
  simp [Statement, encode, Instr.fields, Instr.op, Op.format, Format.reservedZero]

theorem init (tap : Nat) (w : Int) : Statement (.init tap w) := by
  simp [Statement, encode, Instr.fields, Instr.op, Op.format, Format.reservedZero]

theorem csrr (n : Nat) : Statement (.csrr n) := by
  simp [Statement, encode, Instr.fields, Instr.op, Op.format, Format.reservedZero]

theorem sdNext : Statement .sdNext := by
  simp [Statement, encode, Instr.fields, Instr.op, Op.format, Format.reservedZero]

theorem pcNext : Statement .pcNext := by
  simp [Statement, encode, Instr.fields, Instr.op, Op.format, Format.reservedZero]

theorem pwGet (k : Int) : Statement (.pwGet k) := by
  simp [Statement, encode, Instr.fields, Instr.op, Op.format, Format.reservedZero]

theorem pwAdv : Statement .pwAdv := by
  simp [Statement, encode, Instr.fields, Instr.op, Op.format, Format.reservedZero]

theorem pwAdvn (n : Int) : Statement (.pwAdvn n) := by
  simp [Statement, encode, Instr.fields, Instr.op, Op.format, Format.reservedZero]

theorem pwFull : Statement .pwFull := by
  simp [Statement, encode, Instr.fields, Instr.op, Op.format, Format.reservedZero]

theorem dmNext : Statement .dmNext := by
  simp [Statement, encode, Instr.fields, Instr.op, Op.format, Format.reservedZero]

theorem crcBuf (lo : Int) (hi : Nat) : Statement (.crcBuf lo hi) := by
  simp [Statement, encode, Instr.fields, Instr.op, Op.format, Format.reservedZero]

theorem crcTab (index : Nat) : Statement (.crcTab index) := by
  simp [Statement, encode, Instr.fields, Instr.op, Op.format, Format.reservedZero]

theorem bfExt (value : Word64) (start : Int) (size : Nat) : Statement (.bfExt value start size) := by
  simp [Statement, encode, Instr.fields, Instr.op, Op.format, Format.reservedZero]

theorem bfTst (value : Word64) (index : Int) : Statement (.bfTst value index) := by
  simp [Statement, encode, Instr.fields, Instr.op, Op.format, Format.reservedZero]

theorem bbWr (index : Int) (imm : BitVec 16) : Statement (.bbWr index imm) := by
  simp [Statement, encode, Instr.fields, Instr.op, Op.format, Format.reservedZero]

theorem bsByte (index : Int) : Statement (.bsByte index) := by
  simp [Statement, encode, Instr.fields, Instr.op, Op.format, Format.reservedZero]

theorem bsRange (lo : Int) (hi : Nat) : Statement (.bsRange lo hi) := by
  simp [Statement, encode, Instr.fields, Instr.op, Op.format, Format.reservedZero]

theorem frDf : Statement .frDf := by
  simp [Statement, encode, Instr.fields, Instr.op, Op.format, Format.reservedZero]

theorem frIcao : Statement .frIcao := by
  simp [Statement, encode, Instr.fields, Instr.op, Op.format, Format.reservedZero]

theorem frMe : Statement .frMe := by
  simp [Statement, encode, Instr.fields, Instr.op, Op.format, Format.reservedZero]

theorem frTc : Statement .frTc := by
  simp [Statement, encode, Instr.fields, Instr.op, Op.format, Format.reservedZero]

theorem frCheck : Statement .frCheck := by
  simp [Statement, encode, Instr.fields, Instr.op, Op.format, Format.reservedZero]

theorem altDec (imm : BitVec 16) : Statement (.altDec imm) := by
  simp [Statement, encode, Instr.fields, Instr.op, Op.format, Format.reservedZero]

end Sys2Proof.Laws.Layout
end

