-- ==== Sys2Proof/Laws/Stream.lean ====
section
/-! SUPPORT. The sample read, the power step and a fill over a stream of legal bytes, however it stops: what they return and
everything they write. -/

namespace Sys2Proof.Machine

open Sys2Proof.Config

/-- The centred sample of a pair, as R210 writes it. -/
theorem centre_rawSample (b0 b1 : Byte) : centre (rawSample b0 b1) = pairSample b0 b1 := by
  have h0 := b0.isLt
  have hr : (rawSample b0 b1).toNat = 256 * (b1.toNat % 16) + b0.toNat := by
    simp only [rawSample, BitVec.toNat_append, BitVec.extractLsb'_toNat, Nat.shiftRight_zero]
    rw [← Nat.shiftLeft_add_eq_or_of_lt h0, Nat.shiftLeft_eq]
    omega
  simp only [centre, hr, sampleBias, pairSample]
  push_cast
  rfl

/-- The pair's nibble check lets it through (R212). -/
theorem assembleSample_legal {b0 b1 : Byte} {s : State} (h : b1.toNat < 16 ∨ s.params.nibbleMode = .mask) :
    assembleSample b0 b1 s = .ok (some (pairSample b0 b1)) s := by
  unfold assembleSample
  rw [centre_rawSample]
  split
  · next hn =>
    have hm : s.params.nibbleMode = .mask := by
      refine h.resolve_left fun h => hn ?_
      apply BitVec.eq_of_toNat_eq
      simp only [BitVec.extractLsb'_toNat, Nat.shiftRight_eq_div_pow, show (0 : BitVec 4).toNat = 0 from rfl]
      omega
    rw [hm]
  · rfl

/-- The pair's nibble check refuses it (R212). -/
theorem assembleSample_range {b0 b1 : Byte} {s : State} (h : 16 ≤ b1.toNat) (hm : s.params.nibbleMode = .fault) :
    assembleSample b0 b1 s = raiseFatal .sampleRange s := by
  have hn : b1.extractLsb' 4 4 ≠ 0 := by
    intro h'
    have := congrArg BitVec.toNat h'
    have hb := b1.isLt
    simp only [BitVec.extractLsb'_toNat, Nat.shiftRight_eq_div_pow, show (0 : BitVec 4).toNat = 0 from rfl] at this
    omega
  unfold assembleSample
  rw [if_pos hn, hm]

theorem legalBytes_pair {m : NibbleMode} {b0 b1 : Byte} {bs : List Byte} (h : legalBytes m (b0 :: b1 :: bs) = true) :
    (b1.toNat < 16 ∨ m = .mask) ∧ legalBytes m bs = true := by
  cases m with
  | fault => simpa [legalBytes, cleanBytes] using h
  | mask => simp [legalBytes]

/-- A whole pair at the head of the port (R211). -/
theorem readSample_pair {s : State} {b0 b1 : Byte} {es : List PortEvent} (he : s.eofSeen = false)
    (hp : s.port.ahead = .byte b0 :: .byte b1 :: es) (h : b1.toNat < 16 ∨ s.params.nibbleMode = .mask) :
    readSample s = .ok (some (pairSample b0 b1))
      { s with bytesIn := s.bytesIn + 2, port := { s.port with ahead := es, taken := s.port.taken + 2 } } := by
  unfold readSample
  rw [if_neg (by simp [he]), portRead_ahead hp]
  simp only [Flow.bind_ok]
  rw [portRead_ahead (e := .byte b1) (es := es) (by rfl)]
  simp only [Flow.bind_ok]
  rw [assembleSample_legal (by exact h)]
  simp only [countByte, Flow.ok.injEq, true_and, State.mk.injEq, and_true]
  bv_omega

/-- Nothing is read once EOF_SEEN is set (R211). -/
theorem readSample_ended {s : State} (he : s.eofSeen = true) : readSample s = .ok none s := by
  unfold readSample; rw [if_pos he]

theorem powerStep_ended {s : State} (he : s.eofSeen = true) : powerStep s = .ok none s := by
  unfold powerStep; rw [readSample_ended he]; rfl

/-- The state once `n` bytes and the events of `e` are read: the bytes counted, EOF_SEEN set or the failure raised (R211,
R212, R356). -/
def StreamEnd.reached (e : StreamEnd) (n : Nat) (es : List PortEvent) (s : State) : State :=
  { s with
    fatal := if e.status = .ok then s.fatal else true, fatalCause := if e.status = .ok then s.fatalCause else e.status,
    eofSeen := decide (e = .eof), bytesIn := s.bytesIn + BitVec.ofNat 64 (n + e.bytes),
    port := { s.port with ahead := es, taken := s.port.taken + (n + e.events.length) } }

/-- With status OK a part goes on, with any other it ends the command. -/
def Flow.stop {α : Type} (st : Status) (a : α) (t : State) : Flow α := if st = .ok then .ok a t else .ended st t

/-- A sample read that meets the end of a stream's bytes: at most a lone byte, dropped, then `End` or the failure (R211 to
R213). -/
theorem readSample_stop {s : State} {bs : List Byte} {e : StreamEnd} {es : List PortEvent} (he : s.eofSeen = false)
    (hp : s.port.ahead = bs.map .byte ++ (e.events ++ es)) (hl : bs.length < 2)
    (hf : e.follows s.params.nibbleMode bs) : readSample s = Flow.stop e.status none (e.reached bs.length es s) := by
  unfold readSample
  rw [if_neg (by simp [he])]
  match bs, e with
  | [], .eof =>
    rw [portRead_ahead (by simpa [StreamEnd.events] using hp)]
    simp [StreamEnd.status, StreamEnd.reached, Flow.stop, StreamEnd.bytes, StreamEnd.events]
  | [], .ioerr =>
    rw [portRead_ahead (by simpa [StreamEnd.events] using hp)]
    simp [StreamEnd.status, StreamEnd.reached, Flow.stop, raiseFatal, StreamEnd.bytes, StreamEnd.events, he, countByte]
  | [], .range b0 b1 =>
    rw [portRead_ahead (e := .byte b0) (es := .byte b1 :: es) (by simpa [StreamEnd.events] using hp)]
    simp only [Flow.bind_ok]
    rw [portRead_ahead (e := .byte b1) (es := es) (by rfl)]
    simp only [Flow.bind_ok]
    rw [assembleSample_range hf.2.1 (by exact hf.1)]
    simp [StreamEnd.status, StreamEnd.reached, Flow.stop, raiseFatal, StreamEnd.bytes, StreamEnd.events, he, countByte]
    bv_omega
  | [b], .eof =>
    rw [portRead_ahead (e := .byte b) (es := .eof :: es) (by simpa [StreamEnd.events] using hp)]
    simp only [Flow.bind_ok]
    rw [portRead_ahead (e := .eof) (es := es) (by rfl)]
    simp [StreamEnd.status, StreamEnd.reached, Flow.stop, StreamEnd.bytes, StreamEnd.events, countByte]
  | [b], .ioerr =>
    rw [portRead_ahead (e := .byte b) (es := .ioerr :: es) (by simpa [StreamEnd.events] using hp)]
    simp only [Flow.bind_ok]
    rw [portRead_ahead (e := .ioerr) (es := es) (by rfl)]
    simp [StreamEnd.status, StreamEnd.reached, Flow.stop, raiseFatal, StreamEnd.bytes, StreamEnd.events, he, countByte]
  | [_], .range _ _ => simp [StreamEnd.follows] at hf
  | _ :: _ :: _, _ => simp at hl

/-- Two whole pairs at the head of the port (R232). -/
theorem powerStep_quad {s : State} {b0 b1 b2 b3 : Byte} {es : List PortEvent} (he : s.eofSeen = false)
    (hp : s.port.ahead = .byte b0 :: .byte b1 :: .byte b2 :: .byte b3 :: es)
    (h1 : b1.toNat < 16 ∨ s.params.nibbleMode = .mask) (h3 : b3.toNat < 16 ∨ s.params.nibbleMode = .mask) :
    powerStep s =
      .ok (some (powerOf (shiftIn s.hist (pairSample b0 b1) (pairSample b2 b3))))
        { s with
          bytesIn := s.bytesIn + 4, hist := shiftIn s.hist (pairSample b0 b1) (pairSample b2 b3),
          port := { s.port with ahead := es, taken := s.port.taken + 4 } } := by
  unfold powerStep
  rw [readSample_pair he hp h1]
  simp only [Flow.bind_ok]
  rw [readSample_pair (b0 := b2) (b1 := b3) (es := es) (by exact he) (by rfl) (by exact h3)]
  simp only [Flow.bind_ok, insertPair, Flow.ok.injEq, true_and, State.mk.injEq, and_true]
  bv_omega

theorem Flow.stop_bind {α β : Type} (st : Status) (a : α) (t : State) (f : α → State → Flow β) :
    (Flow.stop st a t).bind f = if st = .ok then f a t else .ended st t := by
  unfold Flow.stop; split <;> rfl

/-- A power step that meets the end of a stream's bytes: fewer than four, consumed and counted, then `End` or the failure;
the history is unchanged (R232). -/
theorem powerStep_stop {s : State} {bs : List Byte} {e : StreamEnd} {es : List PortEvent} (he : s.eofSeen = false)
    (hp : s.port.ahead = bs.map .byte ++ (e.events ++ es)) (hl : bs.length < 4)
    (hc : legalBytes s.params.nibbleMode bs = true) (hf : e.follows s.params.nibbleMode bs) :
    powerStep s = Flow.stop e.status none (e.reached bs.length es s) := by
  have second : ∀ (b0 b1 : Byte) (rest : List Byte), bs = b0 :: b1 :: rest →
      powerStep s = Flow.stop e.status none (e.reached bs.length es s) := by
    rintro b0 b1 rest rfl
    obtain ⟨h1, -⟩ := legalBytes_pair hc
    have hf' : e.follows s.params.nibbleMode rest := by
      cases e with
      | eof => trivial
      | ioerr => trivial
      | range c0 c1 => exact ⟨hf.1, hf.2.1, by have := hf.2.2; simp only [List.length_cons] at this; omega⟩
    unfold powerStep
    rw [readSample_pair (b0 := b0) (b1 := b1) (es := rest.map .byte ++ (e.events ++ es)) he (by simpa using hp) h1]
    simp only [Flow.bind_ok]
    rw [readSample_stop (bs := rest) (e := e) (es := es) (by exact he) (by rfl) (by simp at hl; omega) (by exact hf')]
    rw [Flow.stop_bind]
    show Flow.stop e.status none _ = _
    congr 1
    simp only [StreamEnd.reached, State.mk.injEq, Port.mk.injEq, true_and, and_true, List.length_cons]
    refine ⟨?_, by omega⟩
    rw [show rest.length + 1 + 1 + e.bytes = 2 + (rest.length + e.bytes) from by omega, BitVec.ofNat_add (x := 2),
      BitVec.add_assoc]
    rfl
  match bs with
  | [] => unfold powerStep; rw [readSample_stop he hp (by simp) hf, Flow.stop_bind]; rfl
  | [b0] => unfold powerStep; rw [readSample_stop he hp (by simp) hf, Flow.stop_bind]; rfl
  | b0 :: b1 :: rest => exact second b0 b1 rest rfl

/-- A fill's store, below 2^64 - 1 slots loaded: one slot of buffer `b`, its count, and `LE` (R252). -/
theorem storeSlot_spec (b : Bool) (p : Power) {s : State} (hn : (cntOf s b).toNat < 65536) (hl : s.le.toNat + 1 < 2 ^ 64)
    (hc : (bufOf s b).canon = true) :
    ∃ t, storeSlot b p s = t ∧
      t = { s with buf0 := t.buf0, buf1 := t.buf1, cnt0 := t.cnt0, cnt1 := t.cnt1, le := s.le + 1 } ∧
      bufOf t b = (bufOf s b).set (cntOf s b).toNat p ∧ bufOf t (!b) = bufOf s (!b) ∧
      (cntOf t b).toNat = (cntOf s b).toNat + 1 ∧ cntOf t (!b) = cntOf s (!b) ∧ (bufOf t b).canon = true := by
  have hle : leNext s = s.le + 1 := by
    unfold leNext
    rw [if_neg]
    intro h
    rw [h] at hl
    simp at hl
  refine ⟨_, rfl, ?_⟩
  cases b
  · simp only [cntOf, bufOf, storeSlot, hle, if_false, Bool.false_eq_true, Bool.not_false, if_true] at *
    refine ⟨trivial, trivial, trivial, ?_, trivial, PowerBuf.canon_set _ _ hc⟩
    simp; omega
  · simp only [cntOf, bufOf, storeSlot, hle, if_false, Bool.false_eq_true, Bool.not_true, if_true] at *
    refine ⟨trivial, trivial, trivial, ?_, trivial, PowerBuf.canon_set _ _ hc⟩
    simp; omega

/-- The samples and power samples at the head of a stream of at least four bytes (R231, R232). -/
theorem streamSamples_quad (b0 b1 b2 b3 : Byte) (bs : List Byte) :
    streamSamples (b0 :: b1 :: b2 :: b3 :: bs) =
      pairSample b0 b1 :: pairSample b2 b3 :: streamSamples bs := rfl

/-- Fewer than four bytes hold no power sample (R232). -/
theorem samplePowers_short {bs : List Byte} (h : Vector Sample 8) (hl : bs.length < 4) :
    samplePowers h (streamSamples bs) = [] ∧ historyAfter h (streamSamples bs) = h := by
  match bs with
  | [] => simp [streamSamples, samplePowers, historyAfter]
  | [_] => simp [streamSamples, samplePowers, historyAfter]
  | [_, _] => simp [streamSamples, samplePowers, historyAfter]
  | [_, _, _] => simp [streamSamples, samplePowers, historyAfter]
  | _ :: _ :: _ :: _ :: _ => simp at hl; omega

/-- How many samples a stream holds. -/
theorem length_streamSamples (bs : List Byte) : (streamSamples bs).length = bs.length / 2 := by
  induction bs using streamSamples.induct with
  | case1 b0 b1 bs ih => simp [streamSamples, ih]; omega
  | case2 b => simp [streamSamples]
  | case3 => simp [streamSamples]

/-- How many power samples a run of samples gives. -/
theorem length_samplePowers (h : Vector Sample 8) (rs : List Sample) : (samplePowers h rs).length = rs.length / 2 := by
  induction h, rs using samplePowers.induct with
  | case1 h r0 r1 rs ih => simp [samplePowers, ih]; omega
  | case2 h r => simp [samplePowers]
  | case3 h => simp [samplePowers]

theorem length_streamPowers (bs : List Byte) : (streamPowers bs).length = bs.length / 4 := by
  simp only [streamPowers, length_samplePowers, length_streamSamples]; omega

/-- A state that differs from `s` in what a fill writes (R211, R232, R252) and nowhere else. -/
def FilledFrom (s t : State) : Prop :=
  t = { s with
        fatal := t.fatal, fatalCause := t.fatalCause, eofSeen := t.eofSeen, bytesIn := t.bytesIn, hist := t.hist,
        buf0 := t.buf0, buf1 := t.buf1, cnt0 := t.cnt0, cnt1 := t.cnt1, le := t.le, port := t.port }

theorem FilledFrom.refl (s : State) : FilledFrom s s := rfl

theorem FilledFrom.trans {s t u : State} (h : FilledFrom s t) (h' : FilledFrom t u) : FilledFrom s u := by
  unfold FilledFrom at *
  rw [h']
  rw [h]

/-- What a fill of at most `n` slots of buffer `b`, of which `c` are stored already, leaves over a stream of the bytes `bs`,
then `e`, then `es`: the slots stored and counted, the slots from the count on as they were, the bytes and events taken, and,
where the bytes do not reach, what `e` shows (R252, R358). -/
structure Filled (c : Nat) (b : Bool) (n : Nat) (bs : List Byte) (e : StreamEnd) (es : List PortEvent) (s t : State) :
    Prop where
  frame : FilledFrom s t
  fatal : t.fatal = if 4 * n ≤ bs.length ∨ e.status = .ok then s.fatal else true
  cause : t.fatalCause = if 4 * n ≤ bs.length ∨ e.status = .ok then s.fatalCause else e.status
  eofSeen : t.eofSeen = decide (bs.length < 4 * n ∧ e = .eof)
  bytesIn : t.bytesIn = s.bytesIn + BitVec.ofNat 64 (if 4 * n ≤ bs.length then 4 * n else bs.length + e.bytes)
  hist : t.hist = historyAfter s.hist ((streamSamples bs).take (2 * n))
  port : t.port = { s.port with
    ahead := if 4 * n ≤ bs.length then (bs.drop (4 * n)).map .byte ++ (e.events ++ es) else es,
    taken := s.port.taken + if 4 * n ≤ bs.length then 4 * n else bs.length + e.events.length }
  le : t.le.toNat = s.le.toNat + min n (bs.length / 4)
  cnt : (cntOf t b).toNat = c + min n (bs.length / 4)
  cntOther : cntOf t (!b) = cntOf s (!b)
  bufOther : bufOf t (!b) = bufOf s (!b)
  canon : (bufOf t b).canon = true
  slots : ∀ k, k < 65536 → (bufOf t b).get k =
    if c ≤ k ∧ k < c + min n (bs.length / 4) then (samplePowers s.hist (streamSamples bs)).getD (k - c) 0
    else (bufOf s b).get k

/-- The status of a fill: OK where the bytes reach or the stream just ends. -/
def StreamEnd.after (e : StreamEnd) (total len : Nat) : Status := if total ≤ len then .ok else e.status

theorem StreamEnd.follows_drop {e : StreamEnd} {m : NibbleMode} {bs cs : List Byte} (h : e.follows m bs)
    (hl : bs.length % 2 = cs.length % 2) : e.follows m cs := by
  cases e with
  | eof => trivial
  | ioerr => trivial
  | range b0 b1 => exact ⟨h.1, h.2.1, by rw [← hl]; exact h.2.2⟩

/-- Everything a fill of at most `n` slots does over a stream of legal bytes (R252). -/
theorem fillSlots_stream (n : Nat) : ∀ (b : Bool) (s : State) (bs : List Byte) (e : StreamEnd) (es : List PortEvent),
    s.eofSeen = false → s.port.ahead = bs.map .byte ++ (e.events ++ es) →
    legalBytes s.params.nibbleMode bs = true → e.follows s.params.nibbleMode bs →
    (cntOf s b).toNat + n ≤ 65536 → (bufOf s b).canon = true → s.le.toNat + n < 2 ^ 64 →
    ∃ t, fillSlots n b s = Flow.stop (e.after (4 * n) bs.length) () t ∧ Filled (cntOf s b).toNat b n bs e es s t := by
  induction n with
  | zero =>
    intro b s bs e es he hp hc hf hn hb hl
    refine ⟨s, by simp [fillSlots, StreamEnd.after, Flow.stop], ?_⟩
    exact ⟨FilledFrom.refl s, by simp, by simp, by simp [he], by simp, by simp [historyAfter], by simp [← hp], by simp,
      by simp, rfl, rfl, hb, fun k _ => by rw [if_neg (by omega)]⟩
  | succ n ih =>
    intro b s bs e es he hp hc hf hn hb hl
    by_cases hlen : bs.length < 4
    · have h0 : bs.length / 4 = 0 := by omega
      have hx : ¬ 4 * (n + 1) ≤ bs.length := by omega
      refine ⟨e.reached bs.length es s, ?_, ?_⟩
      · rw [fillSlots, powerStep_stop he hp hlen hc hf, StreamEnd.after, if_neg hx]
        unfold Flow.stop
        by_cases hs : e.status = .ok
        · rw [if_pos hs, if_pos hs]
        · rw [if_neg hs, if_neg hs]
      · have ht : (streamSamples bs).take (2 * (n + 1)) = streamSamples bs := by
          apply List.take_of_length_le; rw [length_streamSamples]; omega
        have hd : (bs.length < 4 * (n + 1) ∧ e = .eof) ↔ e = .eof := and_iff_right (by omega)
        exact ⟨rfl, by simp [hx, StreamEnd.reached], by simp [hx, StreamEnd.reached], by simp only [hd, StreamEnd.reached],
          by simp [hx, StreamEnd.reached], by rw [ht, (samplePowers_short s.hist hlen).2]; rfl,
          by simp [hx, StreamEnd.reached], by simp [h0, StreamEnd.reached], by simp [h0, StreamEnd.reached, cntOf], rfl,
          rfl, hb, fun k _ => by rw [if_neg (by omega)]; rfl⟩
    · match bs with
      | b0 :: b1 :: b2 :: b3 :: bs =>
        obtain ⟨h1, hc⟩ := legalBytes_pair hc
        obtain ⟨h3, hc⟩ := legalBytes_pair hc
        have hf : e.follows s.params.nibbleMode bs := StreamEnd.follows_drop hf (by simp; omega)
        rw [fillSlots, powerStep_quad he (by simpa using hp) h1 h3]
        simp only []
        generalize hr0 : pairSample b0 b1 = r0
        generalize hr1 : pairSample b2 b3 = r1
        generalize hs1 : ({ s with
          bytesIn := s.bytesIn + 4, hist := shiftIn s.hist r0 r1,
          port := { s.port with ahead := bs.map .byte ++ (e.events ++ es), taken := s.port.taken + 4 } } : State) = s1
        obtain ⟨s2, hs2, h2, hbuf, hbuf', hcnt, hcnt', hcan⟩ := storeSlot_spec b (powerOf (shiftIn s.hist r0 r1)) (s := s1)
          (by rw [← hs1]; show (cntOf s b).toNat < _; omega) (by rw [← hs1]; show s.le.toNat + 1 < _; omega)
          (by rw [← hs1]; exact hb)
        have hcs : cntOf s1 b = cntOf s b := by rw [← hs1]; rfl
        have hcs' : cntOf s1 (!b) = cntOf s (!b) := by rw [← hs1]; rfl
        have hbs : bufOf s1 b = bufOf s b := by rw [← hs1]; rfl
        have hbs' : bufOf s1 (!b) = bufOf s (!b) := by rw [← hs1]; rfl
        have hle2 : s2.le.toNat = s.le.toNat + 1 := by rw [h2, ← hs1]; simp; omega
        have hfr2 : FilledFrom s s2 := by unfold FilledFrom; rw [h2, ← hs1]
        have hfat2 : s2.fatal = s.fatal ∧ s2.fatalCause = s.fatalCause := by rw [h2, ← hs1]; exact ⟨rfl, rfl⟩
        have hby2 : s2.bytesIn = s.bytesIn + 4 := by rw [h2, ← hs1]
        have hhist2 : s2.hist = shiftIn s.hist r0 r1 := by rw [h2, ← hs1]
        have hport2 : s2.port =
            { s.port with ahead := bs.map .byte ++ (e.events ++ es), taken := s.port.taken + 4 } := by rw [h2, ← hs1]
        obtain ⟨t, hft, ht⟩ := ih b s2 bs e es (by rw [h2, ← hs1]; exact he) (by rw [hport2])
          (by rw [h2, ← hs1]; exact hc) (by rw [h2, ← hs1]; exact hf) (by rw [hcnt, hcs]; omega) hcan (by rw [hle2]; omega)
        have hlen4 : (b0 :: b1 :: b2 :: b3 :: bs).length = bs.length + 4 := by simp
        have hdiv : (bs.length + 4) / 4 = bs.length / 4 + 1 := by omega
        have hiff : (4 * (n + 1) ≤ bs.length + 4) ↔ (4 * n ≤ bs.length) := by omega
        have hlt : (bs.length + 4 < 4 * (n + 1)) ↔ (bs.length < 4 * n) := by omega
        refine ⟨t, by rw [hs2, hft]; simp only [StreamEnd.after, hlen4, hiff], ?_⟩
        refine ⟨hfr2.trans ht.frame, ?_, ?_, ?_, ?_, ?_, ?_, ?_, ?_, ?_, ?_, ht.canon, ?_⟩
        · rw [ht.fatal, hfat2.1]; simp only [hlen4, hiff]
        · rw [ht.cause, hfat2.2]; simp only [hlen4, hiff]
        · rw [ht.eofSeen]; simp only [hlen4, hlt]
        · rw [ht.bytesIn, hby2]
          have : (if 4 * (n + 1) ≤ bs.length + 4 then 4 * (n + 1) else bs.length + 4 + e.bytes) =
              4 + if 4 * n ≤ bs.length then 4 * n else bs.length + e.bytes := by simp only [hiff]; split <;> omega
          rw [hlen4, this, BitVec.ofNat_add, BitVec.add_assoc]; rfl
        · rw [ht.hist, streamSamples_quad, show 2 * (n + 1) = 2 * n + 1 + 1 from by omega, List.take_succ_cons,
              List.take_succ_cons, historyAfter, hhist2, hr0, hr1]
        · have hdrop : (b0 :: b1 :: b2 :: b3 :: bs).drop (4 * (n + 1)) = bs.drop (4 * n) := by
            rw [show 4 * (n + 1) = 4 * n + 1 + 1 + 1 + 1 from by omega]; simp only [List.drop_succ_cons]
          rw [ht.port, hport2, hlen4, hdrop]
          simp only [hiff, Port.mk.injEq, true_and]
          split <;> omega
        · rw [ht.le, hle2, hlen4, hdiv]; omega
        · rw [ht.cnt, hcnt, hcs, hlen4, hdiv]; omega
        · rw [ht.cntOther, hcnt', hcs']
        · rw [ht.bufOther, hbuf', hbs']
        · intro k hk
          rw [ht.slots k hk, hcnt, hcs, hhist2, hlen4, hdiv, streamSamples_quad, samplePowers, hr0, hr1, hbuf, hbs, hcs]
          rcases Nat.lt_trichotomy k (cntOf s b).toNat with hlt | heq | hgt
          · rw [if_neg (by omega), if_neg (by omega),
              PowerBuf.get_set_other _ hb (by simp [pwBatch]; omega) (by simp [pwBatch]; omega) (by omega)]
          · rw [if_neg (by omega), if_pos (by omega), heq, PowerBuf.get_set_same]
            simp
          · obtain ⟨j, rfl⟩ : ∃ j, k = (cntOf s b).toNat + 1 + j := ⟨k - (cntOf s b).toNat - 1, by omega⟩
            rw [show (cntOf s b).toNat + 1 + j - (cntOf s b).toNat = j + 1 from by omega,
              show (cntOf s b).toNat + 1 + j - ((cntOf s b).toNat + 1) = j from by omega, List.getD_cons_succ]
            by_cases hm : j < min n (bs.length / 4)
            · rw [if_pos (by omega), if_pos (by omega)]
            · rw [if_neg (by omega), if_neg (by omega),
                PowerBuf.get_set_other _ hb (by simp [pwBatch]; omega) (by simp [pwBatch]; omega) (by omega)]
      | [] => simp at hlen
      | [_] => simp at hlen
      | [_, _] => simp at hlen
      | [_, _, _] => simp at hlen

/-- A fill once EOF_SEEN is set stores nothing and empties the buffer's count (R252, R261). -/
theorem fill_ended {s : State} (b : Bool) (he : s.eofSeen = true) : fill b s = .ok () (startFill b s) := by
  have hs : (startFill b s).eofSeen = true := by cases b <;> exact he
  show fillSlots (65535 + 1) b (startFill b s) = _
  rw [fillSlots, powerStep_ended hs]

theorem startFill_frame (b : Bool) (s : State) : FilledFrom s (startFill b s) := by cases b <;> rfl

/-- Everything `PW_FILL(b)` does over a stream of legal bytes (R252). -/
theorem fill_stream (b : Bool) {s : State} {bs : List Byte} {e : StreamEnd} {es : List PortEvent} (he : s.eofSeen = false)
    (hp : s.port.ahead = bs.map .byte ++ (e.events ++ es)) (hc : legalBytes s.params.nibbleMode bs = true)
    (hf : e.follows s.params.nibbleMode bs) (hb : (bufOf s b).canon = true) (hl : s.le.toNat + 65536 < 2 ^ 64) :
    ∃ t, fill b s = Flow.stop (e.after 262144 bs.length) () t ∧ Filled 0 b 65536 bs e es s t := by
  have hbuf : ∀ c, bufOf (startFill b s) c = bufOf s c := by cases b <;> (intro c; cases c <;> rfl)
  have hc0 : (cntOf (startFill b s) b).toNat = 0 := by cases b <;> rfl
  obtain ⟨t, hft, ht⟩ := fillSlots_stream 65536 b (startFill b s) bs e es (by cases b <;> exact he)
    (by cases b <;> exact hp) (by cases b <;> exact hc) (by cases b <;> exact hf) (by rw [hc0]) (by rw [hbuf]; exact hb)
    (by cases b <;> exact hl)
  rw [hc0] at ht
  refine ⟨t, hft, (startFill_frame b s).trans ht.frame, ?_, ?_, ht.eofSeen, ?_, ?_, ?_, ?_, ht.cnt, ?_, ?_, ht.canon, ?_⟩
  · rw [ht.fatal]; cases b <;> rfl
  · rw [ht.cause]; cases b <;> rfl
  · rw [ht.bytesIn]; cases b <;> rfl
  · rw [ht.hist]; cases b <;> rfl
  · rw [ht.port]; cases b <;> rfl
  · rw [ht.le]; cases b <;> rfl
  · rw [ht.cntOther]; cases b <;> rfl
  · rw [ht.bufOther]; cases b <;> rfl
  · intro k hk
    rw [ht.slots k hk, hbuf]
    cases b <;> rfl

/-! How a stream splits at a fill's end. -/

theorem legalBytes_drop {m : NibbleMode} {bs : List Byte} (h : legalBytes m bs = true) (n : Nat) :
    legalBytes m (bs.drop (2 * n)) = true := by
  induction n generalizing bs with
  | zero => simpa using h
  | succ n ih =>
    match bs with
    | [] => cases m <;> simp [legalBytes, cleanBytes]
    | [_] => rw [List.drop_of_length_le (by simp; omega)]; cases m <;> rfl
    | b0 :: b1 :: bs =>
      rw [show 2 * (n + 1) = 2 * n + 1 + 1 from by omega]
      simpa only [List.drop_succ_cons] using ih (legalBytes_pair h).2

theorem legalBytes_append {m : NibbleMode} {bs ds : List Byte} (hn : bs.length % 2 = 0) (h : legalBytes m bs = true)
    (h' : legalBytes m ds = true) : legalBytes m (bs ++ ds) = true := by
  cases m with
  | mask => rfl
  | fault =>
    simp only [legalBytes] at *
    induction bs using streamSamples.induct with
    | case1 b0 b1 bs ih =>
      simp only [List.cons_append, cleanBytes, Bool.and_eq_true] at *
      exact ⟨h.1, ih (by simp at hn; omega) h.2⟩
    | case2 b => simp at hn
    | case3 => exact h'

theorem streamSamples_append {bs ds : List Byte} (hn : bs.length % 2 = 0) :
    streamSamples (bs ++ ds) = streamSamples bs ++ streamSamples ds := by
  induction bs using streamSamples.induct with
  | case1 b0 b1 bs ih => simp only [List.cons_append, streamSamples]; rw [ih (by simp at hn; omega)]
  | case2 b => simp at hn
  | case3 => simp [streamSamples]

theorem streamSamples_drop (bs : List Byte) (n : Nat) :
    streamSamples (bs.drop (2 * n)) = (streamSamples bs).drop n := by
  induction n generalizing bs with
  | zero => simp
  | succ n ih =>
    match bs with
    | [] => simp [streamSamples]
    | [_] => rw [List.drop_of_length_le (by simp; omega)]; simp [streamSamples]
    | b0 :: b1 :: bs =>
      rw [show 2 * (n + 1) = 2 * n + 1 + 1 from by omega, List.drop_succ_cons, List.drop_succ_cons, ih bs]
      rfl

/-- The power samples after the first `n` are those of the remaining samples after the history the first leave. -/
theorem samplePowers_drop (h : Vector Sample 8) (rs : List Sample) (n : Nat) :
    (samplePowers h rs).drop n = samplePowers (historyAfter h (rs.take (2 * n))) (rs.drop (2 * n)) := by
  induction n generalizing h rs with
  | zero => simp [historyAfter]
  | succ n ih =>
    match rs with
    | [] => simp [samplePowers, historyAfter]
    | [r] =>
      rw [show 2 * (n + 1) = 2 * n + 1 + 1 from by omega]
      simp [samplePowers]
    | r0 :: r1 :: rs =>
      rw [show 2 * (n + 1) = 2 * n + 1 + 1 from by omega]
      simp only [samplePowers, List.drop_succ_cons, List.take_succ_cons, historyAfter, ih]

/-- The power samples of a run of samples, cut at an even point. -/
theorem samplePowers_append (h : Vector Sample 8) (rs rs' : List Sample) (n : Nat) (hn : rs.length = 2 * n) :
    samplePowers h (rs ++ rs') = samplePowers h rs ++ samplePowers (historyAfter h rs) rs' := by
  induction n generalizing h rs with
  | zero => rw [List.eq_nil_of_length_eq_zero hn]; simp [historyAfter, samplePowers]
  | succ n ih =>
    match rs with
    | [] => simp at hn
    | [r] => simp at hn; omega
    | r0 :: r1 :: rs => simp only [List.cons_append, historyAfter, samplePowers]; rw [ih _ _ (by simp at hn; omega)]

/-- The history after a run of samples, cut at an even point. -/
theorem historyAfter_append (h : Vector Sample 8) (rs rs' : List Sample) (n : Nat) (hn : rs.length = 2 * n) :
    historyAfter h (rs ++ rs') = historyAfter (historyAfter h rs) rs' := by
  induction n generalizing h rs with
  | zero => rw [List.eq_nil_of_length_eq_zero hn]; simp [historyAfter]
  | succ n ih =>
    match rs with
    | [] => simp at hn
    | [r] => simp at hn; omega
    | r0 :: r1 :: rs => simp only [List.cons_append, historyAfter]; exact ih _ _ (by simp at hn; omega)

/-! Both buffers. -/

theorem StreamEnd.after_ok_iff {e : StreamEnd} {total len : Nat} :
    (total ≤ len ∨ e.status = .ok) ↔ e.after total len = .ok := by unfold StreamEnd.after; split <;> simp [*]

theorem StreamEnd.eof_of_ok {e : StreamEnd} (h : e.status = .ok) : e = .eof := by cases e <;> simp_all [StreamEnd.status]

/-- What the two fills of INIT leave, over a stream of the bytes `bs`, then `e`, then `es` (R252, R358). -/
structure FilledBoth (bs : List Byte) (e : StreamEnd) (es : List PortEvent) (s t : State) : Prop where
  frame : FilledFrom s t
  fatal : t.fatal = if e.after 524288 bs.length = .ok then s.fatal else true
  cause : t.fatalCause = if e.after 524288 bs.length = .ok then s.fatalCause else e.status
  eofSeen : t.eofSeen = decide (bs.length < 524288 ∧ e = .eof)
  bytesIn : t.bytesIn = s.bytesIn + BitVec.ofNat 64 (if 524288 ≤ bs.length then 524288 else bs.length + e.bytes)
  hist : t.hist = historyAfter s.hist ((streamSamples bs).take 262144)
  port : t.port = { s.port with
    ahead := if 524288 ≤ bs.length then (bs.drop 524288).map .byte ++ (e.events ++ es) else es,
    taken := s.port.taken + if 524288 ≤ bs.length then 524288 else bs.length + e.events.length }
  le : t.le.toNat = s.le.toNat + min 131072 (bs.length / 4)
  cnt0 : t.cnt0.toNat = min 65536 (bs.length / 4)
  cnt1 : e.after 262144 bs.length = .ok → t.cnt1.toNat = min 65536 (bs.length / 4 - 65536)
  cnt1Kept : e.after 262144 bs.length ≠ .ok → t.cnt1 = s.cnt1
  slots : ∀ x, x < 131072 → (if x < 65536 then t.buf0.get x else t.buf1.get (x - 65536)) =
    if x < bs.length / 4 then (samplePowers s.hist (streamSamples bs)).getD x 0
    else if x < 65536 then s.buf0.get x else s.buf1.get (x - 65536)

/-- Everything the two fills of INIT do over a stream of legal bytes (R141, R252, R358). -/
theorem fillInitial_stream {s : State} {bs : List Byte} {e : StreamEnd} {es : List PortEvent}
    (hc : legalBytes s.params.nibbleMode bs = true) (hfo : e.follows s.params.nibbleMode bs)
    (he : s.eofSeen = false) (hp : s.port.ahead = bs.map .byte ++ (e.events ++ es)) (hle : s.le.toNat + 131072 < 2 ^ 64)
    (hb0 : s.buf0.canon = true) (hb1 : s.buf1.canon = true) :
    ∃ t, fillInitial s = Flow.stop (e.after 524288 bs.length) () t ∧ FilledBoth bs e es s t := by
  obtain ⟨t, hf, ht⟩ := fill_stream false he hp hc hfo hb0 (by omega)
  unfold fillInitial
  rw [hf, Flow.stop_bind]
  have cnt := ht.cnt; have cntO := ht.cntOther; have bufO := ht.bufOther; have slots := ht.slots
  have a1 := ht.fatal; have a2 := ht.cause; have a3 := ht.eofSeen; have a4 := ht.bytesIn; have a5 := ht.port; have a6 := ht.hist
  have hle1 := ht.le
  simp only [bufOf, cntOf, Bool.not_false, if_true, Bool.false_eq_true, if_false] at cnt cntO bufO slots
  have slots : ∀ k, k < 65536 → t.buf0.get k = if k < bs.length / 4 then (samplePowers s.hist (streamSamples bs)).getD k 0
      else s.buf0.get k := by
    intro k hk
    rw [slots k hk]
    by_cases hx : k < bs.length / 4
    · rw [if_pos (by omega), if_pos hx]; rfl
    · rw [if_neg (by omega), if_neg hx]
  simp only [show 4 * 65536 = 262144 from rfl, show 2 * 65536 = 131072 from rfl] at a1 a2 a3 a4 a5 a6
  by_cases hx : 262144 ≤ bs.length
  · have hok : e.after 262144 bs.length = .ok := by simp [StreamEnd.after, hx]
    simp only [hx, true_or, if_true] at a1 a2 a4 a5
    have hhist := a6
    obtain ⟨u, huf, hu⟩ := fill_stream true (s := t) (by rw [a3]; simp; omega) (by rw [a5])
      (by rw [ht.frame]; exact (show 2 * 131072 = 262144 from by norm_num) ▸ legalBytes_drop hc 131072)
      (by rw [ht.frame]; exact StreamEnd.follows_drop hfo (by simp; omega)) (by show t.buf1.canon = _; rw [bufO]; exact hb1)
      (by omega)
    have ucnt := hu.cnt; have ucntO := hu.cntOther; have ubufO := hu.bufOther; have uslots := hu.slots
    have u1 := hu.fatal; have u2 := hu.cause; have u3 := hu.eofSeen; have u4 := hu.bytesIn; have u5 := hu.port
    have u6 := hu.hist
    have ule := hu.le
    simp only [bufOf, cntOf, Bool.not_true, if_true, Bool.false_eq_true, if_false] at ucnt ucntO ubufO uslots
    simp only [List.length_drop, show 4 * 65536 = 262144 from rfl] at *
    have hsd : streamSamples (bs.drop 262144) = (streamSamples bs).drop 131072 := by
      have := streamSamples_drop bs 131072
      rwa [show 2 * 131072 = 262144 from by norm_num] at this
    have htk : (streamSamples bs).take 262144 =
        (streamSamples bs).take 131072 ++ ((streamSamples bs).drop 131072).take 131072 := by
      rw [← List.take_add]
    have hn : 262144 ≤ bs.length - 262144 ↔ 524288 ≤ bs.length := by omega
    have hn' : bs.length - 262144 < 262144 ↔ bs.length < 524288 := by omega
    have haft : e.after 262144 (bs.length - 262144) = e.after 524288 bs.length := by simp only [StreamEnd.after, hn]
    rw [if_pos hok, huf, haft]
    simp only [hn, hn', StreamEnd.after_ok_iff] at u1 u2 u3 u4 u5
    refine ⟨u, rfl, ht.frame.trans hu.frame, by rw [u1, a1], by rw [u2, a2], u3, ?_, ?_, ?_, by omega, by rw [ucntO]; omega,
      fun _ => by omega, fun h => absurd hok h, ?_⟩
    · rw [u4, a4, BitVec.add_assoc, ← BitVec.ofNat_add]
      rw [show (262144 + if 524288 ≤ bs.length then 262144 else bs.length - 262144 + e.bytes) =
        if 524288 ≤ bs.length then 524288 else bs.length + e.bytes from by split <;> omega]
    · rw [u6, hhist, hsd, ← historyAfter_append (n := 65536)]
      · rw [← htk]
      · rw [List.length_take, length_streamSamples]; omega
    · rw [u5, a5]; simp only [List.drop_drop, Port.mk.injEq, true_and]; split <;> omega
    · intro x hx'
      by_cases hx6 : x < 65536
      · rw [if_pos hx6, ubufO, slots x hx6]; simp only [hx6, if_true]
      · rw [if_neg hx6, uslots (x - 65536) (by omega), hhist, hsd, bufO, if_neg hx6]
        by_cases hxx : x < bs.length / 4
        · rw [if_pos (by omega), if_pos hxx, ← samplePowers_drop s.hist (streamSamples bs) 65536, List.getD_eq_getElem?_getD,
            List.getD_eq_getElem?_getD, List.getElem?_drop, show 65536 + (x - 65536 - 0) = x from by omega]
        · rw [if_neg (by omega), if_neg hxx]
  · have hlast : e.after 262144 bs.length = e.after 524288 bs.length := by
      simp only [StreamEnd.after, if_neg hx, if_neg (show ¬ 524288 ≤ bs.length by omega)]
    have hn : ¬ 524288 ≤ bs.length := by omega
    have hsam : (streamSamples bs).take 131072 = (streamSamples bs).take 262144 := by
      rw [List.take_of_length_le (by rw [length_streamSamples]; omega),
        List.take_of_length_le (by rw [length_streamSamples]; omega)]
    have sl : ∀ x, x < 131072 → (if x < 65536 then t.buf0.get x else t.buf1.get (x - 65536)) =
        if x < bs.length / 4 then (samplePowers s.hist (streamSamples bs)).getD x 0
        else if x < 65536 then s.buf0.get x else s.buf1.get (x - 65536) := by
      intro x _
      by_cases hx6 : x < 65536
      · rw [if_pos hx6, slots x hx6]; simp only [hx6, if_true]
      · rw [if_neg hx6, if_neg (by omega), if_neg hx6, bufO]
    have ha3 : t.eofSeen = decide (bs.length < 524288 ∧ e = .eof) := by
      rw [a3]; congr 1; simp only [eq_iff_iff]; constructor <;> (rintro ⟨h, rfl⟩; exact ⟨by omega, rfl⟩)
    simp only [StreamEnd.after_ok_iff, hlast] at a1 a2
    simp only [if_neg hx] at a4 a5
    rw [hlast]
    by_cases hok : e.after 524288 bs.length = .ok
    · have heof : e = .eof := StreamEnd.eof_of_ok (by simpa [StreamEnd.after, hn] using hok)
      rw [if_pos hok, fill_ended true (by rw [a3]; simp [heof]; omega), hok]
      refine ⟨_, rfl, ht.frame.trans (startFill_frame true t), a1, a2, ha3, ?_, ?_, ?_, ?_, ?_, ?_, ?_, sl⟩
      · rw [if_neg hn]; exact a4
      · rw [← hsam]; exact a6
      · rw [if_neg hn, if_neg hn]; exact a5
      · show t.le.toNat = _; omega
      · show t.cnt0.toNat = _; omega
      · intro _; show 0 = _; omega
      · intro h; rw [hlast] at h; exact absurd hok h
    · rw [if_neg hok]
      refine ⟨t, by unfold Flow.stop; rw [if_neg hok], ht.frame, a1, a2, ha3, ?_, ?_, ?_, ?_, ?_, ?_, fun _ => cntO, sl⟩
      · rw [if_neg hn]; exact a4
      · rw [← hsam]; exact a6
      · rw [if_neg hn, if_neg hn]; exact a5
      · omega
      · omega
      · intro h; rw [hlast] at h; exact absurd h hok

end Sys2Proof.Machine
end

