-- ==== Sys2Proof/Laws/Power.lean ====
section
/-! SUPPORT. `POWER(H)` is exact and bounded (44_power_computer.md R231, R235). -/

namespace Sys2Proof.Machine

/-- A centred sample lies in -2048..2047 (R210). -/
theorem sample_range (v : Sample) : -2048 ≤ v.toInt ∧ v.toInt ≤ 2047 := by
  have h1 := BitVec.le_toInt v
  have h2 := BitVec.toInt_lt (x := v)
  norm_num at h1 h2
  omega

/-- A bracket of four samples with alternating signs lies in -8190..8190, so its square is at most 67076100 (R235). -/
theorem bracket_sq_le {a b c d : Int} (ha : -2048 ≤ a ∧ a ≤ 2047) (hb : -2048 ≤ b ∧ b ≤ 2047)
    (hc : -2048 ≤ c ∧ c ≤ 2047) (hd : -2048 ≤ d ∧ d ≤ 2047) : (a - b + c - d) ^ 2 ≤ 67076100 := by
  have h1 : -8190 ≤ a - b + c - d := by omega
  have h2 : a - b + c - d ≤ 8190 := by omega
  nlinarith

theorem powerOf_sum_le (h : Vector Sample 8) : oddBracket h ^ 2 + evenBracket h ^ 2 ≤ 134152200 := by
  have h1 := bracket_sq_le (sample_range h[7]) (sample_range h[5]) (sample_range h[3]) (sample_range h[1])
  have h2 := bracket_sq_le (sample_range h[6]) (sample_range h[4]) (sample_range h[2]) (sample_range h[0])
  unfold oddBracket evenBracket
  omega

/-- The 27-bit power sample is the exact sum of the two squares (R231, R235). -/
theorem powerOf_toNat (h : Vector Sample 8) : ((powerOf h).toNat : Int) = oddBracket h ^ 2 + evenBracket h ^ 2 := by
  have hle := powerOf_sum_le h
  have h0 : 0 ≤ oddBracket h ^ 2 + evenBracket h ^ 2 := by positivity
  rw [powerOf, BitVec.toNat_ofInt]
  omega

/-- No power sample exceeds 134152200 (R235). -/
theorem powerOf_le (h : Vector Sample 8) : (powerOf h).toNat ≤ maxPower := by
  have h1 := powerOf_toNat h
  have h2 := powerOf_sum_le h
  unfold maxPower
  omega

end Sys2Proof.Machine
end

