-- ==== Sys2Proof/Laws/Window.lean ====
section
/-! SUPPORT. The window step, once: inside a buffer, at a boundary, and how it can end (45_power_window.md R253). -/

namespace Sys2Proof.Machine

open Sys2Proof.Config

/-- Inside a buffer a window step moves `POS` and nothing else. -/
theorem wstep_inside {s : State} (h : s.pos.toNat % 65536 < 65535) : wstep s = .ok () { s with pos := s.pos + 1 } := by
  have h1 : s.pos ≠ BitVec.allOnes 64 := by intro h'; rw [h'] at h; simp at h
  have h2 : ({ s with pos := s.pos + 1 } : State).pos.toNat % pwBatch ≠ 0 := by
    show (s.pos + 1).toNat % 65536 ≠ 0
    rw [BitVec.toNat_add]; simp; omega
  have hm : movePos s = { s with pos := s.pos + 1 } := by unfold movePos; simp only; rw [if_neg h2]
  unfold wstep
  rw [if_neg h1, hm, if_neg h2]

/-- `n` window steps that cross no boundary. -/
theorem wsteps_inside {n : Nat} {s : State} (h : s.pos.toNat % 65536 + n < 65536) :
    wsteps n s = .ok () { s with pos := s.pos + BitVec.ofNat 64 n } := by
  induction n generalizing s with
  | zero => simp [wsteps]
  | succ n ih =>
    rw [wsteps, wstep_inside (by omega)]
    simp only
    rw [ih (by simp [BitVec.toNat_add]; omega)]
    simp only [Flow.ok.injEq, true_and, State.mk.injEq, and_true]
    rw [BitVec.ofNat_add, BitVec.add_assoc, BitVec.add_comm (1 : Word64)]
    rfl

/-- At a boundary a window step swaps the buffers and fills the old current one. -/
theorem wstep_boundary {s : State} (h : s.pos.toNat % 65536 = 65535) (h1 : s.pos ≠ BitVec.allOnes 64) :
    wstep s = fill s.sel { s with pos := s.pos + 1, sel := !s.sel } := by
  have hb : s.pos.toNat ≠ 2 ^ 64 - 1 := by intro h'; apply h1; apply BitVec.eq_of_toNat_eq; rw [h']; rfl
  have h2 : ({ s with pos := s.pos + 1 } : State).pos.toNat % pwBatch = 0 := by
    show (s.pos + 1).toNat % 65536 = 0
    rw [BitVec.toNat_add]; simp; omega
  have hm : movePos s = { s with pos := s.pos + 1, sel := !s.sel } := by unfold movePos; simp only; rw [if_pos h2]
  unfold wstep
  rw [if_neg h1, hm, if_pos h2, Bool.not_not]

/-! A part of the sample chain that ends a command ends it with OVERFLOW or a fatal status. -/

theorem readSample_ended_fatal {s t : State} {st : Status} (h : readSample s = .ended st t) :
    t.fatal = true ∧ t.fatalCause = st ∧ (st = .ioError ∨ st = .sampleRange) := by
  unfold readSample at h
  split at h
  · simp at h
  · cases h1 : portRead s with
    | stuck why => simp [h1] at h
    | ended st' s' => exact absurd h1 (portRead_not_ended _ _ _)
    | ok e0 s1 =>
      rw [h1] at h
      cases e0 with
      | eof => simp at h
      | ioerr => simp [raiseFatal] at h; obtain ⟨rfl, rfl⟩ := h; simp
      | byte b0 =>
        simp only [Flow.bind_ok] at h
        cases h2 : portRead (countByte s1) with
        | stuck why => simp [h2] at h
        | ended st' s' => exact absurd h2 (portRead_not_ended _ _ _)
        | ok e1 s2 =>
          rw [h2] at h
          cases e1 with
          | eof => simp at h
          | ioerr => simp [raiseFatal] at h; obtain ⟨rfl, rfl⟩ := h; simp
          | byte b1 =>
            simp only [Flow.bind_ok, assembleSample] at h
            split at h
            · split at h
              · simp [raiseFatal] at h; obtain ⟨rfl, rfl⟩ := h; simp
              · simp at h
            · simp at h

theorem powerStep_ended_fatal {s t : State} {st : Status} (h : powerStep s = .ended st t) :
    t.fatal = true ∧ t.fatalCause = st ∧ (st = .ioError ∨ st = .sampleRange) := by
  unfold powerStep at h
  cases h1 : readSample s with
  | stuck why => simp [h1] at h
  | ended st' s' => simp [h1] at h; obtain ⟨rfl, rfl⟩ := h; exact readSample_ended_fatal h1
  | ok r0 s1 =>
    cases r0 with
    | none => simp [h1] at h
    | some r0 =>
      cases h2 : readSample s1 with
      | stuck why => simp [h1, h2] at h
      | ended st' s' => simp [h1, h2] at h; obtain ⟨rfl, rfl⟩ := h; exact readSample_ended_fatal h2
      | ok r1 s2 => cases r1 <;> simp [h1, h2] at h

theorem fillSlots_ended_fatal {n : Nat} {b : Bool} {s t : State} {st : Status} (h : fillSlots n b s = .ended st t) :
    t.fatal = true ∧ t.fatalCause = st ∧ (st = .ioError ∨ st = .sampleRange) := by
  induction n generalizing s with
  | zero => simp [fillSlots] at h
  | succ n ih =>
    simp only [fillSlots] at h
    cases h1 : powerStep s with
    | stuck why => simp [h1] at h
    | ended st' s' => simp [h1] at h; obtain ⟨rfl, rfl⟩ := h; exact powerStep_ended_fatal h1
    | ok r s1 =>
      cases r with
      | none => simp [h1] at h
      | some p => simp only [h1] at h; exact ih h

/-- A window step that ends a command ends it with OVERFLOW, nothing changed, or with a fatal status (R253, R358). -/
theorem wstep_ended {s t : State} {st : Status} (h : wstep s = .ended st t) :
    (st = .overflow ∧ t = s) ∨ (t.fatal = true ∧ t.fatalCause = st ∧ (st = .ioError ∨ st = .sampleRange)) := by
  unfold wstep at h
  split at h
  · simp at h; exact .inl ⟨h.1.symm, h.2.symm⟩
  · split at h
    · exact .inr (fillSlots_ended_fatal h)
    · simp at h

/-! What the sample chain leaves as it was. -/

theorem filledFrom_keeps (s : State) : FillKeeps (FilledFrom s) where
  take := fun t e p _ h => by unfold FilledFrom at *; rw [h]
  count := fun t h => by unfold FilledFrom at *; rw [h]; rfl
  sawEof := fun t h => by unfold FilledFrom at *; rw [h]
  failed := fun t st _ h => by unfold FilledFrom at *; rw [h]
  insert := fun t r0 r1 h => by unfold FilledFrom at *; rw [h]; rfl
  start := fun t b h => by unfold FilledFrom at *; rw [h]; cases b <;> rfl
  store := fun t b hh h => by unfold FilledFrom at *; rw [h]; cases b <;> rfl

/-- The frame of a sample read, a power step and a fill. -/
theorem fillSlots_frame {n : Nat} {b : Bool} {s t : State} (hl : (fillSlots n b s).Leaves t) : FilledFrom s t :=
  fillSlots_keeps (filledFrom_keeps s) (FilledFrom.refl s) hl

theorem powerStep_frame {s t : State} (hl : (powerStep s).Leaves t) : FilledFrom s t :=
  powerStep_keeps (filledFrom_keeps s).toPairKeeps (FilledFrom.refl s) hl

theorem readSample_frame {s t : State} (hl : (readSample s).Leaves t) : FilledFrom s t :=
  readSample_keeps (filledFrom_keeps s).toReadKeeps (FilledFrom.refl s) hl

theorem assembleSample_ok {b0 b1 : Byte} {s t : State} {v : Option Sample} (h : assembleSample b0 b1 s = .ok v t) :
    t = s := by
  unfold assembleSample at h
  split at h
  · split at h
    · simp [raiseFatal] at h
    · simp only [Flow.ok.injEq] at h; exact h.2.symm
  · simp only [Flow.ok.injEq] at h; exact h.2.symm

/-- A sample read that goes on raises nothing (R356). -/
theorem readSample_ok_fatal {s t : State} {v : Option Sample} (h : readSample s = .ok v t) :
    t.fatal = s.fatal ∧ t.fatalCause = s.fatalCause := by
  unfold readSample at h
  split at h
  · simp only [Flow.ok.injEq] at h; rw [h.2]; exact ⟨rfl, rfl⟩
  · cases h1 : portRead s with
    | stuck why => simp [h1] at h
    | ended st' s' => exact absurd h1 (portRead_not_ended _ _ _)
    | ok e0 s1 =>
      obtain ⟨p, -, rfl⟩ := portRead_ok h1
      rw [h1] at h
      cases e0 with
      | eof => simp only [Flow.bind_ok, Flow.ok.injEq] at h; rw [← h.2]; exact ⟨rfl, rfl⟩
      | ioerr => simp [raiseFatal] at h
      | byte b0 =>
        simp only [Flow.bind_ok] at h
        cases h2 : portRead (countByte { s with port := p }) with
        | stuck why => simp [h2] at h
        | ended st' s' => exact absurd h2 (portRead_not_ended _ _ _)
        | ok e1 s2 =>
          obtain ⟨p', -, rfl⟩ := portRead_ok h2
          rw [h2] at h
          cases e1 with
          | eof => simp only [Flow.bind_ok, Flow.ok.injEq] at h; rw [← h.2]; exact ⟨rfl, rfl⟩
          | ioerr => simp [raiseFatal] at h
          | byte b1 => rw [assembleSample_ok h]; exact ⟨rfl, rfl⟩

theorem powerStep_ok_fatal {s t : State} {p : Option Power} (h : powerStep s = .ok p t) :
    t.fatal = s.fatal ∧ t.fatalCause = s.fatalCause := by
  unfold powerStep at h
  cases h1 : readSample s with
  | stuck why => simp [h1] at h
  | ended st' s' => simp [h1] at h
  | ok r0 s1 =>
    have e1 := readSample_ok_fatal h1
    cases r0 with
    | none => simp [h1] at h; rw [← h.2]; exact e1
    | some r0 =>
      cases h2 : readSample s1 with
      | stuck why => simp [h1, h2] at h
      | ended st' s' => simp [h1, h2] at h
      | ok r1 s2 =>
        have e2 := readSample_ok_fatal h2
        rw [e1.1, e1.2] at e2
        cases r1 with
        | none => simp [h1, h2] at h; rw [← h.2]; exact e2
        | some r1 => simp only [h1, h2, Flow.bind_ok, Flow.ok.injEq] at h; rw [← h.2]; exact e2

theorem fillSlots_ok_fatal {n : Nat} {b : Bool} {s t : State} {u : Unit} (h : fillSlots n b s = .ok u t) :
    t.fatal = s.fatal ∧ t.fatalCause = s.fatalCause := by
  induction n generalizing s with
  | zero => simp only [fillSlots, Flow.ok.injEq] at h; rw [h.2]; exact ⟨rfl, rfl⟩
  | succ n ih =>
    simp only [fillSlots] at h
    cases h1 : powerStep s with
    | stuck why => simp [h1] at h
    | ended st' s' => simp [h1] at h
    | ok r s1 =>
      have e1 := powerStep_ok_fatal h1
      cases r with
      | none => simp [h1] at h; rw [← h]; exact e1
      | some p =>
        simp only [h1] at h
        have e2 := ih h
        have e3 : (storeSlot b p s1).fatal = s1.fatal ∧ (storeSlot b p s1).fatalCause = s1.fatalCause := by
          cases b <;> exact ⟨rfl, rfl⟩
        rw [e2.1, e2.2, e3.1, e3.2]
        exact e1

/-- Everything a window step that goes on can do: `POS` one further, the buffers swapped at a boundary, and what a fill
writes; it raises nothing (R253). -/
theorem wstep_ok {s t : State} {u : Unit} (h : wstep s = .ok u t) :
    s.pos ≠ BitVec.allOnes 64 ∧
      t = { s with
            pos := s.pos + 1, sel := if s.pos.toNat % 65536 = 65535 then !s.sel else s.sel, eofSeen := t.eofSeen,
            bytesIn := t.bytesIn, hist := t.hist, buf0 := t.buf0, buf1 := t.buf1, cnt0 := t.cnt0, cnt1 := t.cnt1,
            le := t.le, port := t.port } := by
  by_cases h1 : s.pos = BitVec.allOnes 64
  · unfold wstep at h; rw [if_pos h1] at h; simp at h
  · refine ⟨h1, ?_⟩
    by_cases h2 : s.pos.toNat % 65536 = 65535
    · rw [wstep_boundary h2 h1] at h
      have hf : FilledFrom { s with pos := s.pos + 1, sel := !s.sel } t := by
        refine fill_keeps (filledFrom_keeps _) (FilledFrom.refl _) (b := s.sel) ?_
        rw [h]; rfl
      have hfat : t.fatal = s.fatal ∧ t.fatalCause = s.fatalCause := by
        have := fillSlots_ok_fatal h
        cases hb : s.sel <;> (rw [hb] at this; exact this)
      unfold FilledFrom at hf
      rw [hfat.1, hfat.2] at hf
      rw [if_pos h2]
      exact hf
    · rw [wstep_inside (by omega)] at h
      simp only [Flow.ok.injEq] at h
      rw [if_neg h2, ← h.2]

/-! The sample chain waits only at a port that waits (R81). -/

theorem assembleSample_goes_on (b0 b1 : Byte) (s : State) (why : Fault) : assembleSample b0 b1 s ≠ .stuck why := by
  unfold assembleSample
  split
  · split <;> simp [raiseFatal]
  · simp

theorem readSample_goes_on {s : State} (h : s.port.rest ≠ .waits) (why : Fault) :
    readSample s ≠ .stuck why := by
  unfold readSample
  split
  · simp
  · obtain ⟨e0, p, h1, ht⟩ := portRead_goes_on h
    rw [h1]
    cases e0 with
    | eof => simp
    | ioerr => simp [raiseFatal]
    | byte b0 =>
      have h2 : (countByte { s with port := p }).port.rest ≠ .waits := by
        show p.rest ≠ _; rw [(Port.take_cases ht).2.1]; exact h
      obtain ⟨e1, p', h3, -⟩ := portRead_goes_on h2
      simp only [Flow.bind_ok, h3]
      cases e1 with
      | eof => simp
      | ioerr => simp [raiseFatal]
      | byte b1 => exact assembleSample_goes_on _ _ _ _

/-- The port's rest is what the sample chain never changes (R81). -/
theorem restKept (k : PortRest) : ReadKeeps fun s => s.port.rest = k where
  take := fun s e p hp h => by show p.rest = k; rw [(Port.take_cases hp).2.1]; exact h
  count := fun s h => h
  sawEof := fun s h => h
  failed := fun s st _ h => h

theorem powerStep_goes_on {s : State} (h : s.port.rest ≠ .waits) (why : Fault) :
    powerStep s ≠ .stuck why := by
  unfold powerStep
  cases h1 : readSample s with
  | stuck why' => exact absurd h1 (readSample_goes_on h _)
  | ended st s' => simp
  | ok r0 s1 =>
    have hr : s1.port.rest = s.port.rest := readSample_keeps (restKept s.port.rest) rfl (by rw [h1]; rfl)
    cases r0 with
    | none => simp
    | some r0 =>
      simp only [Flow.bind_ok]
      cases h2 : readSample s1 with
      | stuck why' => exact absurd h2 (readSample_goes_on (by rw [hr]; exact h) _)
      | ended st s' => simp
      | ok r1 s2 => cases r1 <;> simp

theorem powerStep_rest {s t : State} (hl : (powerStep s).Leaves t) : t.port.rest = s.port.rest :=
  powerStep_keeps { toReadKeeps := restKept s.port.rest, insert := fun _ _ _ h => h } rfl hl

theorem fillSlots_goes_on {n : Nat} {b : Bool} {s : State} (h : s.port.rest ≠ .waits) (why : Fault) :
    fillSlots n b s ≠ .stuck why := by
  induction n generalizing s with
  | zero => simp [fillSlots]
  | succ n ih =>
    simp only [fillSlots]
    cases h1 : powerStep s with
    | stuck why' => exact absurd h1 (powerStep_goes_on h _)
    | ended st s' => simp
    | ok r s1 =>
      cases r with
      | none => simp
      | some p =>
        refine ih (s := storeSlot b p s1) ?_
        have := powerStep_rest (t := s1) (by rw [h1]; rfl)
        cases b <;> (show s1.port.rest ≠ _; rw [this]; exact h)

theorem wstep_goes_on {s : State} (h : s.port.rest ≠ .waits) (why : Fault) :
    wstep s ≠ .stuck why := by
  unfold wstep
  split
  · simp
  · split
    · refine fillSlots_goes_on ?_ why
      have hm : (movePos s).port = s.port := by unfold movePos; simp only; split <;> rfl
      cases (!(movePos s).sel) <;> (show (movePos s).port.rest ≠ _; rw [hm]; exact h)
    · simp

end Sys2Proof.Machine
end

