-- ==== Sys2Proof/Laws/Taken.lean ====
section
/-! SUPPORT. What a sample read, a power step and a fill that go on have taken from the port, whatever port it is: a run of
legal bytes, and everything they wrote is that run's. -/

namespace Sys2Proof.Machine

open Sys2Proof.Config

theorem legalBytes_pair_iff {m : NibbleMode} {b0 b1 : Byte} {bs : List Byte} :
    legalBytes m (b0 :: b1 :: bs) = true ↔ (b1.toNat < 16 ∨ m = .mask) ∧ legalBytes m bs = true := by
  refine ⟨legalBytes_pair, ?_⟩
  rintro ⟨h, h'⟩
  cases m with
  | fault => simpa [legalBytes, cleanBytes] using ⟨h.resolve_right (by simp), h'⟩
  | mask => rfl

theorem assembleSample_taken {b0 b1 : Byte} {s t : State} {v : Option Sample} (h : assembleSample b0 b1 s = .ok v t) :
    (b1.toNat < 16 ∨ s.params.nibbleMode = .mask) ∧ v = some (pairSample b0 b1) ∧ t = s := by
  have hl : b1.toNat < 16 ∨ s.params.nibbleMode = .mask := by
    by_cases hb : b1.toNat < 16
    · exact .inl hb
    · cases hm : s.params.nibbleMode with
      | mask => exact .inr rfl
      | fault => rw [assembleSample_range (by omega) hm] at h; simp [raiseFatal] at h
  rw [assembleSample_legal hl] at h
  simp only [Flow.ok.injEq] at h
  exact ⟨hl, h.1.symm, h.2.symm⟩

/-- A sample read that goes on: EOF_SEEN was set and it read nothing, or it took a whole legal pair, or it took at most one
byte and saw the end (R211, R213). -/
theorem readSample_taken {s t : State} {v : Option Sample} (h : readSample s = .ok v t) :
    (s.eofSeen = true ∧ v = none ∧ t = s) ∨
    (∃ b0 b1 p, (b1.toNat < 16 ∨ s.params.nibbleMode = .mask) ∧ v = some (pairSample b0 b1) ∧
      t = { s with bytesIn := s.bytesIn + 2, port := p } ∧ s.eofSeen = false) ∨
    (∃ (bs : List Byte) (p : Port), bs.length < 2 ∧ v = none ∧
      t = { s with eofSeen := true, bytesIn := s.bytesIn + BitVec.ofNat 64 bs.length, port := p } ∧ s.eofSeen = false) := by
  cases he : s.eofSeen with
  | true => rw [readSample_ended he] at h; simp only [Flow.ok.injEq] at h; exact .inl ⟨rfl, h.1.symm, h.2.symm⟩
  | false =>
    unfold readSample at h
    rw [if_neg (by simp [he])] at h
    cases h1 : portRead s with
    | stuck why => simp [h1] at h
    | ended st' s' => exact absurd h1 (portRead_not_ended _ _ _)
    | ok e0 s1 =>
      obtain ⟨p, -, rfl⟩ := portRead_ok h1
      rw [h1] at h
      cases e0 with
      | eof =>
        simp only [Flow.bind_ok, Flow.ok.injEq] at h
        exact .inr (.inr ⟨[], p, by simp, h.1.symm, by rw [← h.2]; simp, rfl⟩)
      | ioerr => simp [raiseFatal] at h
      | byte b0 =>
        simp only [Flow.bind_ok] at h
        cases h2 : portRead (countByte { s with port := p }) with
        | stuck why => simp [h2] at h
        | ended st' s' => exact absurd h2 (portRead_not_ended _ _ _)
        | ok e1 s2 =>
          obtain ⟨p', -, rfl⟩ := portRead_ok h2
          rw [h2] at h
          cases e1 with
          | eof =>
            simp only [Flow.bind_ok, Flow.ok.injEq] at h
            exact .inr (.inr ⟨[b0], p', by simp, h.1.symm, by rw [← h.2]; rfl, rfl⟩)
          | ioerr => simp [raiseFatal] at h
          | byte b1 =>
            obtain ⟨hl, hv, ht⟩ := assembleSample_taken h
            refine .inr (.inl ⟨b0, b1, p', hl, hv, ?_, rfl⟩)
            rw [ht]
            simp only [countByte, State.mk.injEq, true_and, and_true]
            exact ⟨he.symm ▸ rfl, BitVec.add_assoc _ 1 1⟩

/-- A power step that goes on: EOF_SEEN was set and it read nothing, or it took four legal bytes and moved the history on, or
it took at most three and saw the end (R232). -/
theorem powerStep_taken {s t : State} {v : Option Power} (h : powerStep s = .ok v t) :
    (s.eofSeen = true ∧ v = none ∧ t = s) ∨
    (∃ b0 b1 b2 b3 p, legalBytes s.params.nibbleMode [b0, b1, b2, b3] = true ∧
      v = some (powerOf (shiftIn s.hist (pairSample b0 b1) (pairSample b2 b3))) ∧
      t = { s with
            bytesIn := s.bytesIn + 4, hist := shiftIn s.hist (pairSample b0 b1) (pairSample b2 b3), port := p } ∧
      s.eofSeen = false) ∨
    (∃ (bs : List Byte) (p : Port), bs.length < 4 ∧ legalBytes s.params.nibbleMode bs = true ∧ v = none ∧
      t = { s with eofSeen := true, bytesIn := s.bytesIn + BitVec.ofNat 64 bs.length, port := p } ∧ s.eofSeen = false) := by
  have hshort : ∀ (m : NibbleMode) (bs : List Byte), bs.length < 2 → legalBytes m bs = true := by
    intro m bs hl
    match bs with
    | [] => cases m <;> rfl
    | [_] => cases m <;> rfl
    | _ :: _ :: _ => simp at hl
  unfold powerStep at h
  cases h1 : readSample s with
  | stuck why => simp [h1] at h
  | ended st' s' => simp [h1] at h
  | ok r0 s1 =>
    rw [h1, Flow.bind_ok] at h
    rcases readSample_taken h1 with ⟨he, rfl, rfl⟩ | ⟨b0, b1, p, hl0, rfl, rfl, he⟩ | ⟨bs, p, hbs, rfl, rfl, he⟩
    · simp only [Flow.ok.injEq] at h
      exact .inl ⟨he, h.1.symm, h.2.symm⟩
    · simp only [] at h
      cases h2 : readSample { s with bytesIn := s.bytesIn + 2, port := p } with
      | stuck why => rw [h2] at h; simp at h
      | ended st' s' => rw [h2] at h; simp at h
      | ok r1 s2 =>
        rw [h2, Flow.bind_ok] at h
        rcases readSample_taken h2 with ⟨he', -, -⟩ | ⟨b2, b3, p', hl1, rfl, rfl, -⟩ | ⟨bs, p', hbs, rfl, rfl, -⟩
        · exact absurd he' (by simp [he])
        · simp only [Flow.ok.injEq] at h
          refine .inr (.inl ⟨b0, b1, b2, b3, p', ?_, h.1.symm, ?_, he⟩)
          · rw [legalBytes_pair_iff, legalBytes_pair_iff]; exact ⟨hl0, hl1, hshort _ _ (by simp)⟩
          · rw [← h.2]
            simp only [insertPair, State.mk.injEq, true_and, and_true]
            bv_omega
        · simp only [Flow.ok.injEq] at h
          refine .inr (.inr ⟨b0 :: b1 :: bs, p', by simp; omega, ?_, h.1.symm, ?_, he⟩)
          · rw [legalBytes_pair_iff]; exact ⟨hl0, hshort _ _ hbs⟩
          · rw [← h.2]
            simp only [List.length_cons, State.mk.injEq, true_and, and_true]
            rw [show bs.length + 1 + 1 = 2 + bs.length from by omega, BitVec.ofNat_add (x := 2), ← BitVec.add_assoc]
            rfl
    · simp only [Flow.ok.injEq] at h
      exact .inr (.inr ⟨bs, p, by omega, hshort _ _ hbs, h.1.symm, h.2.symm, he⟩)

/-- What a fill of at most `n` slots that goes on has done, `c` slots of buffer `b` being stored before it: it took the legal
bytes `bs`, all of its share unless it saw the end, and what it wrote is theirs (R252). -/
structure Took (c : Nat) (b : Bool) (n : Nat) (bs : List Byte) (s t : State) : Prop where
  frame : FilledFrom s t
  fatal : t.fatal = s.fatal
  cause : t.fatalCause = s.fatalCause
  legal : legalBytes s.params.nibbleMode bs = true
  most : bs.length ≤ 4 * n
  ended : s.eofSeen = true → bs = [] ∧ t.eofSeen = true
  whole : t.eofSeen = false → bs.length = 4 * n
  bytesIn : t.bytesIn = s.bytesIn + BitVec.ofNat 64 bs.length
  hist : t.hist = historyAfter s.hist (streamSamples bs)
  le : t.le.toNat = s.le.toNat + bs.length / 4
  cnt : (cntOf t b).toNat = c + bs.length / 4
  cntOther : cntOf t (!b) = cntOf s (!b)
  bufOther : bufOf t (!b) = bufOf s (!b)
  canon : (bufOf t b).canon = true
  slots : ∀ k, k < 65536 → (bufOf t b).get k =
    if c ≤ k ∧ k < c + bs.length / 4 then (samplePowers s.hist (streamSamples bs)).getD (k - c) 0 else (bufOf s b).get k

/-- Every fill that goes on has taken a run of legal bytes (R252). -/
theorem fillSlots_took {n : Nat} : ∀ {b : Bool} {s t : State} {u : Unit}, fillSlots n b s = .ok u t →
    (cntOf s b).toNat + n ≤ 65536 → (bufOf s b).canon = true → s.le.toNat + n < 2 ^ 64 →
    ∃ bs, Took (cntOf s b).toNat b n bs s t := by
  induction n with
  | zero =>
    intro b s t u h hn hb hl
    simp only [fillSlots, Flow.ok.injEq] at h
    obtain ⟨-, rfl⟩ := h
    have hnil : legalBytes s.params.nibbleMode [] = true := by cases s.params.nibbleMode <;> rfl
    exact ⟨[], FilledFrom.refl s, rfl, rfl, hnil, by simp, fun h => ⟨rfl, h⟩, fun _ => rfl, by simp,
      by simp [streamSamples, historyAfter], by simp, by simp, rfl, rfl, hb, fun k _ => by rw [if_neg (by simp)]⟩
  | succ n ih =>
    intro b s t u h hn hb hl
    simp only [fillSlots] at h
    cases h1 : powerStep s with
    | stuck why => simp [h1] at h
    | ended st s' => simp [h1] at h
    | ok v s1 =>
      rw [h1] at h
      have stop : ∀ bs : List Byte, bs.length < 4 → legalBytes s.params.nibbleMode bs = true →
          FilledFrom s t → t.fatal = s.fatal → t.fatalCause = s.fatalCause → (s.eofSeen = true → bs = []) →
          t.eofSeen = true → t.bytesIn = s.bytesIn + BitVec.ofNat 64 bs.length → t.hist = s.hist → t.le = s.le →
          (∀ c, cntOf t c = cntOf s c) → (∀ c, bufOf t c = bufOf s c) →
          ∃ bs, Took (cntOf s b).toNat b (n + 1) bs s t := by
        intro bs hlen hlegal hfr hfa hca hen heo hby hhi hle hcn hbu
        have h0 : bs.length / 4 = 0 := by omega
        exact ⟨bs, hfr, hfa, hca, hlegal, by omega, fun h => ⟨hen h, heo⟩, fun h => by rw [heo] at h; simp at h, hby,
          by rw [hhi, (samplePowers_short s.hist hlen).2], by rw [hle, h0]; rfl, by rw [hcn, h0]; rfl, hcn _, hbu _,
          by rw [hbu]; exact hb, fun k _ => by rw [hbu, if_neg (by omega)]⟩
      rcases powerStep_taken h1 with
        ⟨he, rfl, rfl⟩ | ⟨b0, b1, b2, b3, p, hl4, rfl, hs1, he⟩ | ⟨bs, p, hlen, hlegal, rfl, hs1, he⟩
      · simp only [Flow.ok.injEq, true_and] at h
        subst h
        exact stop [] (by simp) (by cases s1.params.nibbleMode <;> rfl) (FilledFrom.refl _) rfl rfl (fun _ => rfl) he (by simp)
          rfl rfl (fun _ => rfl) fun _ => rfl
      · simp only [] at h
        generalize hr0 : pairSample b0 b1 = r0 at *
        generalize hr1 : pairSample b2 b3 = r1 at *
        obtain ⟨s2, hs2, h2, hbuf, hbuf', hcnt, hcnt', hcan⟩ := storeSlot_spec b (powerOf (shiftIn s.hist r0 r1)) (s := s1)
          (by rw [hs1]; show (cntOf s b).toNat < _; omega) (by rw [hs1]; show s.le.toNat + 1 < _; omega)
          (by rw [hs1]; exact hb)
        rw [hs2] at h
        have hcs : ∀ c, cntOf s1 c = cntOf s c := by rw [hs1]; exact fun _ => rfl
        have hbs : ∀ c, bufOf s1 c = bufOf s c := by rw [hs1]; exact fun _ => rfl
        have hle2 : s2.le.toNat = s.le.toNat + 1 := by rw [h2, hs1]; simp; omega
        have hfr2 : FilledFrom s s2 := by unfold FilledFrom; rw [h2, hs1]
        have hhist2 : s2.hist = shiftIn s.hist r0 r1 := by rw [h2, hs1]
        obtain ⟨bs, ht⟩ := ih h (by rw [hcnt, hcs]; omega) hcan (by rw [hle2]; omega)
        have hlen4 : (b0 :: b1 :: b2 :: b3 :: bs).length = bs.length + 4 := by simp
        have hdiv : (bs.length + 4) / 4 = bs.length / 4 + 1 := by omega
        refine ⟨b0 :: b1 :: b2 :: b3 :: bs, hfr2.trans ht.frame, ?_, ?_, ?_, ?_, ?_, ?_, ?_, ?_, ?_, ?_, ?_, ?_, ht.canon,
          ?_⟩
        · rw [ht.fatal, h2, hs1]
        · rw [ht.cause, h2, hs1]
        · have := ht.legal
          rw [legalBytes_pair_iff, legalBytes_pair_iff] at hl4 ⊢
          rw [h2, hs1] at this
          exact ⟨hl4.1, hl4.2.1, this⟩
        · rw [hlen4]; have := ht.most; omega
        · intro h'; rw [he] at h'; simp at h'
        · intro h'; rw [hlen4, ht.whole h']; omega
        · rw [ht.bytesIn, hlen4, Nat.add_comm bs.length 4, BitVec.ofNat_add (x := 4), h2, hs1]
          exact BitVec.add_assoc _ _ _
        · rw [ht.hist, hhist2, streamSamples_quad, historyAfter, hr0, hr1]
        · rw [ht.le, hle2, hlen4, hdiv]; omega
        · rw [ht.cnt, hcnt, hcs, hlen4, hdiv]; omega
        · rw [ht.cntOther, hcnt', hcs]
        · rw [ht.bufOther, hbuf', hbs]
        · intro k hk
          rw [ht.slots k hk, hcnt, hcs, hhist2, hlen4, hdiv, streamSamples_quad, samplePowers, hr0, hr1, hbuf, hbs, hcs]
          rcases Nat.lt_trichotomy k (cntOf s b).toNat with hlt | heq | hgt
          · rw [if_neg (by omega), if_neg (by omega),
              PowerBuf.get_set_other _ hb (by simp [pwBatch]; omega) (by simp [pwBatch]; omega) (by omega)]
          · rw [if_neg (by omega), if_pos (by omega), heq, PowerBuf.get_set_same]
            simp
          · obtain ⟨j, rfl⟩ : ∃ j, k = (cntOf s b).toNat + 1 + j := ⟨k - (cntOf s b).toNat - 1, by omega⟩
            rw [show (cntOf s b).toNat + 1 + j - (cntOf s b).toNat = j + 1 from by omega,
              show (cntOf s b).toNat + 1 + j - ((cntOf s b).toNat + 1) = j from by omega, List.getD_cons_succ]
            by_cases hm : j < bs.length / 4
            · rw [if_pos (by omega), if_pos (by omega)]
            · rw [if_neg (by omega), if_neg (by omega),
                PowerBuf.get_set_other _ hb (by simp [pwBatch]; omega) (by simp [pwBatch]; omega) (by omega)]
      · simp only [Flow.ok.injEq, true_and] at h
        subst h
        exact stop bs hlen hlegal (by rw [hs1]; rfl) (by rw [hs1]) (by rw [hs1]) (fun h => by rw [he] at h; simp at h)
          (by rw [hs1]) (by rw [hs1]) (by rw [hs1]) (by rw [hs1]) (by rw [hs1]; exact fun _ => rfl)
          (by rw [hs1]; exact fun _ => rfl)

/-- Every `PW_FILL(b)` that goes on has taken a run of legal bytes (R252). -/
theorem fill_took {b : Bool} {s t : State} {u : Unit} (h : fill b s = .ok u t) (hb : (bufOf s b).canon = true)
    (hl : s.le.toNat + 65536 < 2 ^ 64) : ∃ bs, Took 0 b 65536 bs s t := by
  have hbuf : ∀ c, bufOf (startFill b s) c = bufOf s c := by cases b <;> (intro c; cases c <;> rfl)
  have hc0 : (cntOf (startFill b s) b).toNat = 0 := by cases b <;> rfl
  obtain ⟨bs, ht⟩ := fillSlots_took h (by rw [hc0]; decide) (by rw [hbuf]; exact hb) (by cases b <;> exact hl)
  rw [hc0] at ht
  refine ⟨bs, (startFill_frame b s).trans ht.frame, ?_, ?_, ?_, ht.most, ?_, ht.whole, ?_, ?_, ?_, ht.cnt, ?_, ?_, ht.canon,
    ?_⟩
  · rw [ht.fatal]; cases b <;> rfl
  · rw [ht.cause]; cases b <;> rfl
  · have := ht.legal; cases b <;> exact this
  · have := ht.ended; cases b <;> exact this
  · rw [ht.bytesIn]; cases b <;> rfl
  · rw [ht.hist]; cases b <;> rfl
  · rw [ht.le]; cases b <;> rfl
  · rw [ht.cntOther]; cases b <;> rfl
  · rw [ht.bufOther]; cases b <;> rfl
  · intro k hk
    rw [ht.slots k hk, hbuf]
    cases b <;> rfl

end Sys2Proof.Machine
end

