-- ==== Sys2Proof/Tests/Slice0.lean ====
section
/-! SUPPORT. The model's own tests: well-formedness smoke, every command's decoding from a word written out, one step of
each command against 95_test_vectors.md, and a witness for each obligation's hypotheses. -/

namespace Sys2Proof.Tests

open Sys2Proof Sys2Proof.Machine Sys2Proof.Config

/-! Helpers. -/

/-- The next state, when there is one. -/
def nextOf (o : Host.Outcome State Fault Refusal) : Option State :=
  match o with
  | .next s => some s
  | .fault _ => none
  | .refused _ => none

/-- The pair (ST, RES) a command answers with. -/
def answer (i : Instr) (s : State) : Option (Byte × Word64) := (nextOf (exec i s)).map reply

/-- The reset state under a tap, with a stream that ends after the given bytes. -/
def onStream (t : Tap) (bs : List Byte) : State :=
  { State.reset with tap := t, port := { ahead := bs.map .byte ++ [.eof], rest := .ends, taken := 0 } }

/-- The reset state with bytes in BB from index 0. -/
def withBytes (bs : List Byte) : State := { State.reset with bb := Memory.writeList [] 0 bs }

/-- Frame F1 of 95_test_vectors.md 0.1. -/
def f1 : List Byte := [0x8D, 0x48, 0x40, 0xD6, 0x20, 0x2C, 0xC3, 0x71, 0xC3, 0x2C, 0xE0, 0x57, 0x60, 0x98]

/-- Frame F2 of 95_test_vectors.md 0.1. -/
def f2 : List Byte := [0x8D, 0x40, 0x62, 0x1D, 0x58, 0xC3, 0x82, 0xD6, 0x90, 0xC8, 0xAC, 0x28, 0x63, 0xA7]

/-- The window offsets of F1's pulses: the preamble, then one half of each bit (R280, R283). -/
def f1Pulses : List Nat :=
  [0, 10, 35, 45] ++ (List.range 112).map fun k =>
    if (f1.getD (k / 8) 0).getLsbD (7 - k % 8) then 80 + 10 * k else 85 + 10 * k

/-- Power 1000 at the given offsets of the window at `off` in the current buffer (buffer 0). -/
def paint (off : Nat) (s : State) : List Nat → State
  | [] => s
  | p :: ps =>
    if off + p < 65536 then paint off { s with buf0 := s.buf0.set (off + p) 1000 } ps
    else paint off { s with buf1 := s.buf1.set (off + p - 65536) 1000 } ps

/-- TAP FRAMES at position `pos` with F1 in the window, FRAME_SKIP 1, and the given stream end. -/
def frameAt (pos : Nat) (eof : Bool) (rest : PortRest) : State :=
  paint (pos % 65536)
    { State.reset with
      tap := .frames, wsize := 1200, eofSeen := eof, pos := BitVec.ofNat 64 pos, le := BitVec.ofNat 64 (pos + 1300),
      params := { Params.default with frameSkip := 1 }, port := { ahead := [], rest := rest, taken := 0 } }
    f1Pulses

/-- TAP WINDOW at position `pos` with a loaded end. -/
def windowAt (pos le : Nat) : State :=
  { State.reset with tap := .window, wsize := 8, pos := BitVec.ofNat 64 pos, le := BitVec.ofNat 64 le }

/-- This part of the pseudocode ends its command. -/
def ends (x : Flow Unit) : Bool :=
  match x with
  | .ok _ _ => false
  | .ended _ _ => true
  | .stuck _ => false

theorem exists_of_ends {x : Flow Unit} (h : ends x = true) : ∃ st u, x = .ended st u := by
  cases x with
  | ok a s => simp [ends] at h
  | ended st s => exact ⟨st, s, rfl⟩
  | stuck why => simp [ends] at h

/-- This command has a next state. -/
theorem exists_of_next {o : Host.Outcome State Fault Refusal} (h : (nextOf o).isSome = true) : ∃ t, o = .next t := by
  cases o with
  | next s => exact ⟨s, rfl⟩
  | fault f => simp [nextOf] at h
  | refused r => simp [nextOf] at h

/-- The reset state under a tap, with a stream of three samples that then stops as `e` says. -/
def stopped (t : Tap) (e : StreamEnd) : State :=
  { State.reset with
    tap := t, port := { ahead := [0x03, 0x08, 0x04, 0x08, 0x01, 0x08].map .byte ++ e.events, rest := .ends, taken := 0 } }

/-! Well-formedness: each check refuses a term. -/

theorem test_wf_sub_too_large : (Instr.csrr 256).wf = false := by decide
theorem test_wf_imm16_too_large : (Instr.crcTab 65536).wf = false := by decide
theorem test_wf_a_too_large : (Instr.pwGet 2147483648).wf = false := by decide
theorem test_wf_a_too_small : (Instr.bsByte (-2147483649)).wf = false := by decide
theorem test_wf_second_operand : (Instr.bfExt 0 0 65536).wf = false ∧ (Instr.init 256 0).wf = false := by decide

/-! Decoding: one word per command, from R101 and R105, R110 and 95_test_vectors.md. -/

theorem test_decode_nop : decode 0x00000000000000000000000000000000 = .instr .nop := by decide
theorem test_decode_init : decode 0x0000000000000000FFFFFFFF00000301 = .instr (.init 3 (-1)) := by decide
theorem test_decode_csrr : decode 0x00000000000000000000000000001102 = .instr (.csrr 0x11) := by decide
theorem test_decode_sdNext : decode 0x00000000000000000000000000000010 = .instr .sdNext := by decide
theorem test_decode_pcNext : decode 0x00000000000000000000000000000018 = .instr .pcNext := by decide
theorem test_decode_pwGet : decode 0x0000000000000000FFFFFFFF00000020 = .instr (.pwGet (-1)) := by decide
theorem test_decode_pwAdv : decode 0x00000000000000000000000000000021 = .instr .pwAdv := by decide
theorem test_decode_pwAdvn : decode 0x00000000000000000000FFFC00000022 = .instr (.pwAdvn 65532) := by decide
theorem test_decode_pwFull : decode 0x00000000000000000000000000000023 = .instr .pwFull := by decide
theorem test_decode_dmNext : decode 0x00000000000000000000000000000028 = .instr .dmNext := by decide
theorem test_decode_crcBuf : decode 0x000000000000000000000005000E0030 = .instr (.crcBuf 5 14) := by decide
theorem test_decode_crcTab : decode 0x000000000000000000000000008D0031 = .instr (.crcTab 0x8D) := by decide
theorem test_decode_bfExt :
    decode 0x0058C382D690C8AC00000024000C0038 = .instr (.bfExt 0x58C382D690C8AC 36 12) := by decide
theorem test_decode_bfTst : decode 0x8000000000000000FFFFFFFF00000039 = .instr (.bfTst 0x8000000000000000 (-1)) := by
  decide
theorem test_decode_bbWr : decode 0x0000000000000000000000FF00AB0040 = .instr (.bbWr 255 0x00AB) := by decide
theorem test_decode_bsByte : decode 0x00000000000000000000000D00000041 = .instr (.bsByte 13) := by decide
theorem test_decode_bsRange : decode 0x0000000000000000000000FA01000042 = .instr (.bsRange 250 256) := by decide
theorem test_decode_frDf : decode 0x00000000000000000000000000000048 = .instr .frDf := by decide
theorem test_decode_frIcao : decode 0x00000000000000000000000000000049 = .instr .frIcao := by decide
theorem test_decode_frMe : decode 0x0000000000000000000000000000004A = .instr .frMe := by decide
theorem test_decode_frTc : decode 0x0000000000000000000000000000004B = .instr .frTc := by decide
theorem test_decode_frCheck : decode 0x0000000000000000000000000000004C = .instr .frCheck := by decide
theorem test_decode_altDec : decode 0x0000000000000000000000000C380050 = .instr (.altDec 0xC38) := by decide
/-- DC-1, DC-3, DC-5, DC-7: what decode turns away, the opcode first. -/
theorem test_decode_rejects :
    decode 0x00000000000000000000000000000003 = .rejected .illegalOpcode ∧
    decode 0x00000000000000000000000000000103 = .rejected .illegalOpcode ∧
    decode 0x00000000000000000000000100000010 = .rejected .reservedField ∧
    decode 0x00000000000000010000000000010138 = .rejected .reservedField := by decide
theorem test_decode_bytes_length : decodeBytes (List.replicate 15 0) = .notADescriptor := by decide
theorem test_table_word : decodeTableWord 32 0x00080042 = some (.bsRange 0 8) := by decide
theorem test_fetch_word : (nextOf (step (State.reset.withFetchWord 16 0x1102))).map reply = some (0x00, 0x74A415649) := by
  decide

/-! One step of each command; the expected values are those of 95_test_vectors.md. -/

theorem test_nop_DC9 : answer .nop State.reset = some (0x00, 0) := by decide
theorem test_init_DC14 : answer (.init 3 65537) State.reset = some (0x12, 0) := by decide
theorem test_init_W20 : (nextOf (exec (.init 3 1) (onStream .idle []))).map statusWord = some 0x32 := by decide +kernel
theorem test_csrr_DC18 : answer (.csrr 0x10) State.reset = some (0x00, 0x4B004B00000) := by decide
theorem test_csrr_DC19 : answer (.csrr 0x12) State.reset = some (0x11, 0) := by decide
theorem test_sdNext_SD4 : answer .sdNext (onStream .samples [0x34, 0x02]) = some (0x00, 0xFFFFFFFFFFFFFA34) := by decide
theorem test_sdNext_SD7 : (nextOf (exec .sdNext (onStream .samples [0x00, 0x10]))).map statusWord = some 0x212111 := by
  decide
theorem test_pcNext_PC1 : answer .pcNext (onStream .power [0x03, 0x08, 0x04, 0x08]) = some (0x00, 0x19) := by decide
/-- PC-4, second result, from the history of its first. -/
theorem test_pcNext_PC4 :
    answer .pcNext { onStream .power [0xFF, 0x0F, 0xFF, 0x0F] with hist := #v[0, 0, 0, 0, 0, 0, 0x800, 0x800] } =
      some (0x00, 0x1FFC002) := by decide
/-- R251: offset 1 at POS 65535 is slot 0 of the next buffer. -/
theorem test_pwGet_next_buffer :
    answer (.pwGet 1) { windowAt 65535 131072 with buf1 := PowerBuf.zeros.set 0 77 } = some (0x00, 77) := by decide
theorem test_pwGet_W21 : answer (.pwGet 0) (windowAt 0 0) = some (0x40, 0) := by decide
theorem test_pwAdv_W22 : (nextOf (exec .pwAdv (windowAt 0 0))).map (·.pos) = some 1 := by decide
/-- R253: a boundary swaps the buffers and refills the old current one with the next power sample (PC-1). -/
theorem test_pwAdv_boundary :
    (nextOf (exec .pwAdv { onStream .window [0x03, 0x08, 0x04, 0x08] with wsize := 8, pos := 65535, le := 131072 })).map
      (fun t => (t.pos, t.sel, t.buf0.get 0, t.cnt0, t.le, t.eofSeen)) = some (65536, true, 25, 1, 131073, true) := by
  decide +kernel
theorem test_pwAdvn_three : (nextOf (exec (.pwAdvn 3) (windowAt 5 100))).map (·.pos) = some 8 := by decide
theorem test_pwAdvn_negative : answer (.pwAdvn (-1)) (windowAt 5 100) = some (0x12, 0) := by decide
theorem test_pwFull_edge : answer .pwFull (windowAt 92 100) = some (0x00, 1) ∧ answer .pwFull (windowAt 93 100) = some (0x00, 0) := by
  decide
/-- DM-1's frame and timestamp, at a position inside a buffer. -/
theorem test_dmNext_delivers :
    (nextOf (exec .dmNext (frameAt 100 true .ends))).map (fun t => (reply t, memRead t 0 14, t.pos, t.fts)) =
      some ((0x00, 10000), f1, 101, 10000) := by decide +kernel
theorem test_dmNext_eos : answer .dmNext { frameAt 100 true .ends with le := 1299 } = some (0x01, 0) := by decide +kernel
theorem test_crcBuf_CRC9 : answer (.crcBuf 0 11) (withBytes f1) = some (0x00, 0x576098) := by decide +kernel
theorem test_crcBuf_CRC13 : answer (.crcBuf 5 4) (withBytes f1) = some (0x11, 0) := by decide
theorem test_crcTab_CRC5 : answer (.crcTab 0x8D) State.reset = some (0x00, 0xF8BA93) := by decide
theorem test_crcTab_CRC7 : answer (.crcTab 256) State.reset = some (0x11, 0) := by decide
theorem test_bfExt_BF10 : answer (.bfExt 0x58C382D690C8AC 36 12) State.reset = some (0x00, 0xC38) := by decide
theorem test_bfExt_BF6 : answer (.bfExt 0xFFFFFFFFFFFFFFFF (-1) 32) State.reset = some (0x10, 0) := by decide
theorem test_bfTst_BF16 : answer (.bfTst 0x8000000000000000 63) State.reset = some (0x00, 1) := by decide
theorem test_bfTst_BF14 : answer (.bfTst 0x80 64) State.reset = some (0x11, 0) := by decide
theorem test_bbWr_clears_frame_valid :
    (nextOf (exec (.bbWr 13 0x98) { withBytes f1 with frameValid := true })).map (fun t => (t.frameValid, memRead t 0 14)) =
      some (false, f1) := by decide
theorem test_bbWr_BB17 : answer (.bbWr 0 0x100) State.reset = some (0x31, 0) := by decide
theorem test_bsByte_BB2 : answer (.bsByte 13) (withBytes f1) = some (0x00, 0x98) := by decide
theorem test_bsByte_BB4 : answer (.bsByte 256) (withBytes f1) = some (0x11, 0) := by decide
theorem test_bsRange_BB7 : answer (.bsRange 0 8) (withBytes f1) = some (0x00, 0x8D4840D6202CC371) := by decide
theorem test_bsRange_BB10 : answer (.bsRange 0 9) (withBytes f1) = some (0x12, 0) := by decide
theorem test_frDf_FR2 : answer .frDf (withBytes f2) = some (0x00, 0x11) := by decide
theorem test_frIcao_FR2 : answer .frIcao (withBytes f2) = some (0x00, 0x40621D) := by decide
theorem test_frMe_FR2 : answer .frMe (withBytes f2) = some (0x00, 0x58C382D690C8AC) := by decide
theorem test_frTc_FR2 : answer .frTc (withBytes f2) = some (0x00, 0xB) := by decide
theorem test_frCheck_FR2 : answer .frCheck (withBytes f2) = some (0x00, 0) := by decide +kernel
theorem test_frCheck_FR5 : answer .frCheck (withBytes (f2.set 13 0xA8)) = some (0x02, 0) := by decide +kernel
theorem test_altDec_ALT10 : answer (.altDec 0x28A) State.reset = some (0x00, 0xFFFFFFFFFFFFFF9C) := by decide
theorem test_altDec_ALT29 :
    answer (.altDec 0x222) State.reset = some (0x02, 0) ∧
    answer (.altDec 0x222) { State.reset with params := { Params.default with altRule := .gillham } } =
      some (0x00, 0x7D0) := by decide

/-! Host side and launch. -/

/-- R166, R167, L1.3. -/
theorem test_hex_L13 :
    parseHex "8D4840D6202CC371C32CE0576098".toList = some f1 ∧ parseHex "8D4".toList = none ∧
    formatHex f1 = "8D4840D6202CC371C32CE0576098".toList := by decide +kernel
/-- R108, R110. -/
theorem test_assemble :
    assemble "INIT WINDOW, 8".toList = some (.init 3 8) ∧ assemble "INIT FRAMES".toList = some (.init 4 0) ∧
    assemble "CSRR POS".toList = some (.csrr 2) ∧ assemble "PW_GET -1".toList = some (.pwGet (-1)) ∧
    assemble "BF_EXT 0x58C382D690C8AC, 36, 12".toList = some (.bfExt 0x58C382D690C8AC 36 12) := by decide +kernel
/-- R166: a hex string with a blank in it is an adaptor error and issues no command; blanks around operands are none of it. -/
theorem test_assemble_line :
    assembleLine "BB_LOAD 0, 8D48".toList = some [.bbWr 0 0x8D, .bbWr 1 0x48] ∧
    assembleLine " BB_LOAD  0 , 8D48 ".toList = some [.bbWr 0 0x8D, .bbWr 1 0x48] ∧
    assembleLine "BB_LOAD 0, 8D 48".toList = none ∧
    assembleLine "FRAME_LOAD 8D4840D6202CC3 71C32CE0576098".toList = none ∧
    assembleLine "FRAME_LOAD 8D4840D6202CC371C32CE057609 8".toList = none ∧
    assembleLine "FRAME_LOAD 8D4840D6202CC371C32CE0576098".toList =
      some [.bbWr 0 0x8D, .bbWr 1 0x48, .bbWr 2 0x40, .bbWr 3 0xD6, .bbWr 4 0x20, .bbWr 5 0x2C, .bbWr 6 0xC3,
        .bbWr 7 0x71, .bbWr 8 0xC3, .bbWr 9 0x2C, .bbWr 10 0xE0, .bbWr 11 0x57, .bbWr 12 0x60, .bbWr 13 0x98] := by
  decide +kernel
/-- R396: the reset state meets the launch premises. -/
theorem test_reset_premises : State.reset.Premises where
  clean := rfl
  tap := rfl
  window := ⟨[], by simp [State.windowStart, State.reset], by simp [State.freshSums, State.reset]⟩
/-- P1, steps 1 to 3, as a launch (R407). -/
def launchP1 : Launch :=
  { start := State.reset, commands := [encode (.init 1 0), encode .sdNext, encode .sdNext],
    stream := { ahead := [.byte 0x00, .byte 0x08, .byte 0xFF, .byte 0x0F, .eof], rest := .ends, taken := 0 } }
theorem test_launch_P1 : (runLaunch launchP1 test_reset_premises).replies = [(0x00, 0), (0x00, 0), (0x00, 0x7FF)] := by
  decide +kernel
/-- R290, R407, O8: DM_NEXT on an endless stream, at a position past which `LE` does not fit, is stuck: no final state. -/
theorem test_dmNext_endless :
    (runFrom 0 [encode .nop, encode .dmNext]
      { frameAt 18446744073709551000 false .live with le := 0xFFFFFFFFFFFFFFFF }) =
      { replies := [(0x00, 0)], ending := .stuck (encode .dmNext) } := by decide +kernel

/-! Witnesses: for each obligation with hypotheses, a state and operands that meet them all, clause by clause. -/

theorem witness_DecodeInvertsEncode : (Instr.bfExt 0xFFFFFFFFFFFFFFFF (-2147483648) 65535).wf = true := by decide
theorem witness_EncodeInvertsDecode :
    decode 0xFFFFFFFFFFFFFFFF80000000FFFF0038 = .instr (.bfExt 0xFFFFFFFFFFFFFFFF (-2147483648) 65535) := by decide
theorem witness_OpcodeTableRowsDecode :
    (Op.dmNext, (0xFFFFFFFFFFFFFFFFFFFFFFFFFFFFFFFF : Descriptor), (0x28 : Descriptor)) ∈ opcodeRows := by decide
theorem witness_StepRunsDecodedCommand :
    ({ State.reset with queue := [.command 0] } : State).queue = .command 0 :: [] ∧ decode 0 = .instr .nop := by decide
theorem witness_UndecodableDescriptorsEnd :
    ({ State.reset with queue := [.command 0x03] } : State).queue = .command 0x03 :: [] ∧
    (∀ r ∈ opcodeRows, r.2.2.extractLsb' 0 8 ≠ (0x03 : Descriptor).extractLsb' 0 8) ∧
    (∃ r ∈ opcodeRows, r.2.2.extractLsb' 0 8 = (0x100 : Descriptor).extractLsb' 0 8 ∧ 0x100 &&& r.2.1 ≠ r.2.2) := by
  decide
theorem witness_ExternalResetGivesResetValues :
    ({ State.reset with queue := [.reset 0, .command 0] } : State).queue = .reset 0 :: [.command 0] ∧
    ({ State.reset with queue := [.reset 7] } : State).queue = .reset 7 :: [] := by decide
theorem witness_ResetThenInitIdleIsReset : ∃ t, exec (.init 2 0) (withBytes f1) = .next t := ⟨_, rfl⟩
theorem witness_NopWritesOnlyResult : (0x100 : Descriptor).extractLsb' 0 8 = 0 ∧ (0x100 : Descriptor) ≠ 0 := by decide
theorem witness_RefusedInitChangesNothing :
    (5 > 4) ∧ ((0 : Int) < 1 ∨ (0 : Int) > 65536) ∧ ((65537 : Int) < 1 ∨ (65537 : Int) > 65536) ∧
    (4 ≠ 3 ∧ (1 : Int) ≠ 0) := by decide
theorem witness_InitWithoutWindowClearsChain : (2, Tap.power) ∈ [(0, Tap.idle), (1, Tap.samples), (2, Tap.power)] := by
  decide
theorem witness_InitLoadsBothBuffers :
    (∀ e ∈ [StreamEnd.eof, .ioerr, .range 0x00 0x10],
      legalBytes (stopped .idle e).params.nibbleMode [0x03, 0x08, 0x04, 0x08, 0x01, 0x08] = true ∧
      (stopped .idle e).port.ahead = [0x03, 0x08, 0x04, 0x08, 0x01, 0x08].map .byte ++ (e.events ++ [])) ∧
    StreamEnd.follows (stopped .idle (.range 0x00 0x10)).params.nibbleMode [0x03, 0x08, 0x04, 0x08, 0x01, 0x08]
      (.range 0x00 0x10) ∧
    legalBytes .mask [0x03, 0xF8] = true ∧ 524288 ≤ (List.replicate 524288 (0 : Byte)).length ∧
    (1 ≤ (1 : Int) ∧ (1 : Int) ≤ 65536 ∧ ((1 : BitVec 17).toNat : Int) = 1) ∧
    (1 ≤ (65536 : Int) ∧ (65536 : Int) ≤ 65536 ∧ ((65536 : BitVec 17).toNat : Int) = 65536) ∧
    (1200 : BitVec 17) = State.reset.params.dmWindow := by
  refine ⟨by decide, ⟨by decide, by decide, by decide⟩, by decide, by rw [List.length_replicate], by decide, by decide,
    by decide⟩
theorem witness_StatusRegisterFields :
    (State.reset.lastSt, 0) ∈ [(Status.ok, 0), (Status.eos, 1)] ∧
    (({ State.reset with fatalCause := .sampleRange } : State).fatalCause, 0x21) ∈ [(Status.ioError, 0x20), (.sampleRange, 0x21)] := by
  decide
theorem witness_ConfigurationRegisterFields :
    State.reset.params = Params.default ∧ ∃ t, step { State.reset with queue := [.command 0] } = .next t :=
  ⟨by decide, _, rfl⟩
theorem witness_CsrsReadTheirElements :
    ((8 : Word64).toNat = (windowAt 0 0).wsize.toNat) ∧
    ((7 : Word64) = (windowAt 7 9).pos) ∧ ((9 : Word64) = (windowAt 7 9).le) ∧ ((0 : Word64) = State.reset.fts) ∧
    ((0 : Word64) = State.reset.bytesIn) ∧ ((0 : Word64).toNat = State.reset.prevSum.toNat) ∧
    ((0x1FFFFFFFF : Word64).toNat = (0xFFFFFFFF : BitVec 32).toNat + 4294967296 * true.toNat) ∧
    (∃ k : Fin 8, 0x0F = 0x08 + k.val ∧ (0xFFFFFFFFFFFFF800 : Word64).toInt = (0x800 : Sample).toInt) ∧
    (0x12 ≤ 0x12 ∧ 0x12 ≤ 255) := by decide
theorem witness_StreamUnitStateChecks :
    (Instr.pwFull, [Tap.window, Tap.frames]) ∈
      [(.sdNext, [.samples]), (.pcNext, [.power]), (.pwGet 0, [.window, .frames]), (.pwAdv, [.window]),
        (.pwAdvn 0, [.window]), (.pwFull, [.window, .frames]), (.dmNext, [Tap.frames])] ∧
    State.reset.tap ∉ [Tap.window, Tap.frames] ∧
    ({ windowAt 0 0 with fatal := true } : State).tap ∈ [Tap.window, Tap.frames] ∧
    ({ windowAt 0 0 with fatal := true } : State).fatal = true := by decide

/-- The hypotheses about the state that most stream-unit statements share. -/
def ready (t : Tap) (s : State) : Bool := decide (s.tap = t) && !s.fatal && !s.eofSeen

theorem witness_SdNextReturnsCentredSample :
    ready .samples (onStream .samples [0xFF, 0x0F]) = true ∧
    (onStream .samples [0xFF, 0x0F]).port.ahead = .byte 0xFF :: .byte 0x0F :: [.eof] ∧ (0x0F : Byte).toNat < 16 ∧
    ready .samples { onStream .samples [0x00, 0xFF] with params := { Params.default with nibbleMode := .mask } } = true := by
  decide
theorem witness_SdNextEndsAtEndOfStream :
    ({ onStream .samples [] with eofSeen := true } : State).eofSeen = true ∧ ready .samples (onStream .samples []) = true ∧
    (onStream .samples []).port.ahead = .eof :: [] ∧ (onStream .samples [0x12]).port.ahead = .byte 0x12 :: .eof :: [] := by
  decide

/-- A state under `t` whose port has the given events and then goes on as `rest` says. -/
def withPort (t : Tap) (es : List PortEvent) (rest : PortRest) : State :=
  { State.reset with tap := t, port := { ahead := es, rest := rest, taken := 0 } }

theorem witness_FailedSampleReadIsFatal :
    (ready .samples (withPort .samples [.byte 1, .ioerr] .fails) = true ∧
      (withPort .samples [.byte 1, .ioerr] .fails).port.ahead = [1].map .byte ++ (StreamEnd.ioerr.events ++ []) ∧
      legalBytes .fault [1] = true) ∧
    (ready .power (withPort .power [.byte 1, .byte 2, .byte 3, .byte 0x10] .ends) = true ∧
      (withPort .power [.byte 1, .byte 2, .byte 3, .byte 0x10] .ends).port.ahead =
        [1, 2].map .byte ++ ((StreamEnd.range 3 0x10).events ++ []) ∧
      legalBytes .fault [1, 2] = true ∧ (StreamEnd.range 3 0x10) ≠ .eof ∧ StreamEnd.follows .fault [1, 2] (.range 3 0x10)) :=
  ⟨by decide, by decide, by decide, by decide, by decide, by decide, by decide, by decide⟩
theorem witness_WaitingHasNoNextState :
    State.reset.queue = [] ∧ State.reset.port.ahead = [] ∧ State.reset.port.rest = .waits ∧
    ready .samples (withPort .samples [] .waits) = true ∧ ready .power (withPort .power [] .waits) = true ∧
    ready .window (windowAt 65535 0) = true ∧ (windowAt 65535 0).pos.toNat % 65536 = 65535 ∧
    (windowAt 65535 0).pos ≠ BitVec.allOnes 64 := by decide
theorem witness_PcNextReturnsPower :
    ready .power (onStream .power [0x03, 0x08, 0xFF, 0x0F]) = true ∧
    (onStream .power [0x03, 0x08, 0xFF, 0x0F]).port.ahead = .byte 0x03 :: .byte 0x08 :: .byte 0xFF :: .byte 0x0F :: [.eof] ∧
    (0x0F : Byte).toNat < 16 ∧
    ready .power { onStream .power [0x03, 0xF8, 0xFF, 0x0F] with params := { Params.default with nibbleMode := .mask } } = true ∧
    (3 : Sample).toInt = ((0xF8 : Byte).toNat % 16 : Nat) * 256 + ((0x03 : Byte).toNat : Int) - 2048 ∧ (3 : Sample).toInt = ((0x08 : Byte).toNat : Int) * 256 + (0x03 : Byte).toNat - 2048 ∧
    (0x7FF : Sample).toInt = ((0x0F : Byte).toNat : Int) * 256 + (0xFF : Byte).toNat - 2048 := by decide
theorem witness_PcNextShortPairEnds :
    ({ onStream .power [] with eofSeen := true } : State).eofSeen = true ∧
    ready .power (onStream .power [0x05, 0x08, 0x01]) = true ∧ legalBytes .fault [0x05, 0x08, 0x01] = true ∧
    (onStream .power [0x05, 0x08, 0x01]).port.ahead = [0x05, 0x08, 0x01].map .byte ++ .eof :: [] ∧
    (onStream .power []).port.ahead = [].map .byte ++ .eof :: [] := by decide
theorem witness_PwGetReadsTheWindow :
    ready .window (windowAt 93 100) = true ∧ (8 : Int) ≥ (windowAt 93 100).wsize.toNat ∧
    (7 : Int) < (windowAt 93 100).wsize.toNat ∧ ((windowAt 93 100).pos.toNat : Int) + 7 ≥ (windowAt 93 100).le.toNat ∧
    ((windowAt 93 100).pos.toNat : Int) + 6 < (windowAt 93 100).le.toNat ∧
    ((99 : Nat) : Int) = (windowAt 93 100).pos.toNat + 6 -
      ((windowAt 93 100).pos.toNat - (windowAt 93 100).pos.toNat % 65536 : Nat) := by decide
theorem witness_WindowMovesInsideBuffer :
    ready .window (windowAt 65534 0) = true ∧ (windowAt 65534 0).pos.toNat % 65536 < 65535 ∧
    ((windowAt 1 0).pos.toNat % 65536 : Nat) + (65534 : Int) < 65536 ∧
    (windowAt 18446744073709551615 0).pos = BitVec.allOnes 64 := by decide
theorem witness_PwAdvRefillsAtBoundary :
    (∀ e ∈ [StreamEnd.eof, .ioerr, .range 0x00 0x10], ready .window { stopped .window e with pos := 65535 } = true ∧
      legalBytes (stopped .window e).params.nibbleMode [0x03, 0x08, 0x04, 0x08, 0x01, 0x08] = true ∧
      (stopped .window e).port.ahead = [0x03, 0x08, 0x04, 0x08, 0x01, 0x08].map .byte ++ (e.events ++ [])) ∧
    StreamEnd.follows .fault [0x03, 0x08, 0x04, 0x08, 0x01, 0x08] (.range 0x00 0x10) ∧
    (65535 : Word64).toNat % 65536 = 65535 ∧ (65535 : Word64) ≠ BitVec.allOnes 64 ∧ PowerBuf.zeros.canon = true ∧
    (131072 : Word64).toNat + 65536 < 2 ^ 64 :=
  ⟨by decide, ⟨by decide, by decide, by decide⟩, by decide, by decide, by decide, by decide⟩
theorem witness_PwAdvnIsRepeatedPwAdv : ready .window (windowAt 65535 0) = true := by decide
theorem witness_PwFullReportsIsFull :
    ready .window (windowAt 92 100) = true ∧ (100 : Int) - 92 ≥ (windowAt 92 100).wsize.toNat ∧
    (100 : Int) - 93 < (windowAt 93 100).wsize.toNat := by decide
theorem witness_WindowInvariantKept :
    ({ windowAt 0 131072 with queue := [.command 0] } : State).WindowInv ∧
    ∃ t, step { windowAt 0 131072 with queue := [.command 0] } = .next t := by
  refine ⟨?_, _, rfl⟩
  intro _ _ _
  exact ⟨by decide, fun _ => by decide⟩
/-- A window over the one power sample of a stream that has ended. -/
def oneSample : State :=
  { windowAt 0 1 with eofSeen := true, bytesIn := 4, hist := #v[0, 0, 0, 0, 0, 0, 3, 4], buf0 := PowerBuf.zeros.set 0 25,
                      cnt0 := 1, queue := [.command (encode .pwAdv)] }
/-- Every slot of a buffer is small. -/
def slotsSmall : PowerBuf → Bool
  | .zeros => true
  | .slot p => decide (p.toNat ≤ maxPower)
  | .node e o => slotsSmall e && slotsSmall o
theorem get_small {b : PowerBuf} (h : slotsSmall b = true) (i : Nat) : (b.get i).toNat ≤ maxPower := by
  induction b generalizing i with
  | zeros => exact Nat.zero_le _
  | slot p => simpa [slotsSmall, PowerBuf.get] using h
  | node e o he ho =>
    simp only [slotsSmall, Bool.and_eq_true] at h
    unfold PowerBuf.get
    split
    · exact he h.1 _
    · exact ho h.2 _
theorem witness_WindowHoldsPowerStream :
    oneSample.Inv ∧ oneSample.WindowInv ∧ oneSample.WindowHolds ∧ oneSample.tap = .window ∧ oneSample.fatal = false ∧
    oneSample.leFits = true ∧ ∃ t, step oneSample = .next t := by
  refine ⟨?_, ?_, ?_, rfl, rfl, by decide, ?_⟩
  · constructor
    case slots0 => exact get_small (by decide)
    case slots1 => exact get_small (by decide)
    all_goals decide
  · exact fun _ _ _ => ⟨by decide, fun h => by simp [oneSample] at h⟩
  · refine fun _ _ _ => ⟨[0x03, 0x08, 0x04, 0x08], by decide, by decide, fun _ => rfl, by decide, by decide, ?_, ?_⟩
    · intro x _ hx
      have : x = 0 := by simp [oneSample, windowAt] at hx; omega
      subst this
      decide
    · intro h; simp [oneSample, windowAt] at h
  · exact ⟨_, rfl⟩
theorem witness_WindowFullUntilStreamEnds :
    (windowAt 0 131072).Inv ∧ (windowAt 0 131072).WindowInv ∧ ready .window (windowAt 0 131072) = true ∧
    (windowAt 0 131072).pos.toNat - (windowAt 0 131072).pos.toNat % 65536 + 131072 < 2 ^ 64 := by
  refine ⟨?_, ?_, by decide, by decide⟩
  · constructor
    case slots0 => exact fun i => by show (0 : Power).toNat ≤ _; decide
    case slots1 => exact fun i => by show (0 : Power).toNat ≤ _; decide
    all_goals decide
  · intro _ _ _
    exact ⟨by decide, fun _ => by decide⟩
theorem witness_WindowShowsPowerStream :
    legalBytes (onStream .idle []).params.nibbleMode [0x03, 0x08, 0x04, 0x08] = true ∧
    (onStream .idle [0x03, 0x08, 0x04, 0x08]).port.ahead = [0x03, 0x08, 0x04, 0x08].map .byte ++ .eof :: [] ∧
    1 ≤ (65536 : Int) ∧ (65536 : Int) ≤ 65536 ∧ (0 : Int) ≤ 2147483647 ∧ (2147483647 : Int) < 2 ^ 31 ∧
    (65535 : Int) < 65536 := by decide
/-- TAP FRAMES at the last position, over an endless stream, with the given window length. -/
def pastFit (w : BitVec 17) : State :=
  { windowAt 18446744073709551615 18446744073709551615 with
    tap := .frames, wsize := w, port := { ahead := [], rest := .live, taken := 0 } }
theorem witness_DmNextEndsWhenNotFull :
    ready .frames { frameAt 100 false .ends with le := 1299 } = true ∧
    ((1299 : Word64).toNat : Int) - (frameAt 100 false .ends).pos.toNat < (frameAt 100 false .ends).wsize.toNat ∧
    (frameAt 100 false .ends).port.kind ≠ .infinite ∧
    (ready .frames (pastFit 1200) = true ∧ (pastFit 1200).port.kind = .infinite ∧
      ((pastFit 1200).le.toNat : Int) - (pastFit 1200).pos.toNat < (pastFit 1200).wsize.toNat ∧
      (pastFit 1200).pos.toNat - (pastFit 1200).pos.toNat % 65536 + 131072 ≥ 2 ^ 64) := by
  decide +kernel

/-- TAP FRAMES with an empty window that is full. -/
def emptyFrames (pos : Nat) (rest : PortRest) : State :=
  { windowAt pos (pos + 1300) with
    tap := .frames, wsize := 1200, port := { ahead := [], rest := rest, taken := 0 } }

/-- No hit: every sum is 0. A window step inside a buffer goes on; one at a boundary ends when the port fails. -/
theorem witness_DmNextPassesOverPosition :
    ready .frames (emptyFrames 65535 .fails) = true ∧
    ((emptyFrames 65535 .fails).le.toNat : Int) - (emptyFrames 65535 .fails).pos.toNat ≥
      (emptyFrames 65535 .fails).wsize.toNat ∧
    peakSum (emptyFrames 65535 .fails) 0 = 0 ∧ ¬ (emptyFrames 65535 .fails).prevSum.toNat < 0 ∧
    (∃ u, wstep { emptyFrames 65534 .ends with curSum := 0, curValid := true } = .ok () u) ∧
    (∃ st u, wstep { emptyFrames 65535 .fails with curSum := 0, curValid := true } = .ended st u) ∧
    (emptyFrames 65534 .ends).pos.toNat % 65536 < 65535 ∧
    (ready .frames (pastFit 0) = true ∧ (pastFit 0).port.kind = .infinite ∧
      ((pastFit 0).le.toNat : Int) - (pastFit 0).pos.toNat ≥ (pastFit 0).wsize.toNat ∧
      peakSum (pastFit 0) 0 = 0 ∧ ∃ u, wstep { pastFit 0 with curSum := 0, curValid := true } = .ended .overflow u) := by
  refine ⟨by decide, by decide, by decide, by decide, ⟨_, wstep_inside (by decide)⟩,
    exists_of_ends (by decide +kernel), by decide, by decide, by decide, by decide, by decide, _, rfl⟩
theorem witness_DmNextDeliversFrame :
    ready .frames (frameAt 65534 false .ends) = true ∧ (frameAt 65534 false .ends).bb.wf = true ∧
    ((frameAt 65534 false .ends).le.toNat : Int) - (frameAt 65534 false .ends).pos.toNat ≥
      (frameAt 65534 false .ends).wsize.toNat ∧
    peakSum (frameAt 65534 false .ends) 0 = 4000 ∧ peakSum (frameAt 65534 false .ends) 1 = 0 ∧
    valleySum (frameAt 65534 false .ends) 0 = 0 ∧ (frameAt 65534 false .ends).prevSum.toNat < 4000 ∧
    (frameByte (frameAt 65534 false .ends) 0).toNat / 8 = 17 ∧ crc24 (candidate (frameAt 65534 false .ends)) = 0 ∧
    (frameAt 65534 false .ends).pos.toNat ≤ 184467440737095516 ∧
    (frameAt 65534 false .ends).pos.toNat % 65536 + (frameAt 65534 false .ends).params.frameSkip.toNat < 65536 := by
  decide +kernel

/-- Hypotheses of the frame-skip statement that look at the state alone. -/
def skipReady (s : State) : Bool :=
  decide (s.tap = .frames) && !s.fatal && isFull s && hitHere (loadCur s) && accepted (loadCur s)

/-- A timestamp one position too large; a skip that fails at a boundary; a skip that goes on. -/
theorem witness_DmNextFrameSkipOutcomes :
    (skipReady (frameAt 184467440737095517 true .ends) = true ∧
      (frameAt 184467440737095517 true .ends).pos.toNat > 184467440737095516) ∧
    (skipReady (frameAt 65535 false .fails) = true ∧ (frameAt 65535 false .fails).params.frameSkip.toNat = 1 ∧
      ∃ st u, wsteps 1 (deliver (loadCur (frameAt 65535 false .fails))) = .ended st u) ∧
    (skipReady (frameAt 184467440737095516 true .ends) = true ∧
      (frameAt 184467440737095516 true .ends).pos.toNat ≤ 184467440737095516 ∧
      ∃ u, wsteps 1 (deliver (loadCur (frameAt 184467440737095516 true .ends))) = .ok () u) := by
  refine ⟨by decide +kernel, ⟨by decide +kernel, by decide +kernel, ?_⟩, ⟨by decide +kernel, by decide +kernel, ?_⟩⟩
  · exact exists_of_ends (by decide +kernel)
  · exact ⟨_, wsteps_inside (by decide +kernel)⟩
theorem witness_DetectorIgnoresByteBuffer :
    (∃ t, exec .dmNext { emptyFrames 0 .ends with le := 1, frameValid := true } = .next t ∧ t.lastSt = .eos) ∧
    (∃ t, exec .dmNext { emptyFrames 0 .ends with le := 1 } = .next t ∧ t.frameValid = false) ∧
    (∃ t, exec .dmNext (frameAt 100 true .ends) = .next t) ∧ (frameAt 100 true .ends).bb.wf = true ∧
    exec .dmNext (pastFit 1200) = .fault .endlessScan :=
  ⟨⟨_, rfl, rfl⟩, ⟨_, rfl, rfl⟩, exists_of_next (by decide +kernel), by decide +kernel, rfl⟩
theorem witness_CrcTableIsBitwiseCrc : 255 ≤ 255 ∧ 256 > 255 := by decide
theorem witness_CrcBufReturnsCrc :
    ((-1 : Int) < 0) ∧ ((5 : Int) > (4 : Nat)) ∧ (257 > 256) ∧ ((0 : Int) ≤ 0 ∧ (0 : Int) ≤ (256 : Nat) ∧ 256 ≤ 256) := by
  decide
theorem witness_SingleBitErrorsDetected : f1.length = 14 ∧ crc24 f1 = 0 ∧ 111 < 112 ∧ f1.length = f2.length := by
  decide +kernel
theorem witness_BfExtIsMathematicalSlice :
    (32 = 0 ∨ 32 ≥ 32) ∧ (1 ≤ 31 ∧ 31 ≤ 31 ∧ ((-1 : Int) < 0 ∨ (-1 : Int) + (31 : Nat) > 64)) ∧
    ((34 : Int) + (31 : Nat) > 64) ∧ ((0 : Int) ≤ 33 ∧ (33 : Int) + (31 : Nat) ≤ 64) := by decide
theorem witness_BfTstReturnsBit : ((-1 : Int) < 0) ∧ ((64 : Int) ≥ 64) ∧ ((0 : Int) ≤ 63 ∧ (63 : Int) < 64) := by decide
theorem witness_BbWrStoresOneByte :
    (256 : BitVec 16).toNat ≥ 256 ∧ (255 : BitVec 16).toNat < 256 ∧ ((256 : Int) > 255) ∧
    ((0 : Int) ≤ 255 ∧ (255 : Int) ≤ 255 ∧ (withBytes f1).bb.wf = true) := by decide
theorem witness_BsByteReadsByte : ((-1 : Int) < 0) ∧ ((256 : Int) > 255) ∧ ((0 : Int) ≤ 255 ∧ (255 : Int) ≤ 255) := by
  decide
theorem witness_BsRangeReadsBigEndian :
    ((4 : Int) > (3 : Nat)) ∧ ((0 : Int) ≤ 0 ∧ 9 ≤ 256 ∧ ((9 : Nat) : Int) - 0 > 8) ∧
    ((0 : Int) ≤ 248 ∧ (248 : Int) ≤ (256 : Nat) ∧ 256 ≤ 256 ∧ ((256 : Nat) : Int) - 248 ≤ 8) := by decide
theorem witness_OnlyBbWrAndDmNextWriteBuffer :
    (∃ t, exec .nop State.reset = .next t) ∧ (∃ t, exec .dmNext State.reset = .next t) ∧
    Instr.nop ≠ .dmNext ∧ ∀ index imm, Instr.nop ≠ .bbWr index imm := by
  exact ⟨⟨_, rfl⟩, ⟨_, rfl⟩, by decide, fun _ _ => by simp⟩
theorem witness_HexRoundTrip :
    parseHex ['8', 'D'] = some [0x8D] ∧ ['8'].length % 2 = 1 ∧
    ∃ c ∈ ['8', 'd'], c ∉ ['0', '1', '2', '3', '4', '5', '6', '7', '8', '9', 'A', 'B', 'C', 'D', 'E', 'F'] :=
  ⟨by decide, by decide, 'd', by simp, by simp⟩
theorem witness_FrameFieldsOfSlot : ∃ b : Nat → Nat, ∀ n, b n = ((withBytes f1).bb.read n).toNat := ⟨_, fun _ => rfl⟩
theorem witness_FrCheckTestsCrc :
    f1 = (List.range 14).map (fun n => (withBytes f1).bb.read n) ∧ crc24 f1 = 0 ∧ crc24 (f1.set 13 0x99) ≠ 0 := by
  decide +kernel
theorem witness_AltDecDirectCode :
    (4096 : BitVec 16).toNat ≥ 4096 ∧ (0xFFF : BitVec 16).toNat < 4096 ∧ (0xFFF : BitVec 16).getLsbD 4 = true := by decide
theorem witness_AltDecGrayCode :
    (0xFEF : BitVec 16).toNat < 4096 ∧ (0xFEF : BitVec 16).getLsbD 4 = false ∧ (0x800 : BitVec 16).getLsbD 4 = false := by
  decide
theorem witness_InvariantKept :
    ({ State.reset with queue := [.command 0] } : State).Inv ∧
    ∃ t, step { State.reset with queue := [.command 0] } = .next t := by
  refine ⟨?_, _, rfl⟩
  constructor
  case slots0 => exact fun i => by show (0 : Power).toNat ≤ _; decide
  case slots1 => exact fun i => by show (0 : Power).toNat ≤ _; decide
  all_goals decide
theorem witness_FlagsClearedOnlyByInit :
    (∀ tap w, Instr.frDf ≠ .init tap w) ∧ Instr.frDf ≠ .dmNext ∧
    ∃ s t : State, exec .frDf s = .next t ∧ s.fatal = true ∧ s.eofSeen = true ∧ t.frameValid = true := by
  refine ⟨fun _ _ => by simp, by decide, { State.reset with fatal := true, eofSeen := true, frameValid := true }, _, rfl, ?_⟩
  decide
theorem witness_OnlyInitSetsTapAndWindowSize :
    (∀ tap w, Instr.nop ≠ .init tap w) ∧ (∃ t, exec .nop State.reset = .next t) ∧
    ∃ t, step { State.reset with queue := [.reset 0] } = .next t := ⟨fun _ _ => by simp, ⟨_, rfl⟩, ⟨_, rfl⟩⟩
theorem witness_PureCommandsLeaveChainAlone :
    (Instr.frMe).op ∈ [Op.nop, .csrr, .frMe] ∧ (Instr.frMe).op ≠ .csrr ∧
    State.reset.bb = (windowAt 3 4).bb ∧ State.reset.params = (windowAt 3 4).params ∧
    (∃ t, exec .frMe State.reset = .next t) ∧ ∃ t, exec .frMe (windowAt 3 4) = .next t :=
  ⟨by decide, by decide, by decide, by decide, ⟨_, rfl⟩, ⟨_, rfl⟩⟩
theorem witness_ResetHasInvariants : ∃ t, exec (.init 2 0) (withBytes f1) = .next t ∧ t.lastSt = .ok := ⟨_, rfl, rfl⟩
/-- A full window with F1 in it, over an endless stream. -/
def endlessF1 : State := { frameAt 100 false .live with le := 131072 }
theorem witness_ClosedStreamNeverWaits :
    (withPort .frames [] .ends).port.rest = .ends ∧ (withPort .frames [] .live).port.rest = .live ∧
    endlessF1.Inv ∧ endlessF1.WindowInv ∧ ready .frames endlessF1 = true ∧ endlessF1.port.kind = .infinite ∧
    ∃ t, exec .dmNext endlessF1 = .next t := by
  refine ⟨rfl, rfl, ?_, ?_, by decide +kernel, by decide +kernel, exists_of_next (by decide +kernel)⟩
  · constructor
    case slots0 => exact get_small (by decide +kernel)
    case slots1 => exact get_small (by decide +kernel)
    all_goals decide +kernel
  · exact fun _ _ _ => ⟨by decide +kernel, fun _ => by decide +kernel⟩
theorem witness_StreamBytesPerCommand :
    (Instr.pwAdvn 2147483647).wf = true ∧ Instr.pwAdvn 2147483647 ≠ .dmNext ∧
    (∀ tap w, Instr.sdNext ≠ .init tap w) ∧ (∃ t, exec .sdNext (onStream .samples [0x00, 0x08]) = .next t) ∧
    ∃ t, exec (.init 2 0) State.reset = .next t ∧ t.lastSt ≠ .invalidArgument :=
  ⟨by decide, by decide, fun _ _ => by simp, ⟨_, rfl⟩, ⟨_, rfl, by decide⟩⟩

end Sys2Proof.Tests
end

/-! What one command and one step can do, said once: the stream-unit commands and their state checks, INIT, the host's next
action, and what the sample chain and the detector leave alone. -/

namespace Sys2Proof.Machine

open Sys2Proof.Config

/-! The stream-unit commands (R34, R106). -/

/-- The stream-unit commands: those that the table of R34 lists. -/
def streamOps : List Op := [.sdNext, .pcNext, .pwGet, .pwAdv, .pwAdvn, .pwFull, .dmNext]

/-- A stream-unit command is its body behind the two state checks of decode. -/
theorem exec_eq_streamUnit {i : Instr} (h : i.op ∈ streamOps) :
    ∃ body, ∀ s, exec i s = (streamUnit i.op s body).close := by
  cases i with
  | sdNext => exact ⟨_, fun _ => rfl⟩
  | pcNext => exact ⟨_, fun _ => rfl⟩
  | pwGet k => exact ⟨_, fun _ => rfl⟩
  | pwAdv => exact ⟨_, fun _ => rfl⟩
  | pwAdvn n => exact ⟨_, fun _ => rfl⟩
  | pwFull => exact ⟨_, fun _ => rfl⟩
  | dmNext => exact ⟨_, fun _ => rfl⟩
  | _ => simp [streamOps, Instr.op] at h

/-- Under a TAP that does not allow it, a stream-unit command is turned away with WRONG_TAP. -/
theorem exec_wrongTap {i : Instr} {s : State} (h : i.op ∈ streamOps) (ht : s.tap.allows i.op = false) :
    exec i s = .next (s.finish .wrongTap 0) := by
  obtain ⟨body, hx⟩ := exec_eq_streamUnit h
  rw [hx, streamUnit_wrongTap body ht, Flow.close_ended]

/-- Under a TAP that allows it, while FATAL is set, a stream-unit command is turned away with FATAL. -/
theorem exec_fatal {i : Instr} {s : State} (h : i.op ∈ streamOps) (ht : s.tap.allows i.op = true)
    (hf : s.fatal = true) : exec i s = .next (s.finish .fatal 0) := by
  obtain ⟨body, hx⟩ := exec_eq_streamUnit h
  rw [hx, streamUnit_fatal body ht hf, Flow.close_ended]

/-- While FATAL is set, a stream-unit command writes nothing but `RES` and `LAST_ST`. -/
theorem exec_streamOp_of_fatal {i : Instr} {s : State} (h : i.op ∈ streamOps) (hf : s.fatal = true) :
    ∃ st, exec i s = .next (s.finish st 0) := by
  cases ht : s.tap.allows i.op with
  | false => exact ⟨_, exec_wrongTap h ht⟩
  | true => exact ⟨_, exec_fatal h ht hf⟩

/-! Every command but INIT: what its writes keep, it keeps. -/

/-- The writes of the commands outside the sample chain (`RES` and `LAST_ST`, and BB_WR's) keep `P`. -/
structure BesideKeeps (P : State → Prop) : Prop where
  finish : ∀ s st v, P s → P (s.finish st v)
  write : ∀ s a b, a < bbSize → P s → P (clearFrameValidBelow a (memWrite s a [b]))

section

variable {P : State → Prop} {i : Instr} {s t : State}

theorem exec_keeps_of_reads (h : BesideKeeps P) (hr : Instr.reads i = true) (hs : P s) (hx : exec i s = .next t) :
    P t := by
  obtain ⟨st, v, he⟩ := exec_reads hr s
  rw [he, Host.Outcome.next.injEq] at hx
  subst hx
  exact h.finish _ _ _ hs

theorem execBbWr_keeps (h : BesideKeeps P) {index : Int} {imm : BitVec 16} (hs : P s)
    (hx : execBbWr index imm s = .next t) : P t := by
  rcases execBbWr_next (index := index) (imm := imm) s with ⟨st, he⟩ | ⟨a, ha, he⟩
  · rw [he, Host.Outcome.next.injEq] at hx
    subst hx
    exact h.finish _ _ _ hs
  · rw [he, Host.Outcome.next.injEq] at hx
    subst hx
    exact h.finish _ _ _ (h.write _ _ _ ha hs)

/-- A command that is neither INIT nor a stream-unit command. -/
theorem exec_keeps_beside (h : BesideKeeps P) (hi : ∀ tap w, i ≠ .init tap w) (hu : i.op ∉ streamOps) (hs : P s)
    (hx : exec i s = .next t) : P t := by
  by_cases hr : Instr.reads i = true
  · exact exec_keeps_of_reads h hr hs hx
  · cases i with
    | init tap w => exact absurd rfl (hi tap w)
    | bbWr index imm => exact execBbWr_keeps h hs hx
    | sdNext => simp [streamOps, Instr.op] at hu
    | pcNext => simp [streamOps, Instr.op] at hu
    | pwAdv => simp [streamOps, Instr.op] at hu
    | pwAdvn n => simp [streamOps, Instr.op] at hu
    | dmNext => simp [streamOps, Instr.op] at hu
    | _ => exact absurd rfl hr

/-- A command that is neither INIT nor DM_NEXT. -/
theorem exec_keeps_of_step (h : BesideKeeps P) (hw : StepKeeps P) (hi : ∀ tap w, i ≠ .init tap w)
    (hd : i ≠ .dmNext) (hs : P s) (hx : exec i s = .next t) : P t := by
  by_cases hr : Instr.reads i = true
  · exact exec_keeps_of_reads h hr hs hx
  · cases i with
    | init tap w => exact absurd rfl (hi tap w)
    | dmNext => exact absurd rfl hd
    | bbWr index imm => exact execBbWr_keeps h hs hx
    | sdNext => exact execSdNext_keeps hw.toReadKeeps h.finish hs hx
    | pcNext => exact execPcNext_keeps hw.toPairKeeps h.finish hs hx
    | pwAdv => exact execPwAdv_keeps hw h.finish hs hx
    | pwAdvn n => exact execPwAdvn_keeps hw h.finish hs hx
    | _ => exact absurd rfl hr

/-- A command that is not INIT. -/
theorem exec_keeps_of_scan (h : BesideKeeps P) (hd : ScanKeeps P) (hi : ∀ tap w, i ≠ .init tap w) (hs : P s)
    (hx : exec i s = .next t) : P t := by
  by_cases hdm : i = .dmNext
  · subst hdm
    exact execDmNext_keeps hd h.finish hs hx
  · exact exec_keeps_of_step h hd.toStepKeeps hi hdm hs hx

/-! What every command but INIT leaves alone. -/

/-- `t` has the TAP, the window length and the parameters of `s`, and EOF_SEEN where `s` has it. -/
structure State.SameTap (s t : State) : Prop where
  tap : t.tap = s.tap
  wsize : t.wsize = s.wsize
  params : t.params = s.params
  eofSeen : s.eofSeen = true → t.eofSeen = true

theorem State.SameTap.refl (s : State) : s.SameTap s := ⟨rfl, rfl, rfl, id⟩

theorem sameTap_scanKeeps (s : State) : ScanKeeps s.SameTap where
  take := fun _ _ _ _ h => { h with }
  count := fun _ h => { h with }
  sawEof := fun _ h => { h with eofSeen := fun _ => rfl }
  failed := fun _ _ _ h => { h with }
  insert := fun _ _ _ h => { h with }
  start := fun _ b h => by cases b <;> exact { h with }
  store := fun _ b _ h => by cases b <;> exact { h with }
  move := fun _ _ h => ⟨by simp [h.tap], by simp [h.wsize], by simp [h.params], by simpa using h.eofSeen⟩
  load := fun _ h => ⟨by simp [h.tap], by simp [h.wsize], by simp [h.params], by simpa using h.eofSeen⟩
  shift := fun _ _ _ h => { h with }
  deliver := fun _ _ h => { h with }
  forget := fun _ h => { h with }

theorem sameTap_besideKeeps (s : State) : BesideKeeps s.SameTap where
  finish := fun _ _ _ h => { h with }
  write := fun _ _ _ _ h => ⟨by simp [h.tap], by simp [h.wsize], by simp [h.params], by simpa using h.eofSeen⟩

theorem exec_sameTap (hi : ∀ tap w, i ≠ .init tap w) (hx : exec i s = .next t) : s.SameTap t :=
  exec_keeps_of_scan (sameTap_besideKeeps s) (sameTap_scanKeeps s) hi (.refl s) hx

/-! INIT and the step, inverted. -/

/-- The initial fill writes what a fill writes and nothing else. -/
theorem initFill_frame {tp : Tap} (hl : (initFill tp s).Leaves t) : FilledFrom s t := by
  cases tp with
  | idle => exact hl ▸ FilledFrom.refl s
  | samples => exact hl ▸ FilledFrom.refl s
  | power => exact hl ▸ FilledFrom.refl s
  | window => exact fillInitial_keeps (filledFrom_keeps s) (.refl s) hl
  | frames => exact fillInitial_keeps (filledFrom_keeps s) (.refl s) hl

theorem FilledFrom.tap (h : FilledFrom s t) : t.tap = s.tap := by rw [h]

theorem FilledFrom.params (h : FilledFrom s t) : t.params = s.params := by rw [h]

/-- INIT refuses its operands and changes nothing, or clears the chain for the TAP they name and runs its initial fill
(R141). -/
theorem execInit_next {tap : Nat} {w : Int} (hx : execInit tap w s = .next t) :
    ∃ s' st v, t = s'.finish st v ∧
      (s' = s ∨ ∃ tp, initArgOk tp w = true ∧ (initFill tp (clearChain tp w s)).Leaves s') := by
  obtain ⟨s', st, v, hl, rfl⟩ := Flow.close_next hx
  refine ⟨s', st, v, rfl, ?_⟩
  split at hl
  · exact .inl hl.symm
  · next tp htp =>
    split at hl
    · exact .inl hl.symm
    · next hok =>
      refine .inr ⟨tp, by simpa using hok, ?_⟩
      rcases Flow.leaves_bind hl with ⟨st, he⟩ | ⟨u, s2, h2, hl⟩
      · rw [he, Flow.leaves_ended]
      · rw [h2]; exact hl

/-- A step takes the host's next action off the queue and resets, runs a command, or turns a descriptor away. -/
theorem step_next (hx : step s = .next t) :
    ∃ q, (∃ lost, t = assertReset lost { s with queue := q }) ∨ (∃ i, exec i { s with queue := q } = .next t) ∨
      ∃ e, t = rejectCommand e { s with queue := q } := by
  unfold step at hx
  split at hx
  · simp at hx
  · next lost q _ => exact ⟨q, .inl ⟨lost, by simpa using hx.symm⟩⟩
  · next d q _ =>
    unfold runCommand at hx
    split at hx
    · next i _ => exact ⟨q, .inr (.inl ⟨i, hx⟩)⟩
    · next e _ => exact ⟨q, .inr (.inr ⟨e, by simpa using hx.symm⟩)⟩

/-- No command writes the parameters (R392). -/
theorem exec_params (hx : exec i s = .next t) : t.params = s.params := by
  by_cases hi : ∀ tap w, i ≠ .init tap w
  · exact (exec_sameTap hi hx).params
  · push Not at hi
    obtain ⟨tap, w, rfl⟩ := hi
    obtain ⟨s', st, v, rfl, rfl | ⟨tp, -, hl⟩⟩ := execInit_next hx
    · rfl
    · exact (initFill_frame hl).params

/-- No step writes the parameters, a reset included (R392). -/
theorem step_params (hx : step s = .next t) : t.params = s.params := by
  obtain ⟨q, ⟨lost, rfl⟩ | ⟨i, he⟩ | ⟨e, rfl⟩⟩ := step_next hx
  · rfl
  · have hp := exec_params he
    exact hp
  · rfl

end

end Sys2Proof.Machine

/-! Every step keeps the invariant of reachable states. -/

namespace Sys2Proof.Machine

open Sys2Proof.Config

/-! Bounds: the slots, the window samples, the peak sum (R38, R40, R235). -/

theorem PowerBuf.get_halves_le {b : PowerBuf} {m : Nat} (h : ∀ i, (b.get i).toNat ≤ m) (i : Nat) :
    (b.halves.1.get i).toNat ≤ m ∧ (b.halves.2.get i).toNat ≤ m := by
  cases b with
  | zeros => simp [PowerBuf.halves]
  | slot p => simp [PowerBuf.halves]
  | node e o =>
    have he := h (2 * i)
    have ho := h (2 * i + 1)
    simp only [PowerBuf.get, show 2 * i % 2 = 0 by omega, show (2 * i + 1) % 2 = 1 by omega,
      show 2 * i / 2 = i by omega, show (2 * i + 1) / 2 = i by omega] at he ho
    exact ⟨he, ho⟩

/-- A bound on every slot and on the value stored bounds every slot after the write, at every depth and index. -/
theorem PowerBuf.get_setAt_le {d : Nat} {b : PowerBuf} {i m : Nat} {p : Power} (h : ∀ j, (b.get j).toNat ≤ m)
    (hp : p.toNat ≤ m) (j : Nat) : ((PowerBuf.setAt d b i p).get j).toNat ≤ m := by
  induction d generalizing b i j with
  | zero =>
    simp only [PowerBuf.setAt]
    split
    · simp
    · exact hp
  | succ d ih =>
    have he := fun k => (PowerBuf.get_halves_le h k).1
    have ho := fun k => (PowerBuf.get_halves_le h k).2
    simp only [PowerBuf.setAt]
    split
    · rw [PowerBuf.get_join]
      split
      · exact ih he _
      · exact ho _
    · rw [PowerBuf.get_join]
      split
      · exact he _
      · exact ih ho _

theorem PowerBuf.get_set_le {b : PowerBuf} {i m : Nat} {p : Power} (h : ∀ j, (b.get j).toNat ≤ m)
    (hp : p.toNat ≤ m) (j : Nat) : ((b.set i p).get j).toNat ≤ m := PowerBuf.get_setAt_le h hp j

theorem PowerBuf.get_zeros_le (i : Nat) : (PowerBuf.zeros.get i).toNat ≤ maxPower := Nat.zero_le _

theorem wread_le {s : State} (h0 : ∀ i, (s.buf0.get i).toNat ≤ maxPower) (h1 : ∀ i, (s.buf1.get i).toNat ≤ maxPower)
    (i : Nat) : (wread s i).toNat ≤ maxPower := by
  have hb : ∀ b k, ((bufOf s b).get k).toNat ≤ maxPower := fun b k => by
    cases b with
    | false => exact h0 k
    | true => exact h1 k
  simp only [wread]
  split
  · exact hb _ _
  · exact hb _ _

/-- Four samples bounded by `maxPower`: their sum, as the 32 bits hold it, is at most `maxPeakSum`. -/
theorem peakSum_le {s : State} (h0 : ∀ i, (s.buf0.get i).toNat ≤ maxPower)
    (h1 : ∀ i, (s.buf1.get i).toNat ≤ maxPower) (j : Nat) : (BitVec.ofNat 32 (peakSum s j)).toNat ≤ maxPeakSum := by
  have hr := wread_le h0 h1
  refine (Nat.mod_le _ _).trans ?_
  calc peakSum s j
      ≤ (peakOffsets.map fun o => (wread s (o + j)).toNat).length • maxPower :=
        List.sum_le_card_nsmul _ _ fun x hx => by
          obtain ⟨o, -, rfl⟩ := List.mem_map.1 hx
          exact hr (o + j)
    _ = maxPeakSum := by simp [peakOffsets, maxPower, maxPeakSum]

/-! The frame slot (R284, R285, R316). -/

theorem slotAgrees_iff {s : State} : s.slotAgrees = true ↔
    (s.frameValid = true → (s.bb.read 0).toNat / 8 = dfRequired ∧ crc24 (memRead s 0 frameBytes) = 0) := by
  unfold State.slotAgrees
  cases s.frameValid <;> simp

/-- Lists read from the same bytes are the same. -/
theorem Memory.readList_congr {m m' : Memory} {a n : Nat} (h : ∀ k, k < n → m.read (a + k) = m'.read (a + k)) :
    m.readList a n = m'.readList a n := by
  refine List.ext_getElem (by simp) fun j h1 _ => ?_
  rw [Memory.getElem_readList, Memory.getElem_readList, h j (by simpa using h1)]

/-- BB_WR leaves the slot alone, or clears FRAME_VALID (R33, R162). -/
theorem slotAgrees_write {s : State} (a : Nat) (b : Byte) (h : s.slotAgrees = true) :
    (clearFrameValidBelow a (memWrite s a [b])).slotAgrees = true := by
  rw [slotAgrees_iff] at h ⊢
  by_cases ha : a < frameBytes
  · simp [ha]
  · have hout : ∀ k, k < frameBytes → (Memory.writeList s.bb a [b]).read k = s.bb.read k := fun k hk =>
      Memory.read_writeList_outside _ _ (.inl (by omega))
    have hlist : (Memory.writeList s.bb a [b]).readList 0 frameBytes = s.bb.readList 0 frameBytes :=
      Memory.readList_congr fun k hk => hout _ (by omega)
    simpa [ha, memRead, hout 0 (by decide), hlist] using h

@[simp] theorem length_candidate (s : State) : (candidate s).length = frameBytes := by simp [candidate]

/-- A delivered frame is the accepted candidate: downlink format 17 and CRC 0. -/
theorem slotAgrees_deliver {s : State} (hbb : s.bb.wf = true) (ha : accepted s = true) :
    (deliver s).slotAgrees = true := by
  have hfit : 0 + (candidate s).length ≤ bbSize := by rw [length_candidate]; decide
  have hlist : memRead (deliver s) 0 frameBytes = candidate s := by
    simpa [memRead] using Memory.readList_writeList hbb hfit
  have hread : (deliver s).bb.read 0 = frameByte s 0 := by
    have h0 := Memory.read_writeList_inside hbb hfit (k := 0) (by rw [length_candidate]; decide)
    simpa [candidate] using h0
  unfold accepted at ha
  split at ha
  · next hdf =>
    rw [BitVec.toNat_ushiftRight, Nat.shiftRight_eq_div_pow] at hdf
    exact slotAgrees_iff.2 fun _ => ⟨by rw [hread]; exact hdf, by rw [hlist]; simpa using ha⟩
  · simp at ha

/-! The invariant without its clause on the quiet window. -/

/-- The clauses of `State.Inv` that every single write keeps, under every TAP. -/
structure State.Sound (s : State) : Prop where
  params : s.params.legal = true
  bb : s.bb.wf = true
  buf0 : s.buf0.canon = true
  buf1 : s.buf1.canon = true
  slots0 : ∀ i, (s.buf0.get i).toNat ≤ maxPower
  slots1 : ∀ i, (s.buf1.get i).toNat ≤ maxPower
  prevSum : s.prevSum.toNat ≤ maxPeakSum
  curSum : s.curSum.toNat ≤ maxPeakSum
  wsize : s.wsizeAgrees = true
  cause : s.causeAgrees = true
  slot : s.slotAgrees = true

theorem State.inv_iff {s : State} : s.Inv ↔ s.Sound ∧ s.windowQuiet = true :=
  ⟨fun h => ⟨{ h with }, h.quiet⟩, fun ⟨h, hq⟩ => { h with quiet := hq }⟩

/-- The window length INIT sets agrees with the TAP (R35, R141). -/
theorem wsizeAgrees_clearChain {tp : Tap} {w : Int} (s : State) (hok : initArgOk tp w = true) :
    (clearChain tp w s).wsizeAgrees = true := by
  cases tp with
  | idle => rfl
  | samples => rfl
  | power => rfl
  | window =>
    simp only [initArgOk, Bool.and_eq_true, decide_eq_true_eq] at hok
    simp only [State.wsizeAgrees, clearChain_tap, clearChain_wsize, initWsize, Bool.and_eq_true, decide_eq_true_eq,
      BitVec.toNat_ofInt, pwBatch]
    omega
  | frames => simp [State.wsizeAgrees, initWsize]

theorem sound_clearChain {tp : Tap} {w : Int} {s : State} (h : s.Sound) (hok : initArgOk tp w = true) :
    (clearChain tp w s).Sound :=
  { h with
    buf0 := rfl, buf1 := rfl, slots0 := PowerBuf.get_zeros_le, slots1 := PowerBuf.get_zeros_le
    prevSum := Nat.zero_le _, curSum := Nat.zero_le _, wsize := wsizeAgrees_clearChain s hok
    cause := rfl, slot := rfl }

theorem sound_failed {s : State} {st : Status} (hst : st = .ioError ∨ st = .sampleRange) (h : s.Sound) :
    State.Sound { s with fatal := true, fatalCause := st } :=
  { h with cause := by simpa [State.causeAgrees] using hst }

theorem sound_storeSlot {s : State} (b : Bool) (p : Power) (hp : p.toNat ≤ maxPower) (h : s.Sound) :
    (storeSlot b p s).Sound := by
  cases b with
  | false => exact { h with buf0 := PowerBuf.canon_set _ _ h.buf0, slots0 := PowerBuf.get_set_le h.slots0 hp }
  | true => exact { h with buf1 := PowerBuf.canon_set _ _ h.buf1, slots1 := PowerBuf.get_set_le h.slots1 hp }

theorem sound_movePos {s : State} (h : s.Sound) : (movePos s).Sound := by
  simp only [movePos]
  split
  · exact { h with }
  · exact { h with }

theorem sound_loadCur {s : State} (h : s.Sound) : (loadCur s).Sound := by
  unfold loadCur
  split
  · exact h
  · exact { h with curSum := peakSum_le h.slots0 h.slots1 0 }

theorem sound_deliver {s : State} (ha : accepted s = true) (h : s.Sound) : (deliver s).Sound :=
  { h with
    bb := Memory.wf_writeList h.bb (by rw [length_candidate]; decide)
    slot := slotAgrees_deliver h.bb ha }

theorem sound_write {s : State} {a : Nat} (b : Byte) (ha : a < bbSize) (h : s.Sound) :
    (clearFrameValidBelow a (memWrite s a [b])).Sound := by
  have hslot := slotAgrees_write a b h.slot
  have hbb : (Memory.writeList s.bb a [b]).wf = true := Memory.wf_write b h.bb ha
  unfold clearFrameValidBelow at hslot ⊢
  split at hslot
  · next hlt => rw [if_pos hlt]; exact { h with bb := hbb, slot := hslot }
  · next hge => rw [if_neg hge]; exact { h with bb := hbb, slot := hslot }

theorem sound_execKeeps : ExecKeeps State.Sound where
  take := fun _ _ _ _ h => { h with }
  count := fun _ h => { h with }
  sawEof := fun _ h => { h with }
  failed := fun _ _ hst h => sound_failed hst h
  insert := fun _ _ _ h => { h with }
  start := fun _ b h => by cases b <;> exact { h with }
  store := fun _ b hist h => sound_storeSlot b _ (powerOf_le hist) h
  move := fun _ _ h => sound_movePos h
  load := fun _ h => sound_loadCur h
  shift := fun _ _ h h' => { h' with prevSum := h.curSum, curSum := peakSum_le h.slots0 h.slots1 1 }
  deliver := fun _ ha h => sound_deliver ha h
  forget := fun _ h => { h with prevSum := Nat.zero_le _, curSum := Nat.zero_le _ }
  finish := fun _ _ _ h => { h with }
  clear := fun _ _ _ hok h => sound_clearChain h hok
  write := fun _ _ b ha h => sound_write b ha h

/-! The quiet window under IDLE, SAMPLES and POWER (R34, R141). -/

/-- TAP is WINDOW or FRAMES, under which the window and the detector work. -/
def State.onWindow (s : State) : Prop := s.tap = .window ∨ s.tap = .frames

theorem windowQuiet_of_onWindow {s : State} (h : s.onWindow) : s.windowQuiet = true := by
  unfold State.windowQuiet
  rcases h with h | h <;> rw [h]

/-- Off the window the table of R34 allows SD_NEXT and PC_NEXT at most. -/
theorem eq_of_allows_off_window {i : Instr} {s : State} (h : ¬ s.onWindow) (ha : s.tap.allows i.op = true) :
    i = .sdNext ∨ i = .pcNext := by
  unfold State.onWindow at h
  cases ht : s.tap with
  | idle => simp [ht, Tap.allows] at ha
  | samples =>
    have hop : i.op = .sdNext := by simpa [ht, Tap.allows] using ha
    exact .inl (by cases i <;> simp [Instr.op] at hop ⊢)
  | power =>
    have hop : i.op = .pcNext := by simpa [ht, Tap.allows] using ha
    exact .inr (by cases i <;> simp [Instr.op] at hop ⊢)
  | window => simp [ht] at h
  | frames => simp [ht] at h

theorem windowQuiet_pairKeeps : PairKeeps fun s => s.windowQuiet = true where
  take := fun _ _ _ _ h => h
  count := fun _ h => h
  sawEof := fun _ h => h
  failed := fun _ _ _ h => h
  insert := fun _ _ _ h => h

theorem windowQuiet_besideKeeps : BesideKeeps fun s => s.windowQuiet = true where
  finish := fun _ _ _ h => h
  write := fun s a b _ h => by
    unfold clearFrameValidBelow
    split
    · cases ht : s.tap <;> simp_all [State.windowQuiet, State.windowQuiet.quiet]
    · exact h

section

variable {i : Instr} {s t : State}

theorem windowQuiet_clearChain (tp : Tap) (w : Int) (s : State) : (clearChain tp w s).windowQuiet = true := by
  cases tp <;> rfl

/-- The initial fill runs under WINDOW and FRAMES only, so it leaves a quiet window quiet. -/
theorem windowQuiet_initFill {s : State} (h : s.windowQuiet = true) (hl : (initFill s.tap s).Leaves t) :
    t.windowQuiet = true := by
  have htap := (initFill_frame hl).tap
  cases ht : s.tap with
  | idle => rw [ht] at hl; exact hl ▸ h
  | samples => rw [ht] at hl; exact hl ▸ h
  | power => rw [ht] at hl; exact hl ▸ h
  | window => exact windowQuiet_of_onWindow (.inl (htap.trans ht))
  | frames => exact windowQuiet_of_onWindow (.inr (htap.trans ht))

theorem execInit_windowQuiet {tap : Nat} {w : Int} (h : s.windowQuiet = true) (hx : execInit tap w s = .next t) :
    t.windowQuiet = true := by
  obtain ⟨s', st, v, rfl, rfl | ⟨tp, -, hl⟩⟩ := execInit_next hx
  · exact h
  · have hs' : s'.windowQuiet = true := windowQuiet_initFill (windowQuiet_clearChain tp w s) hl
    exact hs'

/-- Off the window a command that would move it is turned away. -/
theorem exec_windowQuiet_of_off (hoff : ¬ s.onWindow) (hi : ∀ tap w, i ≠ .init tap w) (h : s.windowQuiet = true)
    (hx : exec i s = .next t) : t.windowQuiet = true := by
  by_cases hu : i.op ∈ streamOps
  · cases ha : s.tap.allows i.op with
    | false =>
      rw [exec_wrongTap hu ha, Host.Outcome.next.injEq] at hx
      exact hx ▸ h
    | true =>
      rcases eq_of_allows_off_window hoff ha with rfl | rfl
      · exact execSdNext_keeps windowQuiet_pairKeeps.toReadKeeps windowQuiet_besideKeeps.finish h hx
      · exact execPcNext_keeps windowQuiet_pairKeeps windowQuiet_besideKeeps.finish h hx
  · exact exec_keeps_beside windowQuiet_besideKeeps hi hu h hx

theorem exec_windowQuiet (h : s.windowQuiet = true) (hx : exec i s = .next t) : t.windowQuiet = true := by
  by_cases hi : ∀ tap w, i ≠ .init tap w
  · by_cases hon : s.onWindow
    · refine windowQuiet_of_onWindow ?_
      unfold State.onWindow
      rw [(exec_sameTap hi hx).tap]
      exact hon
    · exact exec_windowQuiet_of_off hon hi h hx
  · push Not at hi
    obtain ⟨tap, w, rfl⟩ := hi
    exact execInit_windowQuiet h hx

/-! The whole invariant. -/

theorem exec_inv (h : s.Inv) (hx : exec i s = .next t) : t.Inv := by
  obtain ⟨hs, hq⟩ := State.inv_iff.1 h
  exact State.inv_iff.2 ⟨exec_keeps sound_execKeeps hs hx, exec_windowQuiet hq hx⟩

theorem inv_assertReset (lost : Nat) (h : s.params.legal = true) : (assertReset lost s).Inv where
  params := h
  bb := rfl
  buf0 := rfl
  buf1 := rfl
  slots0 := PowerBuf.get_zeros_le
  slots1 := PowerBuf.get_zeros_le
  prevSum := Nat.zero_le _
  curSum := Nat.zero_le _
  wsize := rfl
  cause := rfl
  slot := rfl
  quiet := rfl

end

/-- Settles O54: every write keeps all clauses but the quiet window, and off the window no command that would disturb it
runs. -/
theorem invariantKept : Obligations.InvariantKept := by
  intro s t h hx
  obtain ⟨q, ⟨lost, rfl⟩ | ⟨i, he⟩ | ⟨e, rfl⟩⟩ := step_next hx
  · exact inv_assertReset lost h.params
  · exact exec_inv (s := { s with queue := q }) { h with } he
  · exact { h with }

end Sys2Proof.Machine

/-! The CSRs (R45 to R56), the state checks of the stream-unit commands, and the flags and settings that only INIT and a
reset write. -/

namespace Sys2Proof.Machine

open Sys2Proof.Config

/-! CSRR returns what `csrValue` says (R147). -/

theorem exec_csrr_of_some {n : Nat} {s : State} {v : Word64} (h : csrValue n s = some v) :
    exec (.csrr n) s = .next { s with res := v, lastSt := .ok } := by
  show execCsrr n s = _
  unfold execCsrr
  rw [h]
  rfl

theorem exec_csrr_of_none {n : Nat} {s : State} (h : csrValue n s = none) :
    exec (.csrr n) s = .next { s with res := 0, lastSt := .outOfRange } := by
  show execCsrr n s = _
  unfold execCsrr
  rw [h]
  rfl

/-- No CSR has a number from 0x12 up (R45). -/
theorem csrValue_of_le {n : Nat} (s : State) (h : 0x12 ≤ n) : csrValue n s = none := by
  unfold csrValue
  split
  case h_19 => rfl
  all_goals omega

/-- CSR 0x08 + k is `H[k]`, sign-extended (R54). -/
theorem csrValue_hist (s : State) (k : Fin 8) : csrValue (0x08 + k) s = some (s.hist[k].signExtend 64) := by
  fin_cases k <;> rfl

/-! Words put together from fields. -/

theorem toNat_append_eq_add {m n : Nat} (x : BitVec m) (y : BitVec n) :
    (x ++ y).toNat = 2 ^ n * x.toNat + y.toNat := by
  rw [BitVec.toNat_append, ← Nat.shiftLeft_add_eq_or_of_lt y.isLt, Nat.shiftLeft_eq, Nat.mul_comm]

theorem toNat_bit (b : Bool) : (bit b).toNat = b.toNat := BitVec.toNat_ofBool b

theorem toNat_statusWord (s : State) :
    (statusWord s).toNat = s.fatal.toNat + 2 * s.eofSeen.toNat + 4 * (wfull s).toNat + 8 * s.frameValid.toNat
      + 16 * s.tap.code.toNat + 256 * s.lastSt.code.toNat + 65536 * s.fatalCause.code.toNat := by
  simp only [statusWord, toNat_append_eq_add, toNat_bit, BitVec.ofNat_eq_ofNat, BitVec.toNat_ofNat, Nat.zero_mod]
  ring

theorem toNat_cfgWord (p : Params) :
    (cfgWord p).toNat = (peakCmpBit p.peakCmp).toNat + 2 * (altRuleBit p.altRule).toNat
      + 4 * (nibbleModeBit p.nibbleMode).toNat + 65536 * p.frameSkip.toNat
      + 4294967296 * (p.dmWindow.toNat % 65536) := by
  simp only [cfgWord, toNat_append_eq_add, BitVec.extractLsb'_toNat, BitVec.ofNat_eq_ofNat, BitVec.toNat_ofNat,
    Nat.zero_mod, Nat.shiftRight_zero]
  ring

/-- WFULL is the live IS_FULL, over the integers, under TAP 3 and 4 (R46, R254). -/
theorem toNat_wfull (s : State) :
    (wfull s).toNat = if (s.tap = .window ∨ s.tap = .frames) ∧ (s.le.toNat : Int) - s.pos.toNat ≥ s.wsize.toNat
      then 1 else 0 := by
  have hfull : (isFull s).toNat = if (s.le.toNat : Int) - s.pos.toNat ≥ s.wsize.toNat then 1 else 0 := by
    have hiff : s.pos.toNat + s.wsize.toNat ≤ s.le.toNat ↔ (s.le.toNat : Int) - s.pos.toNat ≥ s.wsize.toNat := by omega
    simp only [isFull, hiff]
    split <;> simp_all
  cases ht : s.tap <;> simp [wfull, ht, hfull]

/-- Settles O13, by the value of the STATUS word as a sum of its fields. -/
theorem statusRegisterFields : Obligations.StatusRegisterFields := by
  intro s codes last cause hcodes hlast hcause
  have hcode : ∀ (st : Status) n, (st, n) ∈ codes → n = st.code.toNat := by
    subst hcodes
    intro st n h
    cases st <;> simp at h <;> exact h
  refine ⟨statusWord s, exec_csrr_of_some rfl, ?_⟩
  rw [toNat_statusWord, toNat_wfull, hcode _ _ hlast, hcode _ _ hcause]
  cases s.tap <;> rfl

/-- Settles O14: CFG is a function of the parameters, and no step writes them. -/
theorem configurationRegisterFields : Obligations.ConfigurationRegisterFields := by
  have hread : ∀ s : State, exec (.csrr 0x10) s = .next { s with res := cfgWord s.params, lastSt := .ok } :=
    fun s => exec_csrr_of_some rfl
  refine ⟨fun s => ⟨_, hread s, ?_⟩, fun s h => ?_, fun s t hx => ⟨_, hread s, ?_⟩⟩
  · rw [toNat_cfgWord]
    cases s.params.peakCmp <;> cases s.params.altRule <;> cases s.params.nibbleMode <;> rfl
  · rw [hread, h]
    rfl
  · rw [← step_params hx]
    exact hread t

/-- A word with the value of a narrower element is that element, zero-extended. -/
theorem setWidth_eq_of_toNat {n : Nat} {x : BitVec n} {v : Word64} (hn : n ≤ 64) (h : v.toNat = x.toNat) :
    x.setWidth 64 = v :=
  BitVec.eq_of_toNat_eq (by rw [BitVec.toNat_setWidth_of_le hn, h])

/-- A word with the value of a narrower signed element is that element, sign-extended. -/
theorem signExtend_eq_of_toInt {n : Nat} {x : BitVec n} {v : Word64} (hn : n ≤ 64) (h : v.toInt = x.toInt) :
    x.signExtend 64 = v :=
  BitVec.eq_of_toInt_eq (by rw [BitVec.toInt_signExtend_of_le hn, h])

/-- DM_CUR holds CUR_SUM in bits 31:0 and CUR_VALID in bit 32 (R53). -/
theorem toNat_dmCur (s : State) :
    ((0 : BitVec 31) ++ bit s.curValid ++ s.curSum).toNat = s.curSum.toNat + 4294967296 * s.curValid.toNat := by
  simp only [toNat_append_eq_add, toNat_bit, BitVec.ofNat_eq_ofNat, BitVec.toNat_ofNat, Nat.zero_mod]
  ring

/-- Settles O15, one CSR at a time. -/
theorem csrsReadTheirElements : Obligations.CsrsReadTheirElements := by
  intro s n v
  refine ⟨fun h => exec_csrr_of_some ?_, fun h => exec_csrr_of_none (csrValue_of_le s h)⟩
  rcases h with ⟨rfl, hwsize⟩ | ⟨rfl, rfl⟩ | ⟨rfl, rfl⟩ | ⟨rfl, rfl⟩ | ⟨rfl, rfl⟩ | ⟨rfl, hprev⟩ | ⟨rfl, hcur⟩ |
    ⟨k, rfl, hhist⟩ | ⟨rfl, rfl⟩
  · exact congrArg some (setWidth_eq_of_toNat (by decide) hwsize)
  · rfl
  · rfl
  · rfl
  · rfl
  · exact congrArg some (setWidth_eq_of_toNat (by decide) hprev)
  · exact congrArg some (BitVec.eq_of_toNat_eq ((toNat_dmCur s).trans hcur.symm))
  · rw [csrValue_hist, signExtend_eq_of_toInt (by decide) hhist]
  · rfl

/-- Settles O16, by the two state checks that every stream-unit command stands behind. -/
theorem streamUnitStateChecks : Obligations.StreamUnitStateChecks := by
  intro s k n i taps h
  have hunit : i.op ∈ streamOps ∧ ∀ t : Tap, t.allows i.op = decide (t ∈ taps) := by
    simp only [List.mem_cons, Prod.mk.injEq, List.not_mem_nil, or_false] at h
    rcases h with ⟨rfl, rfl⟩ | ⟨rfl, rfl⟩ | ⟨rfl, rfl⟩ | ⟨rfl, rfl⟩ | ⟨rfl, rfl⟩ | ⟨rfl, rfl⟩ | ⟨rfl, rfl⟩
    all_goals exact ⟨by simp [Instr.op, streamOps], fun t => by cases t <;> rfl⟩
  obtain ⟨hop, hallow⟩ := hunit
  exact ⟨fun ht => exec_wrongTap hop (by simp [hallow, ht]), fun ht hf => exec_fatal hop (by simp [hallow, ht]) hf⟩

/-! The flags (R33, R357). -/

theorem fatalCause_besideKeeps (c : Status) : BesideKeeps fun t => t.fatal = true ∧ t.fatalCause = c where
  finish := fun _ _ _ h => h
  write := fun _ _ _ _ h => by simpa using h

/-- The writes of a window step leave FRAME_VALID alone. -/
theorem frameValid_stepKeeps (v : Bool) : StepKeeps fun t => t.frameValid = true → v = true where
  take := fun _ _ _ _ h => h
  count := fun _ h => h
  sawEof := fun _ h => h
  failed := fun _ _ _ h => h
  insert := fun _ _ _ h => h
  start := fun _ _ h => by simpa using h
  store := fun _ _ _ h => by simpa using h
  move := fun _ _ h => by simpa using h

/-- BB_WR can clear FRAME_VALID and never sets it. -/
theorem frameValid_besideKeeps (v : Bool) : BesideKeeps fun t => t.frameValid = true → v = true where
  finish := fun _ _ _ h => h
  write := fun _ _ _ _ h => by simpa using fun _ => h

/-- While FATAL is set, no command but INIT changes it or its cause: the stream-unit commands are turned away. -/
theorem exec_keeps_fatal {i : Instr} {s t : State} (hi : ∀ tap w, i ≠ .init tap w) (hf : s.fatal = true)
    (hx : exec i s = .next t) : t.fatal = true ∧ t.fatalCause = s.fatalCause := by
  by_cases hu : i.op ∈ streamOps
  · obtain ⟨st, he⟩ := exec_streamOp_of_fatal hu hf
    rw [he, Host.Outcome.next.injEq] at hx
    exact hx ▸ ⟨hf, rfl⟩
  · exact exec_keeps_beside (fatalCause_besideKeeps s.fatalCause) hi hu ⟨hf, rfl⟩ hx

/-- Settles O56: turned away while FATAL is set, and no write but DM_NEXT's delivery sets FRAME_VALID. -/
theorem flagsClearedOnlyByInit : Obligations.FlagsClearedOnlyByInit := fun _ s _ hi hx =>
  ⟨fun hf => exec_keeps_fatal hi hf hx, (exec_sameTap hi hx).eofSeen,
    fun hd => exec_keeps_of_step (frameValid_besideKeeps s.frameValid) (frameValid_stepKeeps s.frameValid) hi hd id hx⟩

/-- Settles O57: no write of the chain, the detector or the other commands touches TAP or WSIZE, and none the parameters. -/
theorem onlyInitSetsTapAndWindowSize : Obligations.OnlyInitSetsTapAndWindowSize :=
  ⟨fun _ _ _ hi hx => ⟨(exec_sameTap hi hx).tap, (exec_sameTap hi hx).wsize⟩, fun _ _ hx => step_params hx⟩

end Sys2Proof.Machine

/-! A step runs the command its descriptor decodes to (R82, R106), and a command that finds the port empty and waiting has
no next state (R81, R371; log 3). -/

namespace Sys2Proof.Machine

open Sys2Proof.Config

/-! The step. -/

theorem step_nil {s : State} (h : s.queue = []) : step s = .fault .awaitingCommand := by
  unfold step
  rw [h]

theorem step_command {s : State} {d : Descriptor} {rest : List HostAct} (h : s.queue = .command d :: rest) :
    step s = runCommand d { s with queue := rest } := by
  unfold step
  rw [h]

theorem runCommand_instr {d : Descriptor} {i : Instr} (h : decode d = .instr i) (s : State) :
    runCommand d s = exec i s := by
  unfold runCommand
  rw [h]

/-- Settles O5: the step takes the command off the queue, and `runCommand` decodes it. -/
theorem stepRunsDecodedCommand : Obligations.StepRunsDecodedCommand := by
  intro s d rest i hq hd
  rw [step_command hq, runCommand_instr hd]

/-! A sample read that finds the port empty and waiting sticks, and with it all that begins with one (R371; log 3). -/

theorem Port.take_eq_none {p : Port} (ha : p.ahead = []) (hr : p.rest = .waits) : p.take = none := by
  unfold Port.take
  rw [ha, hr]

section

variable {s : State}

theorem portRead_starved (hp : s.port.take = none) : portRead s = .stuck .awaitingStream := by
  unfold portRead
  rw [hp]

theorem readSample_starved (he : s.eofSeen = false) (hp : s.port.take = none) :
    readSample s = .stuck .awaitingStream := by
  unfold readSample
  rw [if_neg (by simp [he]), portRead_starved hp, Flow.bind_stuck]

theorem powerStep_starved (he : s.eofSeen = false) (hp : s.port.take = none) :
    powerStep s = .stuck .awaitingStream := by
  unfold powerStep
  rw [readSample_starved he hp, Flow.bind_stuck]

/-- A fill has slots to store, so it begins with a power step. -/
theorem fill_starved (b : Bool) (he : s.eofSeen = false) (hp : s.port.take = none) :
    fill b s = .stuck .awaitingStream := by
  show fillSlots (65535 + 1) b (startFill b s) = _
  rw [fillSlots, powerStep_starved (by simpa using he) (by simpa using hp)]

theorem fillInitial_starved (he : s.eofSeen = false) (hp : s.port.take = none) :
    fillInitial s = .stuck .awaitingStream := by
  unfold fillInitial
  rw [fill_starved false he hp, Flow.bind_stuck]

theorem execSdNext_starved (ht : s.tap = .samples) (hf : s.fatal = false) (he : s.eofSeen = false)
    (hp : s.port.take = none) : execSdNext s = .fault .awaitingStream := by
  unfold execSdNext
  rw [streamUnit_open _ (by simp [ht, Tap.allows]) hf, readSample_starved he hp, Flow.bind_stuck, Flow.close_stuck]

theorem execPcNext_starved (ht : s.tap = .power) (hf : s.fatal = false) (he : s.eofSeen = false)
    (hp : s.port.take = none) : execPcNext s = .fault .awaitingStream := by
  unfold execPcNext
  rw [streamUnit_open _ (by simp [ht, Tap.allows]) hf, powerStep_starved he hp, Flow.bind_stuck, Flow.close_stuck]

theorem execPwAdv_starved (ht : s.tap = .window) (hf : s.fatal = false) (he : s.eofSeen = false)
    (hp : s.port.take = none) (hb : s.pos.toNat % 65536 = 65535) (hpos : s.pos ≠ BitVec.allOnes 64) :
    execPwAdv s = .fault .awaitingStream := by
  unfold execPwAdv
  rw [streamUnit_open _ (by simp [ht, Tap.allows]) hf, wstep_boundary hb hpos,
    fill_starved (s := { s with pos := s.pos + 1, sel := !s.sel }) s.sel he hp, Flow.bind_stuck, Flow.close_stuck]

/-- INIT clears EOF_SEEN and leaves the port alone, so its initial fill starves whatever the state before. -/
theorem execInit_starved (tap : Nat) (w : Int) {tp : Tap} (htp : Tap.ofCode tap = some tp)
    (hw : tp = .window ∨ tp = .frames) (hok : initArgOk tp w = true) (hp : s.port.take = none) :
    execInit tap w s = .fault .awaitingStream := by
  have hfill : initFill tp (clearChain tp w s) = fillInitial (clearChain tp w s) := by
    rcases hw with rfl | rfl
    · rfl
    · rfl
  unfold execInit
  simp only [htp, hok, hfill, fillInitial_starved (clearChain_eofSeen tp w s) (by simpa using hp)]
  rfl

end

/-- Settles O20: each command named begins with a sample read, or reaches one at the boundary. -/
theorem waitingHasNoNextState : Obligations.WaitingHasNoNextState := by
  refine ⟨fun s => step_nil, fun s hf he ha hr => ?_⟩
  have hp := Port.take_eq_none ha hr
  exact ⟨fun ht => execSdNext_starved ht hf he hp, fun ht => execPcNext_starved ht hf he hp,
    fun ht hb hpos => execPwAdv_starved ht hf he hp hb hpos,
    fun w h1 h2 => execInit_starved 3 w rfl (.inl rfl) (by simp [initArgOk, h1, h2]) hp,
    execInit_starved 4 0 rfl (.inr rfl) rfl hp⟩

end Sys2Proof.Machine

/-! Every command ends where the port does not wait, unless it is a DM_NEXT that scans an endless stream for ever; and what
a DM_NEXT that ends on an endless stream has met (R81, R289, R290, R352). -/

namespace Sys2Proof.Machine

open Sys2Proof.Config

section

variable {s t : State}

/-! Where the port does not wait (R81). -/

theorem Flow.bind_goes_on {α β : Type} {x : Flow α} {f : α → State → Flow β} (hx : ∀ why, x ≠ .stuck why)
    (hf : ∀ a u, x = .ok a u → ∀ why, f a u ≠ .stuck why) (why : Fault) : x.bind f ≠ .stuck why := by
  cases x with
  | ok a u => exact hf a u rfl why
  | ended st u => simp
  | stuck why' => exact absurd rfl (hx why')

/-- The state checks of decode never wait. -/
theorem streamUnit_stuck {o : Op} {body : State → Flow Word64} {why : Fault}
    (h : streamUnit o s body = .stuck why) : body s = .stuck why := by
  unfold streamUnit at h
  split at h
  · simp at h
  · split at h
    · simp at h
    · exact h

/-- No command changes what the port goes on with. -/
theorem rest_execKeeps (k : PortRest) : ExecKeeps fun s => s.port.rest = k where
  toReadKeeps := restKept k
  insert := fun _ _ _ h => h
  start := fun _ _ h => by simpa using h
  store := fun _ _ _ h => by simpa using h
  move := fun _ _ h => by simpa using h
  load := fun _ h => by simpa using h
  shift := fun _ _ _ h => h
  deliver := fun _ _ h => h
  forget := fun _ h => h
  finish := fun _ _ _ h => h
  clear := fun _ _ _ _ h => h
  write := fun _ _ _ _ h => by simpa using h

theorem fill_goes_on (b : Bool) (h : s.port.rest ≠ .waits) (why : Fault) : fill b s ≠ .stuck why :=
  fillSlots_goes_on (by simpa using h) why

theorem fill_rest {b : Bool} (hl : (fill b s).Leaves t) : t.port.rest = s.port.rest :=
  fill_keeps (rest_execKeeps s.port.rest).toFillKeeps rfl hl

theorem wstep_rest (hl : (wstep s).Leaves t) : t.port.rest = s.port.rest :=
  wstep_keeps (rest_execKeeps s.port.rest).toStepKeeps rfl hl

theorem fillInitial_goes_on (h : s.port.rest ≠ .waits) (why : Fault) : fillInitial s ≠ .stuck why :=
  Flow.bind_goes_on (fill_goes_on false h)
    (fun _ u hu => fill_goes_on true (by rwa [fill_rest (t := u) (by rw [hu]; rfl)])) why

theorem initFill_goes_on (tp : Tap) (h : s.port.rest ≠ .waits) (why : Fault) : initFill tp s ≠ .stuck why := by
  cases tp with
  | idle => simp [initFill]
  | samples => simp [initFill]
  | power => simp [initFill]
  | window => exact fillInitial_goes_on h why
  | frames => exact fillInitial_goes_on h why

theorem wsteps_goes_on (n : Nat) (h : s.port.rest ≠ .waits) (why : Fault) : wsteps n s ≠ .stuck why := by
  induction n generalizing s with
  | zero => simp [wsteps]
  | succ n ih =>
    simp only [wsteps]
    cases hw : wstep s with
    | ok u s1 => exact ih (by rwa [wstep_rest (t := s1) (by rw [hw]; rfl)])
    | ended st s1 => simp
    | stuck why' => exact absurd hw (wstep_goes_on h why')

theorem takeFrame_goes_on (h : s.port.rest ≠ .waits) (why : Fault) : takeFrame s ≠ .stuck why := by
  unfold takeFrame
  split
  · simp
  · exact Flow.bind_goes_on (wsteps_goes_on _ (by simpa using h)) (fun _ _ _ _ => by simp) why

/-- A port that never shows an end and has none lined up goes on with endless bytes. -/
theorem streamKind_infinite {es : List PortEvent} {r : PortRest} (h : streamKind es r = .infinite) : r = .live := by
  induction es with
  | nil => cases r <;> simp [streamKind] at h ⊢
  | cons e es ih =>
    cases e with
    | byte b => exact ih h
    | eof => simp [streamKind] at h
    | ioerr => simp [streamKind] at h

theorem State.endless_iff : s.endless = true ↔ s.port.kind = .infinite ∧ s.eofSeen = false := by
  simp [State.endless]

theorem State.rest_of_endless (h : s.endless = true) : s.port.rest = .live :=
  streamKind_infinite (State.endless_iff.1 h).1

/-- The only loop without an end is the scan of an endless stream (R290). -/
theorem endScan_eq_stuck {st : Status} {why : Fault} (h : endScan st s = .stuck why) :
    why = .endlessScan ∧ s.endless = true := by
  unfold endScan at h
  split at h
  · next hc =>
    simp only [Bool.and_eq_true] at hc
    exact ⟨by simpa using h.symm, hc.1.1⟩
  · simp at h

theorem scan_eq_stuck {n : Nat} {why : Fault} (h : s.port.rest ≠ .waits) (hx : scan n s = .stuck why) :
    why = .endlessScan ∧ s.port.rest = .live := by
  induction n generalizing s with
  | zero =>
    obtain ⟨hw, he⟩ := endScan_eq_stuck hx
    exact ⟨hw, State.rest_of_endless he⟩
  | succ n ih =>
    have hload : (loadCur s).port.rest ≠ .waits := by simpa using h
    simp only [scan] at hx
    split at hx
    · obtain ⟨hw, he⟩ := endScan_eq_stuck hx
      exact ⟨hw, State.rest_of_endless he⟩
    · split at hx
      · exact absurd hx (takeFrame_goes_on hload why)
      · cases hw : wstep (loadCur s) with
        | stuck why' => exact absurd hw (wstep_goes_on hload why')
        | ended st s1 =>
          have hr : s1.port.rest = s.port.rest := by simpa using wstep_rest (s := loadCur s) (t := s1) (by rw [hw]; rfl)
          simp only [hw] at hx
          obtain ⟨hwhy, he⟩ := endScan_eq_stuck hx
          exact ⟨hwhy, hr ▸ State.rest_of_endless he⟩
        | ok u s1 =>
          have hr : s1.port.rest = s.port.rest := by simpa using wstep_rest (s := loadCur s) (t := s1) (by rw [hw]; rfl)
          simp only [hw] at hx
          obtain ⟨hwhy, he⟩ := ih (by simpa [hr] using h) hx
          exact ⟨hwhy, by simpa [hr] using he⟩

theorem execInit_goes_on (tap : Nat) (w : Int) (h : s.port.rest ≠ .waits) : ∃ t, execInit tap w s = .next t := by
  refine Flow.close_goes_on fun why => ?_
  split
  · simp
  · next tp _ =>
    split
    · simp
    · exact Flow.bind_goes_on (initFill_goes_on tp (by simpa using h)) (fun _ _ _ _ => by simp) why

/-- Every command but DM_NEXT ends where the port does not wait. -/
theorem exec_goes_on {i : Instr} (hi : i ≠ .dmNext) (h : s.port.rest ≠ .waits) : ∃ t, exec i s = .next t := by
  by_cases hr : Instr.reads i = true
  · obtain ⟨st, v, he⟩ := exec_reads hr s
    exact ⟨_, he⟩
  · cases i with
    | init tap w => exact execInit_goes_on tap w h
    | bbWr index imm =>
      rcases execBbWr_next (index := index) (imm := imm) s with ⟨st, he⟩ | ⟨a, -, he⟩
      · exact ⟨_, he⟩
      · exact ⟨_, he⟩
    | sdNext =>
      refine Flow.close_goes_on fun why hx => ?_
      refine Flow.bind_goes_on (readSample_goes_on h) (fun r u _ why => ?_) why (streamUnit_stuck hx)
      cases r <;> simp
    | pcNext =>
      refine Flow.close_goes_on fun why hx => ?_
      refine Flow.bind_goes_on (powerStep_goes_on h) (fun r u _ why => ?_) why (streamUnit_stuck hx)
      cases r <;> simp
    | pwAdv =>
      refine Flow.close_goes_on fun why hx => ?_
      exact Flow.bind_goes_on (wstep_goes_on h) (fun _ _ _ _ => by simp) why (streamUnit_stuck hx)
    | pwAdvn n =>
      refine Flow.close_goes_on fun why hx => ?_
      have hbody := streamUnit_stuck hx
      split at hbody
      · simp at hbody
      · exact Flow.bind_goes_on (wsteps_goes_on n.toNat h) (fun _ _ _ _ => by simp) why hbody
    | dmNext => exact absurd rfl hi
    | _ => exact absurd rfl hr

/-- DM_NEXT ends where the port does not wait, or scans an endless stream for ever. -/
theorem execDmNext_goes_on (h : s.port.rest ≠ .waits) :
    (∃ t, execDmNext s = .next t) ∨ (execDmNext s = .fault .endlessScan ∧ s.port.rest = .live) := by
  unfold execDmNext
  cases hx : streamUnit .dmNext s fun s => scan (2 ^ 64 - s.pos.toNat) s with
  | ok v u => exact .inl ⟨_, rfl⟩
  | ended st u => exact .inl ⟨_, rfl⟩
  | stuck why =>
    obtain ⟨rfl, hl⟩ := scan_eq_stuck h (streamUnit_stuck hx)
    exact .inr ⟨rfl, hl⟩

theorem exec_next_or_endless (i : Instr) (h : s.port.rest ≠ .waits) :
    (∃ t, exec i s = .next t ∧ t.port.rest = s.port.rest) ∨
      (i = .dmNext ∧ exec i s = .fault .endlessScan ∧ s.port.rest = .live) := by
  have hrest : ∀ t, exec i s = .next t → t.port.rest = s.port.rest := fun t hx =>
    exec_keeps (rest_execKeeps s.port.rest) rfl hx
  by_cases hi : i = .dmNext
  · subst hi
    rcases execDmNext_goes_on h with ⟨t, hx⟩ | ⟨hx, hl⟩
    · exact .inl ⟨t, hx, hrest t hx⟩
    · exact .inr ⟨rfl, hx, hl⟩
  · obtain ⟨t, hx⟩ := exec_goes_on hi h
    exact .inl ⟨t, hx, hrest t hx⟩

end

/-! Over an endless stream the sample chain meets no end and no failure but a bad nibble (R81, R212). -/

/-- A part of the pseudocode over an endless stream: it goes on with a value that has `Q`, the stream still endless, or ends
with SAMPLE_RANGE; it never waits. -/
def Flow.OnEndless {α : Type} (x : Flow α) (Q : α → Prop) : Prop :=
  match x with
  | .ok a t => Q a ∧ t.endless = true
  | .ended st _ => st = .sampleRange
  | .stuck _ => False

section

variable {s t : State}

@[simp] theorem Flow.onEndless_ok {α : Type} {Q : α → Prop} (a : α) (t : State) :
    (Flow.ok a t).OnEndless Q ↔ Q a ∧ t.endless = true := Iff.rfl
@[simp] theorem Flow.onEndless_ended {α : Type} {Q : α → Prop} (st : Status) (t : State) :
    (Flow.ended st t : Flow α).OnEndless Q ↔ st = .sampleRange := Iff.rfl
@[simp] theorem Flow.onEndless_stuck {α : Type} {Q : α → Prop} (why : Fault) :
    (Flow.stuck why : Flow α).OnEndless Q ↔ False := Iff.rfl

theorem Flow.OnEndless.bind {α β : Type} {x : Flow α} {f : α → State → Flow β} {Q : α → Prop} {R : β → Prop}
    (hx : x.OnEndless Q) (hf : ∀ a t, Q a → t.endless = true → (f a t).OnEndless R) : (x.bind f).OnEndless R := by
  cases x with
  | ok a t => exact hf a t hx.1 hx.2
  | ended st t => exact hx
  | stuck why => exact hx.elim

/-- The next event of an endless stream is a byte, and the stream after it is endless. -/
theorem Port.take_infinite {p : Port} (h : p.kind = .infinite) :
    ∃ b p', p.take = some (.byte b, p') ∧ p'.kind = .infinite := by
  obtain ⟨ahead, rest, taken⟩ := p
  have hrest : rest = .live := streamKind_infinite h
  subst hrest
  cases ahead with
  | nil => exact ⟨_, _, rfl, rfl⟩
  | cons e es =>
    cases e with
    | byte b => exact ⟨b, _, rfl, h⟩
    | eof => simp [Port.kind, streamKind] at h
    | ioerr => simp [Port.kind, streamKind] at h

theorem portRead_endless (h : s.endless = true) : (portRead s).OnEndless fun e => ∃ b, e = .byte b := by
  obtain ⟨hk, he⟩ := State.endless_iff.1 h
  obtain ⟨b, p, htake, hp⟩ := Port.take_infinite hk
  unfold portRead
  rw [htake]
  exact ⟨⟨b, rfl⟩, State.endless_iff.2 ⟨hp, he⟩⟩

theorem assembleSample_endless (b0 b1 : Byte) (h : s.endless = true) :
    (assembleSample b0 b1 s).OnEndless fun r => r.isSome = true := by
  unfold assembleSample
  split
  · split
    · rfl
    · exact ⟨rfl, h⟩
  · exact ⟨rfl, h⟩

theorem readSample_endless (h : s.endless = true) : (readSample s).OnEndless fun r => r.isSome = true := by
  unfold readSample
  rw [if_neg (by simp [(State.endless_iff.1 h).2])]
  refine (portRead_endless h).bind fun e0 s0 he0 h0 => ?_
  obtain ⟨b0, rfl⟩ := he0
  refine (portRead_endless (s := countByte s0) h0).bind fun e1 s1 he1 h1 => ?_
  obtain ⟨b1, rfl⟩ := he1
  exact assembleSample_endless b0 b1 h1

theorem powerStep_endless (h : s.endless = true) : (powerStep s).OnEndless fun r => r.isSome = true := by
  unfold powerStep
  refine (readSample_endless h).bind fun r0 s0 hr0 h0 => ?_
  obtain ⟨r0, rfl⟩ := Option.isSome_iff_exists.1 hr0
  refine (readSample_endless h0).bind fun r1 s1 hr1 h1 => ?_
  obtain ⟨r1, rfl⟩ := Option.isSome_iff_exists.1 hr1
  exact ⟨rfl, h1⟩

@[simp] theorem storeSlot_endless (b : Bool) (p : Power) (s : State) : (storeSlot b p s).endless = s.endless := by
  simp [State.endless]

@[simp] theorem startFill_endless (b : Bool) (s : State) : (startFill b s).endless = s.endless := by
  simp [State.endless]

@[simp] theorem movePos_endless (s : State) : (movePos s).endless = s.endless := by simp [State.endless]

@[simp] theorem loadCur_endless (s : State) : (loadCur s).endless = s.endless := by simp [State.endless]

theorem fillSlots_endless {n : Nat} {b : Bool} (h : s.endless = true) :
    (fillSlots n b s).OnEndless fun _ => True := by
  induction n generalizing s with
  | zero => exact ⟨trivial, h⟩
  | succ n ih =>
    have hp := powerStep_endless h
    simp only [fillSlots]
    cases hx : powerStep s with
    | stuck why => simp [hx] at hp
    | ended st s1 => simpa [hx] using hp
    | ok r s1 =>
      simp only [hx, Flow.onEndless_ok] at hp
      obtain ⟨p, rfl⟩ := Option.isSome_iff_exists.1 hp.1
      exact ih (by simpa using hp.2)

theorem fill_endless (b : Bool) (h : s.endless = true) : (fill b s).OnEndless fun _ => True :=
  fillSlots_endless (by simpa using h)

/-- At the last position a window step ends with OVERFLOW and changes nothing. -/
theorem wstep_last (h : s.pos = BitVec.allOnes 64) : wstep s = .ended .overflow s := by
  unfold wstep
  rw [if_pos h]

/-- Below the last position a window step ends with no OVERFLOW. -/
theorem wstep_endless (h : s.endless = true) (hpos : s.pos ≠ BitVec.allOnes 64) :
    (wstep s).OnEndless fun _ => True := by
  unfold wstep
  rw [if_neg hpos]
  split
  · exact fill_endless _ (by simpa using h)
  · exact ⟨trivial, by simpa using h⟩

theorem toNat_ne_allOnes {x : Word64} (h : x ≠ BitVec.allOnes 64) : x.toNat ≠ 2 ^ 64 - 1 := fun heq =>
  h (BitVec.eq_of_toNat_eq heq)

/-- A window step that goes on moves `POS` by one without a wrap. -/
theorem wstep_ok_pos {u : Unit} (h : wstep s = .ok u t) : t.pos.toNat = s.pos.toNat + 1 := by
  obtain ⟨hpos, ht⟩ := wstep_ok h
  have hne := toNat_ne_allOnes hpos
  have hpos' : t.pos = s.pos + 1 := by rw [ht]
  rw [hpos']
  bv_omega

theorem wsteps_endless {n : Nat} (h : s.endless = true) (hn : s.pos.toNat + n < 2 ^ 64) :
    (wsteps n s).OnEndless fun _ => True := by
  induction n generalizing s with
  | zero => exact ⟨trivial, h⟩
  | succ n ih =>
    have hw := wstep_endless h (by rintro heq; rw [heq] at hn; simp at hn; omega)
    simp only [wsteps]
    cases hx : wstep s with
    | stuck why => simp [hx] at hw
    | ended st s1 => simpa [hx] using hw
    | ok u s1 =>
      simp only [hx, Flow.onEndless_ok] at hw
      exact ih hw.2 (by have := wstep_ok_pos hx; omega)

/-- Up to the last position whose timestamp fits, the frame skip stays far below 2^64 - 1: an accepted frame ends with
OVERFLOW for its timestamp, with a bad nibble in the skip, or is delivered. -/
theorem takeFrame_endless {st : Status} (h : s.endless = true) (hx : takeFrame s = .ended st t) :
    st = .sampleRange ∨ (st = .overflow ∧ t = s ∧ lastStampedPos < s.pos.toNat) := by
  unfold takeFrame at hx
  split at hx
  · next hlast =>
    simp only [Flow.ended.injEq] at hx
    exact .inr ⟨hx.1.symm, hx.2.symm, hlast⟩
  · next hlast =>
    have hskip := s.params.frameSkip.isLt
    have hfit : (deliver s).pos.toNat + s.params.frameSkip.toNat < 2 ^ 64 := by
      simp only [lastStampedPos, tsUnitNs] at hlast
      simp only [deliver_pos]
      omega
    have hend := (wsteps_endless (s := deliver s) h hfit).bind (R := fun _ => True)
      (f := fun _ s' => .ok (timestamp s) (forgetSums s')) fun _ _ _ h1 => ⟨trivial, h1⟩
    rw [hx] at hend
    exact .inl hend

/-! The scan of an endless stream (R289, R290). -/

theorem State.leFits_iff : s.leFits = true ↔ s.base + 131072 < 2 ^ 64 := decide_eq_true_iff

/-- What a scan over an endless stream keeps: FRAMES with no fatal status, and the window loaded to its end wherever that
fits 64 bits (R262 (b); log 5). -/
structure State.ScansEndless (s : State) : Prop where
  sound : s.Sound
  tap : s.tap = .frames
  fatal : s.fatal = false
  endless : s.endless = true
  loaded : s.leFits = true → s.le.toNat = s.base + 131072

/-- A window loaded to its end is full: DM_WINDOW is at most 65536 (R8, R254). -/
theorem isFull_of_scansEndless (h : s.ScansEndless) (hfit : s.leFits = true) : isFull s = true := by
  have hwsize : s.wsize.toNat ≤ 65536 := by
    have hw := h.sound.wsize
    have hp := h.sound.params
    simp only [State.wsizeAgrees, h.tap, decide_eq_true_eq] at hw
    simp only [Params.legal, Bool.and_eq_true, decide_eq_true_eq] at hp
    rw [hw]
    exact hp.1.2
  have hle := h.loaded hfit
  simp only [State.base, pwBatch] at hle
  simp only [isFull, decide_eq_true_eq]
  omega

theorem scansEndless_loadCur (h : s.ScansEndless) : (loadCur s).ScansEndless where
  sound := sound_loadCur h.sound
  tap := by simpa using h.tap
  fatal := by simpa using h.fatal
  endless := by simpa using h.endless
  loaded := by simpa only [State.leFits_iff, State.base, loadCur_pos, loadCur_le] using h.loaded

theorem scansEndless_shiftSums (h : s.ScansEndless) (h' : t.ScansEndless) :
    (shiftSums s.curSum (peakSum s 1) t).ScansEndless :=
  { h' with sound := sound_execKeeps.shift s t h.sound h'.sound }

/-- Inside a buffer neither `BASE` nor `LE` moves; at a boundary both move by 65536, since an endless stream fills a whole
buffer (R252, R253). -/
theorem wstep_loaded {u : Unit} (h : s.ScansEndless) (hx : wstep s = .ok u t) (he : t.eofSeen = false)
    (hfit : t.leFits = true) : t.le.toNat = t.base + 131072 := by
  have hpos := (wstep_ok hx).1
  have hpos' := wstep_ok_pos hx
  have hle := h.loaded
  simp only [State.leFits_iff, State.base, pwBatch] at hle hfit ⊢
  by_cases hb : s.pos.toNat % 65536 = 65535
  · rw [wstep_boundary hb hpos] at hx
    have hcanon : ∀ b, (bufOf s b).canon = true := fun b => by
      cases b with
      | false => exact h.sound.buf0
      | true => exact h.sound.buf1
    obtain ⟨bs, hbs⟩ := fill_took hx (hcanon s.sel) (by show s.le.toNat + 65536 < _; omega)
    have hlen := hbs.whole he
    have hle' : t.le.toNat = s.le.toNat + bs.length / 4 := hbs.le
    omega
  · rw [wstep_inside (by omega), Flow.ok.injEq] at hx
    have hle' : t.le = s.le := by rw [← hx.2]
    rw [hle']
    omega

theorem scansEndless_wstep {u : Unit} (h : s.ScansEndless) (hx : wstep s = .ok u t) : t.ScansEndless := by
  obtain ⟨hpos, ht⟩ := wstep_ok hx
  have hend : t.endless = true := by
    have hw := wstep_endless h.endless hpos
    rw [hx] at hw
    exact hw.2
  exact {
    sound := wstep_keeps sound_execKeeps.toStepKeeps h.sound (by rw [hx]; rfl)
    tap := by rw [ht]; exact h.tap
    fatal := by rw [ht]; exact h.fatal
    endless := hend
    loaded := wstep_loaded h hx (State.endless_iff.1 hend).2 }

theorem endScan_eq_ended {st st' : Status} (h : endScan st s = .ended st' t) : st' = st ∧ t = s := by
  unfold endScan at h
  split at h
  · simp at h
  · simpa [eq_comm] using h

/-- At the last position `LE` cannot fit, so a scan that would end there never does (log 11). -/
theorem leFits_of_pos_allOnes (h : s.pos = BitVec.allOnes 64) : s.leFits = false := by
  simp [State.leFits, State.base, h, pwBatch]

/-- A scan of an endless stream that ends without a frame has met a bad nibble, or an accepted frame whose timestamp does
not fit: a window that fits is full, and past those positions a scan without a frame never ends (R289, R290; log 11). -/
theorem scan_ended_endless {n : Nat} {st : Status} (h : s.ScansEndless) (hn : 2 ^ 64 ≤ s.pos.toNat + n)
    (hx : scan n s = .ended st t) :
    st = .sampleRange ∨
      (st = .overflow ∧ hitHere t = true ∧ accepted t = true ∧ lastStampedPos < t.pos.toNat) := by
  induction n generalizing s with
  | zero => exact absurd s.pos.isLt (by omega)
  | succ n ih =>
    have hload := scansEndless_loadCur h
    simp only [scan] at hx
    split at hx
    · next hfull =>
      have hfit : s.leFits = false := by
        by_contra hfit
        simp [isFull_of_scansEndless h (by simpa using hfit)] at hfull
      simp [endScan_stuck .eos h.endless hfit h.fatal] at hx
    · split at hx
      · next hit =>
        rw [Bool.and_eq_true] at hit
        rcases takeFrame_endless hload.endless hx with hr | ⟨ho, rfl, hlast⟩
        · exact .inl hr
        · exact .inr ⟨ho, hit.1, hit.2, hlast⟩
      · by_cases hpos : (loadCur s).pos = BitVec.allOnes 64
        · simp only [wstep_last hpos] at hx
          simp [endScan_stuck .overflow hload.endless (leFits_of_pos_allOnes hpos) hload.fatal] at hx
        · have hw := wstep_endless hload.endless hpos
          cases hstep : wstep (loadCur s) with
          | stuck why => simp [hstep] at hw
          | ended st' s1 =>
            simp only [hstep, Flow.onEndless_ended] at hw hx
            exact .inl ((endScan_eq_ended hx).1.trans hw)
          | ok u s1 =>
            simp only [hstep] at hx
            have hpos1 := wstep_ok_pos hstep
            refine ih (scansEndless_shiftSums hload (scansEndless_wstep hload hstep)) ?_ hx
            simp only [loadCur_pos] at hpos1
            simp only [shiftSums_pos]
            omega

/-- How a DM_NEXT that ends on an endless stream has ended. -/
theorem execDmNext_endless (h : s.ScansEndless) (hx : execDmNext s = .next t) :
    t.lastSt = .ok ∨ t.lastSt = .sampleRange ∨
      (t.lastSt = .overflow ∧ hitHere t = true ∧ accepted t = true ∧ lastStampedPos < t.pos.toNat) := by
  unfold execDmNext at hx
  rw [streamUnit_open _ (by simp [h.tap, Tap.allows]) h.fatal] at hx
  cases hscan : scan (2 ^ 64 - s.pos.toNat) s with
  | stuck why => rw [hscan, Flow.close_stuck] at hx; cases hx
  | ok v u =>
    rw [hscan, Flow.close_ok, Host.Outcome.next.injEq] at hx
    exact .inl (by rw [← hx]; rfl)
  | ended st u =>
    rw [hscan, Flow.close_ended, Host.Outcome.next.injEq] at hx
    subst hx
    have hend := scan_ended_endless h le_add_tsub hscan
    exact .inr hend

end

/-- Settles O59: a port that does not wait answers every read, and a scan of an endless stream keeps its window full. -/
theorem closedStreamNeverWaits : Obligations.ClosedStreamNeverWaits := by
  refine ⟨fun i s hr => ?_, fun i s hr => ?_, fun s t hinv hwin ht hf he hk hx => ?_⟩
  · have hwaits : s.port.rest ≠ .waits := by
      rcases hr with hr | hr
      · simp [hr]
      · simp [hr]
    rcases exec_next_or_endless i hwaits with hnext | ⟨-, -, hl⟩
    · exact hnext
    · simp [hl] at hr
  · have hwaits : s.port.rest ≠ .waits := by simp [hr]
    rcases exec_next_or_endless i hwaits with ⟨t, hx, ht⟩ | ⟨hi, hx, -⟩
    · exact .inl ⟨t, hx, ht.trans hr⟩
    · exact .inr ⟨hi, hx⟩
  · exact execDmNext_endless
      { sound := (State.inv_iff.1 hinv).1, tap := ht, fatal := hf, endless := State.endless_iff.2 ⟨hk, he⟩
        loaded := fun hfit => (hwin (.inr ht) hf hfit).2 he } hx

end Sys2Proof.Machine

/-! The descriptor against the tables of 30_encoding.md: what a command's fields carry, what the decoder reads from them,
and the masks of the opcode table (R100 to R107, R110). -/

namespace Sys2Proof

/-! Operands in their fields (R104). -/

theorem toInt_ofInt_of_inSigned32 {a : Int} (h : inSigned32 a = true) : (BitVec.ofInt 32 a).toInt = a := by
  simp only [inSigned32, Bool.and_eq_true, decide_eq_true_eq] at h
  exact BitVec.toInt_ofInt_eq_self (by decide) (by omega) (by omega)

theorem toNat_ofNat_of_inUnsigned16 {n : Nat} (h : inUnsigned16 n = true) : (BitVec.ofNat 16 n).toNat = n := by
  simp only [inUnsigned16, decide_eq_true_eq] at h
  rw [BitVec.toNat_ofNat, Nat.mod_eq_of_lt (by omega)]

theorem toNat_ofNat_of_inUnsigned8 {n : Nat} (h : inUnsigned8 n = true) : (BitVec.ofNat 8 n).toNat = n := by
  simp only [inUnsigned8, decide_eq_true_eq] at h
  rw [BitVec.toNat_ofNat, Nat.mod_eq_of_lt (by omega)]

@[simp] theorem inSigned32_toInt (x : BitVec 32) : inSigned32 x.toInt = true := by
  have hlo := x.le_toInt
  have hhi := x.toInt_lt
  simp only [inSigned32, Bool.and_eq_true, decide_eq_true_eq]
  omega

@[simp] theorem inUnsigned16_toNat (x : BitVec 16) : inUnsigned16 x.toNat = true := by
  have := x.isLt
  simp only [inUnsigned16, decide_eq_true_eq]
  omega

@[simp] theorem inUnsigned8_toNat (x : BitVec 8) : inUnsigned8 x.toNat = true := by
  have := x.isLt
  simp only [inUnsigned8, decide_eq_true_eq]
  omega

/-! A command and its fields (R103, R105). -/

@[simp] theorem fieldsOf_encode (i : Instr) : fieldsOf (encode i) = i.fields := fieldsOf_pack _

/-- Every command's descriptor has its opcode and zero in every reserved field. -/
theorem Instr.layout (i : Instr) : Laws.Layout.Statement i := by
  open Laws in
  cases i
  exacts [Layout.nop, Layout.init _ _, Layout.csrr _, Layout.sdNext, Layout.pcNext, Layout.pwGet _, Layout.pwAdv,
    Layout.pwAdvn _, Layout.pwFull, Layout.dmNext, Layout.crcBuf _ _, Layout.crcTab _, Layout.bfExt _ _ _,
    Layout.bfTst _ _, Layout.bbWr _ _, Layout.bsByte _, Layout.bsRange _ _, Layout.frDf, Layout.frIcao, Layout.frMe,
    Layout.frTc, Layout.frCheck, Layout.altDec _]

@[simp] theorem Op.op_build (o : Op) (f : Fields) : (o.build f).op = o := by cases o <;> rfl

@[simp] theorem Op.wf_build (o : Op) (f : Fields) : (o.build f).wf = true := by
  cases o <;> simp [Op.build, Instr.wf]

/-- The operands of a well-formed command are read back from its fields. -/
theorem Instr.build_fields {i : Instr} (h : i.wf = true) : i.op.build i.fields = i := by
  cases i with
  | nop | sdNext | pcNext | pwAdv | pwFull | dmNext | frDf | frIcao | frMe | frTc | frCheck | altDec => rfl
  | init | csrr | pwGet | pwAdvn | crcBuf | crcTab | bfExt | bfTst | bbWr | bsByte | bsRange =>
    simp only [Instr.wf, Bool.and_eq_true] at h
    simp only [Instr.op, Op.build, Instr.fields, toInt_ofInt_of_inSigned32, toNat_ofNat_of_inUnsigned16,
      toNat_ofNat_of_inUnsigned8, h]

/-- Fields with an opcode's code and zero reserved fields are those of the command they give. -/
theorem Op.fields_build {o : Op} {f : Fields} (hc : f.opc = o.code) (hr : o.format.reservedZero f = true) :
    (o.build f).fields = f := by
  obtain ⟨opc, sub, imm, a, v⟩ := f
  subst hc
  cases o
  all_goals
    simp only [Op.format, Format.reservedZero, Bool.and_eq_true, beq_iff_eq] at hr
    simp [Op.build, Instr.fields, Instr.op, hr]

/-! What the decoder answers (R106). -/

theorem decode_eq_instr {d : Descriptor} {i : Instr} : decode d = .instr i ↔
    ∃ o, (fieldsOf d).opc = Op.code o ∧ o.format.reservedZero (fieldsOf d) = true ∧ o.build (fieldsOf d) = i := by
  unfold decode
  constructor
  · intro h
    split at h
    · cases h
    · next o ho =>
      split at h
      · next hr => exact ⟨o, (Op.code_of_ofCode ho).symm, hr, Decoded.instr.inj h⟩
      · cases h
  · rintro ⟨o, hc, hr, rfl⟩
    simp [hc, hr]

theorem decode_eq_illegalOpcode {d : Descriptor} (h : ∀ o, (fieldsOf d).opc ≠ Op.code o) :
    decode d = .rejected .illegalOpcode := by
  have hnone : Op.ofCode (fieldsOf d).opc = none :=
    List.find?_eq_none.2 fun o _ ho => h o (beq_iff_eq.1 ho).symm
  simp [decode, hnone]

theorem decode_eq_reservedField {d : Descriptor} {o : Op} (hc : (fieldsOf d).opc = o.code)
    (hr : o.format.reservedZero (fieldsOf d) = false) : decode d = .rejected .reservedField := by
  simp [decode, hc, hr]

/-- Settles O1: the fields carry the operands, and unpacking the descriptor gives the fields back. -/
theorem decodeInvertsEncode : Obligations.DecodeInvertsEncode := by
  intro i h
  obtain ⟨hc, hr⟩ := i.layout
  exact decode_eq_instr.2 ⟨i.op, hc, hr, by rw [fieldsOf_encode, Instr.build_fields h]⟩

/-- Settles O2: the descriptor's fields are those of the command built from them. -/
theorem encodeInvertsDecode : Obligations.EncodeInvertsDecode := by
  intro d i h
  obtain ⟨o, hc, hr, rfl⟩ := decode_eq_instr.1 h
  exact ⟨Op.wf_build o _, by rw [encode, Op.fields_build hc hr, pack_fieldsOf]⟩

/-! The rows of the opcode table: a row's mask follows from its format, its match value from its opcode (R103, R105). -/

/-- The mask of a format, field by field: all ones in `OPC` and in the fields the format does not use. -/
def Format.maskFields : Format → Fields
  | .n => { opc := .allOnes 8, sub := .allOnes 8, imm := .allOnes 16, a := .allOnes 32, v := .allOnes 64 }
  | .t => { opc := .allOnes 8, sub := 0, imm := .allOnes 16, a := 0, v := .allOnes 64 }
  | .c => { opc := .allOnes 8, sub := 0, imm := .allOnes 16, a := .allOnes 32, v := .allOnes 64 }
  | .a => { opc := .allOnes 8, sub := .allOnes 8, imm := .allOnes 16, a := 0, v := .allOnes 64 }
  | .ai => { opc := .allOnes 8, sub := .allOnes 8, imm := 0, a := 0, v := .allOnes 64 }
  | .m => { opc := .allOnes 8, sub := .allOnes 8, imm := 0, a := .allOnes 32, v := .allOnes 64 }
  | .va => { opc := .allOnes 8, sub := .allOnes 8, imm := .allOnes 16, a := 0, v := 0 }
  | .vai => { opc := .allOnes 8, sub := .allOnes 8, imm := 0, a := 0, v := 0 }

/-- The fields of an opcode's match value: its code, all else zero. -/
def Op.matchFields (o : Op) : Fields := { opc := o.code, sub := 0, imm := 0, a := 0, v := 0 }

/-- The row of an opcode, from its format and its code. -/
def Op.row (o : Op) : Op × Descriptor × Descriptor := (o, pack o.format.maskFields, pack o.matchFields)

theorem opcodeRows_eq_map_row : Machine.opcodeRows = Op.all.map Op.row := by decide

theorem Op.mem_all (o : Op) : o ∈ Op.all := by cases o <;> decide

theorem mem_opcodeRows {r : Op × Descriptor × Descriptor} : r ∈ Machine.opcodeRows ↔ ∃ o, Op.row o = r := by
  simp [opcodeRows_eq_map_row, Op.mem_all]

theorem fieldsOf_and (d e : Descriptor) : fieldsOf (d &&& e) =
    { opc := (fieldsOf d).opc &&& (fieldsOf e).opc, sub := (fieldsOf d).sub &&& (fieldsOf e).sub,
      imm := (fieldsOf d).imm &&& (fieldsOf e).imm, a := (fieldsOf d).a &&& (fieldsOf e).a,
      v := (fieldsOf d).v &&& (fieldsOf e).v } := by
  simp [fieldsOf, BitVec.extractLsb'_and]

theorem eq_pack_iff {d : Descriptor} {f : Fields} : d = pack f ↔ fieldsOf d = f :=
  ⟨fun h => by rw [h, fieldsOf_pack], fun h => by rw [← h, pack_fieldsOf]⟩

/-- A descriptor matches a row under its mask when it has the row's opcode and zero in every reserved field. -/
theorem and_mask_eq_match_iff (d : Descriptor) (o : Op) : d &&& o.row.2.1 = o.row.2.2 ↔
    (fieldsOf d).opc = o.code ∧ o.format.reservedZero (fieldsOf d) = true := by
  rw [Op.row, eq_pack_iff, fieldsOf_and, fieldsOf_pack]
  cases o.format
  all_goals simp [Op.matchFields, Format.maskFields, Format.reservedZero, and_assoc, -BitVec.reduceAllOnes]

/-- The low byte of a row's match value is the opcode's code (R101). -/
theorem Op.extractLsb'_match (o : Op) : o.row.2.2.extractLsb' 0 8 = o.code :=
  congrArg Fields.opc (fieldsOf_pack o.matchFields)

/-- Settles O4: a row's command is decoded from its opcode with zero reserved fields, which is the row's match. -/
theorem opcodeTableRowsDecode : Obligations.OpcodeTableRowsDecode := by
  intro r hr d
  obtain ⟨o, rfl⟩ := mem_opcodeRows.1 hr
  rw [and_mask_eq_match_iff]
  constructor
  · rintro ⟨i, hd, hi⟩
    obtain ⟨o', hc, hz, rfl⟩ := decode_eq_instr.1 hd
    obtain rfl : o' = o := (Op.op_build o' _).symm.trans hi
    exact ⟨hc, hz⟩
  · rintro ⟨hc, hz⟩
    exact ⟨_, decode_eq_instr.2 ⟨o, hc, hz, rfl⟩, Op.op_build o _⟩

/-- Settles O3: each word evaluates to its row's command. -/
theorem workedEncodingsDecode : Obligations.WorkedEncodingsDecode := by
  unfold Obligations.WorkedEncodingsDecode
  decide

end Sys2Proof

namespace Sys2Proof.Machine

/-! A descriptor that does not decode (R106, R107). -/

theorem step_rejected {s : State} {d : Descriptor} {rest : List HostAct} {e : DecodeError}
    (hq : s.queue = .command d :: rest) (hd : decode d = .rejected e) :
    step s = .next { s with queue := rest, res := 0, lastSt := rejectStatus e } := by
  rw [step_command hq, runCommand, hd]
  simp [rejectCommand, State.finish]

/-- Settles O6: a code that no row has is no opcode's, and a row's code without its match leaves a reserved field nonzero. -/
theorem undecodableDescriptorsEnd : Obligations.UndecodableDescriptorsEnd := by
  intro s d rest hq
  constructor
  · intro h
    have hd : decode d = .rejected .illegalOpcode := decode_eq_illegalOpcode fun o hc =>
      h o.row (mem_opcodeRows.2 ⟨o, rfl⟩) (o.extractLsb'_match.trans hc.symm)
    exact step_rejected hq hd
  · intro r hr hc hne
    obtain ⟨o, rfl⟩ := mem_opcodeRows.1 hr
    have hopc : (fieldsOf d).opc = o.code := hc.symm.trans o.extractLsb'_match
    have hz : o.format.reservedZero (fieldsOf d) = false :=
      Bool.eq_false_iff.2 fun h => hne ((and_mask_eq_match_iff d o).2 ⟨hopc, h⟩)
    exact step_rejected hq (decode_eq_reservedField hopc hz)

end Sys2Proof.Machine

/-! The control commands NOP and INIT (R140 to R144), and the pure commands (R145, R357). -/

namespace Sys2Proof.Machine

open Sys2Proof.Config

/-! NOP. -/

theorem runCommand_rejected {d : Descriptor} {e : DecodeError} (h : decode d = .rejected e) (s : State) :
    runCommand d s = .next (s.finish (rejectStatus e) 0) := by
  unfold runCommand
  rw [h]
  rfl

/-- Of the descriptors with opcode 0 only 0 itself has zero in every reserved field: it is NOP's encoding. -/
theorem decode_of_opc_zero {d : Descriptor} (hopc : d.extractLsb' 0 8 = 0) (hd : d ≠ 0) :
    decode d = .rejected .reservedField := by
  refine decode_eq_reservedField (o := .nop) hopc (Bool.eq_false_iff.2 fun hz => hd ?_)
  have henc : encode .nop = d := (encodeInvertsDecode d .nop (decode_eq_instr.2 ⟨.nop, hopc, hz, rfl⟩)).2
  rw [← henc]
  decide

/-- Settles O9: NOP's one outcome, and a descriptor with its opcode that is not its encoding is turned away. -/
theorem nopWritesOnlyResult : Obligations.NopWritesOnlyResult :=
  ⟨fun _ => rfl, by decide, fun s _ hopc hd => runCommand_rejected (decode_of_opc_zero hopc hd) s⟩

/-! INIT, case by case (R141). -/

theorem Tap.ofCode_eq_some {n : Nat} {tp : Tap} : Tap.ofCode n = some tp ↔ n = tp.code.toNat := by
  constructor
  · intro h
    unfold Tap.ofCode at h
    split at h <;> cases h <;> rfl
  · rintro rfl
    cases tp <;> rfl

theorem Tap.code_le (tp : Tap) : tp.code.toNat ≤ 4 := by cases tp <;> decide

theorem Tap.code_eq_three {tp : Tap} : tp.code.toNat = 3 ↔ tp = .window := by cases tp <;> decide

theorem initArgOk_iff {tp : Tap} {w : Int} :
    initArgOk tp w = true ↔ if tp = .window then 1 ≤ w ∧ w ≤ 65536 else w = 0 := by
  cases tp <;> simp [initArgOk]

section

variable {tap : Nat} {w : Int} {tp : Tap} {s t : State}

theorem execInit_refused (h : ∀ tp, Tap.ofCode tap = some tp → initArgOk tp w = false) :
    execInit tap w s = .next (s.finish .invalidArgument 0) := by
  unfold execInit
  cases htp : Tap.ofCode tap with
  | none => rfl
  | some tp => simp [h tp htp]

theorem execInit_accepted (htp : Tap.ofCode tap = some tp) (hok : initArgOk tp w = true) :
    execInit tap w s = ((initFill tp (clearChain tp w s)).bind fun _ s => .ok (0 : Word64) s).close := by
  simp [execInit, htp, hok]

/-- An INIT whose initial fill stops with `st` ends with `st`, every write of the fill kept. -/
theorem execInit_of_initFill {st : Status} (htp : Tap.ofCode tap = some tp) (hok : initArgOk tp w = true)
    (hfill : initFill tp (clearChain tp w s) = Flow.stop st () t) : execInit tap w s = .next (t.finish st 0) := by
  rw [execInit_accepted htp hok, hfill, Flow.stop_bind]
  split
  · next hst => rw [hst, Flow.close_ok]
  · rw [Flow.close_ended]

theorem State.finish_zero (s : State) (st : Status) : s.finish st 0 = { s with res := 0, lastSt := st } := by
  simp [State.finish]

end

/-- Settles O10: a tap above 4 names no TAP, and every other operand pair refused fails the TAP's argument check. -/
theorem refusedInitChangesNothing : Obligations.RefusedInitChangesNothing := by
  intro tap w s h
  refine execInit_refused fun tp htp => Bool.eq_false_iff.2 fun hok => ?_
  rw [initArgOk_iff] at hok
  obtain rfl := Tap.ofCode_eq_some.1 htp
  have hcode := tp.code_le
  simp only [← Tap.code_eq_three] at hok
  split at hok
  · omega
  · omega

/-- Settles O11: under these TAP values there is no initial fill, so the cleared chain is what INIT leaves. -/
theorem initWithoutWindowClearsChain : Obligations.InitWithoutWindowClearsChain := by
  intro s tap t h
  show execInit tap 0 s = _
  simp only [List.mem_cons, Prod.mk.injEq, List.not_mem_nil, or_false] at h
  rcases h with ⟨rfl, rfl⟩ | ⟨rfl, rfl⟩ | ⟨rfl, rfl⟩
  · exact execInit_of_initFill (tp := .idle) (st := .ok) rfl rfl rfl
  · exact execInit_of_initFill (tp := .samples) (st := .ok) rfl rfl rfl
  · exact execInit_of_initFill (tp := .power) (st := .ok) rfl rfl rfl

/-! INIT under WINDOW and FRAMES: the two fills start from the cleared chain (R143, R252). -/

section

variable {s t : State} {bs : List Byte} {e : StreamEnd} {es : List PortEvent} {tp : Tap} {w : Int}

theorem bitVec_eq_ofNat_of_toNat {n k : Nat} {x : BitVec n} (h : x.toNat = k) : x = BitVec.ofNat n k := by
  rw [← h, BitVec.ofNat_toNat, BitVec.setWidth_eq]

theorem StreamEnd.after_of_ne_ok {total len : Nat} (h : e.after total len ≠ .ok) : e.after total len = e.status := by
  unfold StreamEnd.after at h ⊢
  split at h
  · exact absurd rfl h
  · next hlen => rw [if_neg hlen]

/-- A fill that fails before the first buffer is full leaves the second count at its cleared 0, which is what its stream
has for it. -/
theorem FilledBoth.cnt1_clearChain (h : FilledBoth bs e es (clearChain tp w s) t) :
    t.cnt1.toNat = min 65536 (bs.length / 4 - 65536) := by
  by_cases hok : e.after 262144 bs.length = .ok
  · exact h.cnt1 hok
  · have hlen : bs.length < 262144 := by
      by_contra hge
      exact hok (if_pos (by omega))
    rw [h.cnt1Kept hok, clearChain_cnt1]
    show 0 = _
    omega

/-- What the two fills of INIT leave of a cleared chain, as one state. -/
theorem FilledBoth.eq_clearChain (h : FilledBoth bs e es (clearChain tp w s) t) :
    t = { clearChain tp w s with
          fatal := decide (e.after 524288 bs.length ≠ .ok), fatalCause := e.after 524288 bs.length,
          eofSeen := decide (bs.length < 524288 ∧ e = .eof),
          bytesIn := BitVec.ofNat 64 (if 524288 ≤ bs.length then 524288 else bs.length + e.bytes),
          hist := historyAfter #v[0, 0, 0, 0, 0, 0, 0, 0] ((streamSamples bs).take 262144),
          le := BitVec.ofNat 64 (min 131072 (bs.length / 4)), cnt0 := BitVec.ofNat 17 (min 65536 (bs.length / 4)),
          cnt1 := BitVec.ofNat 17 (min 65536 (bs.length / 4 - 65536)), buf0 := t.buf0, buf1 := t.buf1,
          port :=
            { s.port with
              ahead := if 524288 ≤ bs.length then (bs.drop 524288).map .byte ++ (e.events ++ es) else es,
              taken := s.port.taken + if 524288 ≤ bs.length then 524288 else bs.length + e.events.length } } := by
  have hfatal : t.fatal = decide (e.after 524288 bs.length ≠ .ok) := by
    rw [h.fatal]
    split <;> simp [*]
  have hcause : t.fatalCause = e.after 524288 bs.length := by
    rw [h.cause]
    split
    · next hok => rw [hok, clearChain_fatalCause]
    · next hno => rw [StreamEnd.after_of_ne_ok hno]
  have hbytes : t.bytesIn = BitVec.ofNat 64 (if 524288 ≤ bs.length then 524288 else bs.length + e.bytes) :=
    h.bytesIn.trans (BitVec.zero_add _)
  have hle : t.le.toNat = min 131072 (bs.length / 4) := by simpa using h.le
  have hframe := h.frame
  unfold FilledFrom at hframe
  rwa [hfatal, hcause, h.eofSeen, hbytes, h.hist, bitVec_eq_ofNat_of_toNat hle, bitVec_eq_ofNat_of_toNat h.cnt0,
    bitVec_eq_ofNat_of_toNat h.cnt1_clearChain, h.port] at hframe

/-- The slots after the two fills of a cleared chain: the power stream's samples, and 0 where it has none. -/
theorem FilledBoth.slots_clearChain (h : FilledBoth bs e es (clearChain tp w s) t) {x : Nat} (hx : x < 131072) :
    (if x < 65536 then t.buf0.get x else t.buf1.get (x - 65536)) =
      if x < bs.length / 4 then (streamPowers bs).getD x 0 else 0 := by
  rw [h.slots x hx, clearChain_buf0, clearChain_buf1, PowerBuf.get_zeros, PowerBuf.get_zeros, ite_self]
  rfl

/-- The initial fill of a cleared chain over a stream of legal bytes. -/
theorem initFill_stream (htp : tp = .window ∨ tp = .frames) (hc : legalBytes s.params.nibbleMode bs = true)
    (hfo : e.follows s.params.nibbleMode bs) (hp : s.port.ahead = bs.map .byte ++ (e.events ++ es)) :
    ∃ t, initFill tp (clearChain tp w s) = Flow.stop (e.after 524288 bs.length) () t ∧
      FilledBoth bs e es (clearChain tp w s) t := by
  have hfill : initFill tp (clearChain tp w s) = fillInitial (clearChain tp w s) := by
    rcases htp with rfl | rfl
    · rfl
    · rfl
  rw [hfill]
  exact fillInitial_stream hc hfo rfl hp (by simp) rfl rfl

end

/-- Settles O12: INIT closes with what its two fills leave of the cleared chain. -/
theorem initLoadsBothBuffers : Obligations.InitLoadsBothBuffers := by
  intro s bs e es tap w tp ws st hc hfo hp harg hst
  have hst : st = e.after 524288 bs.length := hst
  subst hst
  obtain ⟨htp, hwin, hok, hws⟩ :
      Tap.ofCode tap = some tp ∧ (tp = .window ∨ tp = .frames) ∧ initArgOk tp w = true ∧ initWsize tp w s = ws := by
    rcases harg with ⟨rfl, h1, h2, rfl, hws⟩ | ⟨rfl, rfl, rfl, rfl⟩
    · exact ⟨rfl, .inl rfl, initArgOk_iff.2 ⟨h1, h2⟩, by simp [initWsize, ← hws]⟩
    · exact ⟨rfl, .inr rfl, rfl, rfl⟩
  obtain ⟨t, hfill, ht⟩ := initFill_stream (w := w) hwin hc hfo hp
  refine ⟨_, execInit_of_initFill htp hok hfill, ?_, fun x hx => ht.slots_clearChain hx⟩
  rw [State.finish_zero, ← hws]
  exact congrArg (fun u : State => { u with res := 0, lastSt := e.after 524288 bs.length }) ht.eq_clearChain

/-! The pure commands (R145): what they answer and write comes from `BB` and the parameters alone. -/

/-- The pure commands of R145. -/
def pureOps : List Op :=
  [.nop, .csrr, .crcBuf, .crcTab, .bfExt, .bfTst, .bbWr, .bsByte, .bsRange, .frDf, .frIcao, .frMe, .frTc, .frCheck,
    .altDec]

/-- BB_WR's writes. -/
theorem clearFrameValidBelow_memWrite (a : Nat) (bs : List Byte) (s : State) :
    ∃ fv, clearFrameValidBelow a (memWrite s a bs) = { s with bb := Memory.writeList s.bb a bs, frameValid := fv } := by
  unfold clearFrameValidBelow
  split
  · exact ⟨false, rfl⟩
  · exact ⟨s.frameValid, rfl⟩

section

variable {i : Instr}

/-- A pure command but CSRR and BB_WR answers the same in every state with this `BB` and these parameters. -/
theorem exec_reads_pure (hop : i.op ∈ pureOps) (hc : i.op ≠ .csrr) (hr : Instr.reads i = true) (m : Memory) (p : Params) :
    ∃ st v, ∀ s : State, s.bb = m → s.params = p → exec i s = .next (s.finish st v) := by
  cases i with
  | nop => exact ⟨.ok, 0, fun _ _ _ => rfl⟩
  | crcBuf lo hi =>
    cases h : bbRange lo hi with
    | none => exact ⟨.outOfRange, 0, fun s _ _ => by simp [exec, execCrcBuf, h]⟩
    | some r => exact ⟨.ok, (crc24 (m.readList r.1 r.2)).setWidth 64, fun s hb _ => by
        simp [exec, execCrcBuf, h, memRead, hb]⟩
  | crcTab index =>
    by_cases h : index > 255
    · exact ⟨.outOfRange, 0, fun s _ _ => by simp [exec, execCrcTab, h]⟩
    · exact ⟨.ok, (crcEntry (BitVec.ofNat 8 index)).setWidth 64, fun s _ _ => by simp [exec, execCrcTab, h]⟩
  | bfExt value start size =>
    by_cases h1 : size = 0 ∨ size ≥ 32
    · exact ⟨.invalidSize, 0, fun s _ _ => by simp [exec, execBfExt, h1]⟩
    · by_cases h2 : start < 0 ∨ start + (size : Int) > 64
      · exact ⟨.outOfRange, 0, fun s _ _ => by simp [exec, execBfExt, h1, h2]⟩
      · exact ⟨.ok, bitSlice value start.toNat size, fun s _ _ => by simp [exec, execBfExt, h1, h2]⟩
  | bfTst value index =>
    cases h : bitIndex index with
    | none => exact ⟨.outOfRange, 0, fun s _ _ => by simp [exec, execBfTst, h]⟩
    | some k => exact ⟨.ok, (value >>> k) &&& 1, fun s _ _ => by simp [exec, execBfTst, h]⟩
  | bsByte index =>
    cases h : bbIndex index with
    | none => exact ⟨.outOfRange, 0, fun s _ _ => by simp [exec, execBsByte, h]⟩
    | some a => exact ⟨.ok, (m.read a).setWidth 64, fun s hb _ => by simp [exec, execBsByte, h, hb]⟩
  | bsRange lo hi =>
    cases h : bbRange lo hi with
    | none => exact ⟨.outOfRange, 0, fun s _ _ => by simp [exec, execBsRange, h]⟩
    | some r =>
      by_cases hn : r.2 > maxRangeBytes
      · exact ⟨.invalidArgument, 0, fun s _ _ => by simp [exec, execBsRange, h, hn]⟩
      · exact ⟨.ok, BitVec.ofNat 64 (beNat (m.readList r.1 r.2)), fun s hb _ => by
          simp [exec, execBsRange, h, hn, memRead, hb]⟩
  | frDf => exact ⟨.ok, (m.read 0 >>> 3).setWidth 64, fun s hb _ => by subst hb; rfl⟩
  | frIcao => exact ⟨.ok, BitVec.ofNat 64 (beNat (m.readList 1 3)), fun s hb _ => by subst hb; rfl⟩
  | frMe => exact ⟨.ok, BitVec.ofNat 64 (beNat (m.readList 4 7)), fun s hb _ => by subst hb; rfl⟩
  | frTc => exact ⟨.ok, (m.read 4 >>> 3).setWidth 64, fun s hb _ => by subst hb; rfl⟩
  | frCheck =>
    by_cases h : crc24 (m.readList 0 frameBytes) = 0#24
    · exact ⟨.ok, 0, fun s hb _ => by simp [exec, execFrCheck, memRead, hb, h]⟩
    · exact ⟨.noMsg, 0, fun s hb _ => by simp [exec, execFrCheck, memRead, hb, h]⟩
  | altDec imm =>
    by_cases hz : imm.extractLsb' 12 4 = 0#4
    · cases h : altFeet p.altRule (imm.extractLsb' 0 12) with
      | none => exact ⟨.noMsg, 0, fun s _ hp => by simp [exec, execAltDec, hz, hp, h]⟩
      | some ft => exact ⟨.ok, BitVec.ofInt 64 ft, fun s _ hp => by simp [exec, execAltDec, hz, hp, h]⟩
    · exact ⟨.reservedField, 0, fun s _ _ => by simp [exec, execAltDec, hz]⟩
  | csrr n => exact absurd rfl hc
  | bbWr index imm => simp [Instr.reads] at hr
  | _ => simp [pureOps, Instr.op] at hop

/-- BB_WR writes the same byte in every state. -/
theorem execBbWr_pure (index : Int) (imm : BitVec 16) (m : Memory) :
    ∃ st m', ∀ s : State, s.bb = m →
      ∃ fv, execBbWr index imm s = .next { s.finish st 0 with bb := m', frameValid := fv } := by
  by_cases hz : imm.extractLsb' 8 8 = 0#8
  · cases h : bbIndex index with
    | none => exact ⟨.outOfRange, m, fun s hb => ⟨s.frameValid, by subst hb; simp [execBbWr, hz, h, State.finish]⟩⟩
    | some a =>
      refine ⟨.ok, Memory.writeList m a [imm.extractLsb' 0 8], fun s hb => ?_⟩
      obtain ⟨fv, hfv⟩ := clearFrameValidBelow_memWrite a [imm.extractLsb' 0 8] s
      exact ⟨fv, by subst hb; simp [execBbWr, hz, h, hfv, State.finish]⟩
  · exact ⟨.reservedField, m, fun s hb => ⟨s.frameValid, by subst hb; simp [execBbWr, hz, State.finish]⟩⟩

/-- A pure command but CSRR, in every state with this `BB` and these parameters: one answer and one next `BB`. -/
theorem exec_pure (hop : i.op ∈ pureOps) (hc : i.op ≠ .csrr) (m : Memory) (p : Params) :
    ∃ st v m', ∀ s : State, s.bb = m → s.params = p →
      ∃ fv, exec i s = .next { s.finish st v with bb := m', frameValid := fv } := by
  by_cases hr : Instr.reads i = true
  · obtain ⟨st, v, h⟩ := exec_reads_pure hop hc hr m p
    exact ⟨st, v, m, fun s hb hp => ⟨s.frameValid, by rw [h s hb hp]; subst hb; rfl⟩⟩
  · cases i with
    | bbWr index imm =>
      obtain ⟨st, m', h⟩ := execBbWr_pure index imm m
      exact ⟨st, 0, m', fun s hb _ => h s hb⟩
    | init | sdNext | pcNext | pwAdv | pwAdvn | dmNext => simp [pureOps, Instr.op] at hop
    | _ => exact absurd rfl hr

/-- A pure command ends in every state and writes `RES`, `LAST_ST`, `BB` and FRAME_VALID at most. -/
theorem exec_pure_frame (hop : i.op ∈ pureOps) (s : State) :
    ∃ t, exec i s = .next t ∧
      t = { s with res := t.res, lastSt := t.lastSt, bb := t.bb, frameValid := t.frameValid } := by
  by_cases hc : i.op = .csrr
  · have hr : Instr.reads i = true := by cases i with
      | csrr n => rfl
      | _ => simp [Instr.op] at hc
    obtain ⟨st, v, h⟩ := exec_reads hr s
    exact ⟨_, h, rfl⟩
  · obtain ⟨st, v, m', h⟩ := exec_pure hop hc s.bb s.params
    obtain ⟨fv, hx⟩ := h s rfl rfl
    exact ⟨_, hx, rfl⟩

end

/-- Settles O58: CSRR writes nothing but its answer, and every other pure command's answer and next `BB` are the same in two
states that agree on `BB` and the parameters. -/
theorem pureCommandsLeaveChainAlone : Obligations.PureCommandsLeaveChainAlone := by
  intro i hi
  refine ⟨exec_pure_frame hi, fun s s' t t' hc hb hp hx hx' => ?_⟩
  obtain ⟨st, v, m', h⟩ := exec_pure hi hc s.bb s.params
  obtain ⟨fv, hs⟩ := h s rfl rfl
  obtain ⟨fv', hs'⟩ := h s' hb.symm hp.symm
  obtain rfl := Host.Outcome.next.inj (hs.symm.trans hx)
  obtain rfl := Host.Outcome.next.inj (hs'.symm.trans hx')
  exact ⟨rfl, rfl, rfl⟩

end Sys2Proof.Machine

/-! The bit fields and the byte buffer (R160 to R165, R168), and the host's hex conversion (R166, R167). -/

namespace Sys2Proof.Machine

open Sys2Proof.Config

theorem State.finish_ok (s : State) (v : Word64) : s.finish .ok v = { s with res := v, lastSt := .ok } := rfl

/-! Indices and ranges (R161 to R164). -/

theorem bitIndex_outside {a : Int} (h : a < 0 ∨ a ≥ 64) : bitIndex a = none := if_pos h

theorem bitIndex_inside {a : Int} (h0 : 0 ≤ a) (h : a < 64) : bitIndex a = some a.toNat := if_neg (by omega)

theorem bbIndex_outside {a : Int} (h : a < 0 ∨ a > 255) : bbIndex a = none := if_pos h

theorem bbIndex_inside {a : Int} (h0 : 0 ≤ a) (h : a ≤ 255) : bbIndex a = some a.toNat := if_neg (by omega)

theorem bbRange_outside {lo : Int} {hi : Nat} (h : lo < 0 ∨ lo > hi ∨ hi > 256) : bbRange lo hi = none := if_pos h

theorem bbRange_inside {lo : Int} {hi : Nat} (h0 : 0 ≤ lo) (hle : lo ≤ hi) (h : hi ≤ 256) :
    bbRange lo hi = some (lo.toNat, hi - lo.toNat) := if_neg (by unfold bbSize; omega)

/-! BF_EXT and BF_TST. -/

/-- A slice of a legal size is the shifted value below `2^size` (R160). -/
theorem toNat_bitSlice (value : Word64) (start : Nat) {size : Nat} (h : size ≤ 64) :
    (bitSlice value start size).toNat = value.toNat / 2 ^ start % 2 ^ size := by
  have hmask : 2 ^ size - 1 < 2 ^ 64 := by
    have := Nat.pow_le_pow_right (n := 2) (by decide) h
    have := Nat.two_pow_pos size
    omega
  rw [bitSlice, BitVec.toNat_and, BitVec.toNat_ushiftRight, BitVec.toNat_ofNat, Nat.mod_eq_of_lt hmask,
    Nat.and_two_pow_sub_one_eq_mod, Nat.shiftRight_eq_div_pow]

/-- Settles O43: the two checks in their order, then the slice's value. -/
theorem bfExtIsMathematicalSlice : Obligations.BfExtIsMathematicalSlice := by
  intro s value start size
  simp only [exec, execBfExt]
  refine ⟨fun hsize => ?_, fun h1 h31 hrange => ?_, fun h1 h31 h0 hend => ?_⟩
  · rw [if_pos hsize, Flow.close_ended, State.finish_zero]
  · rw [if_neg (by omega), if_pos hrange, Flow.close_ended, State.finish_zero]
  · rw [if_neg (by omega), if_neg (by omega)]
    exact ⟨_, rfl, toNat_bitSlice value start.toNat (by omega)⟩

theorem shiftRight_and_one (value : Word64) (k : Nat) :
    (value >>> k) &&& 1 = if value.getLsbD k then 1 else 0 := by
  rw [BitVec.ofNat_eq_ofNat, BitVec.and_one_eq_setWidth_ofBool_getLsbD, BitVec.getLsbD_ushiftRight, Nat.add_zero]
  cases value.getLsbD k <;> rfl

/-- Settles O44: outside [0, 64) there is no bit index, and inside the lowest bit of the shifted value is the bit. -/
theorem bfTstReturnsBit : Obligations.BfTstReturnsBit := by
  intro s value index
  simp only [exec, execBfTst]
  refine ⟨fun h => ?_, fun h0 h64 => ?_⟩
  · rw [bitIndex_outside h]
    exact congrArg _ (State.finish_zero s .outOfRange)
  · rw [bitIndex_inside h0 h64, ← shiftRight_and_one]
    rfl

/-! BB_WR. -/

/-- The reserved bits IMM16[15:8] are zero exactly when the operand is a byte (R162). -/
theorem extractLsb'_high_eq_zero_iff (imm : BitVec 16) : imm.extractLsb' 8 8 = 0 ↔ imm.toNat < 256 := by
  have := imm.isLt
  rw [← BitVec.toNat_inj, BitVec.extractLsb'_toNat, Nat.shiftRight_eq_div_pow]
  show imm.toNat / 256 % 256 = 0 ↔ imm.toNat < 256
  omega

theorem toNat_extractLsb'_low {imm : BitVec 16} (h : imm.toNat < 256) : (imm.extractLsb' 0 8).toNat = imm.toNat := by
  rw [BitVec.extractLsb'_toNat, Nat.shiftRight_zero, Nat.mod_eq_of_lt h]

theorem clearFrameValidBelow_eq (a : Nat) (s : State) :
    clearFrameValidBelow a s = { s with frameValid := if a < frameBytes then false else s.frameValid } := by
  unfold clearFrameValidBelow
  split <;> rfl

section

variable {s : State} {index : Int} {imm : BitVec 16}

theorem execBbWr_reserved (h : imm.toNat ≥ 256) :
    execBbWr index imm s = .next { s with res := 0, lastSt := .reservedField } := by
  rw [execBbWr, if_pos (mt (extractLsb'_high_eq_zero_iff imm).1 (by omega)), Flow.close_ended, State.finish_zero]

theorem execBbWr_outside (h : imm.toNat < 256) (hi : index < 0 ∨ index > 255) :
    execBbWr index imm s = .next { s with res := 0, lastSt := .outOfRange } := by
  rw [execBbWr, if_neg (not_not.2 ((extractLsb'_high_eq_zero_iff imm).2 h)), bbIndex_outside hi, Flow.close_ended,
    State.finish_zero]

theorem execBbWr_inside (h : imm.toNat < 256) (h0 : 0 ≤ index) (h255 : index ≤ 255) :
    execBbWr index imm s =
      .next
        { s with
          res := 0, lastSt := .ok, frameValid := if index < 14 then false else s.frameValid,
          bb := Memory.write s.bb index.toNat (imm.extractLsb' 0 8) } := by
  have hslot : index.toNat < frameBytes ↔ index < 14 := by unfold frameBytes; omega
  rw [execBbWr, if_neg (not_not.2 ((extractLsb'_high_eq_zero_iff imm).2 h)), bbIndex_inside h0 h255, Flow.close_ok,
    clearFrameValidBelow_eq]
  simp only [hslot]
  rfl

end

/-- Settles O45: the reserved bits, then the index, then one write of `BB`. -/
theorem bbWrStoresOneByte : Obligations.BbWrStoresOneByte := fun s index _ =>
  ⟨execBbWr_reserved, execBbWr_outside, fun h h0 h255 hwf => ⟨_, execBbWr_inside h h0 h255, rfl,
    (congrArg _ (Memory.read_write_same index.toNat _ hwf)).trans (toNat_extractLsb'_low h),
    fun _ ha => Memory.read_write_other s.bb _ ha⟩⟩

/-! BS_BYTE and BS_RANGE. -/

/-- Settles O46: outside 0..255 there is no index, and a byte fits the result. -/
theorem bsByteReadsByte : Obligations.BsByteReadsByte := by
  intro s index
  simp only [exec, execBsByte]
  refine ⟨fun h => ?_, fun h0 h255 => ?_⟩
  · rw [bbIndex_outside h]
    exact congrArg _ (State.finish_zero s .outOfRange)
  · rw [bbIndex_inside h0 h255]
    exact ⟨_, rfl, BitVec.toNat_setWidth_of_le (by decide)⟩

/-- A big-endian read that goes on from `v` weighs `v` above all the bytes still to come. -/
theorem foldl_bytes_eq (bs : List Byte) (v : Nat) :
    bs.foldl (fun v b => v * 256 + b.toNat) v = v * 256 ^ bs.length + beNat bs := by
  unfold beNat
  induction bs generalizing v with
  | nil => simp
  | cons b bs ih =>
    simp only [List.foldl_cons, List.length_cons]
    rw [ih (v * 256 + b.toNat), ih (0 * 256 + b.toNat)]
    ring

theorem beNat_cons (b : Byte) (bs : List Byte) : beNat (b :: bs) = b.toNat * 256 ^ bs.length + beNat bs := by
  rw [← foldl_bytes_eq]
  simp [beNat]

theorem beNat_lt (bs : List Byte) : beNat bs < 256 ^ bs.length := by
  induction bs with
  | nil => decide
  | cons b bs ih =>
    have hb : b.toNat + 1 ≤ 256 := b.isLt
    calc beNat (b :: bs) < (b.toNat + 1) * 256 ^ bs.length := by rw [beNat_cons, Nat.succ_mul]; omega
      _ ≤ 256 ^ (b :: bs).length := by
        rw [List.length_cons, Nat.pow_succ']
        exact Nat.mul_le_mul_right _ hb

/-- The bytes of a range, each at its big-endian weight (R73, R164). -/
theorem beNat_readList (m : Memory) (a n : Nat) :
    beNat (m.readList a n) = ((List.range n).map fun j => (m.read (a + j)).toNat * 256 ^ (n - 1 - j)).sum := by
  induction n generalizing a with
  | zero => rfl
  | succ n ih =>
    rw [Memory.readList, beNat_cons, Memory.length_readList, ih, List.range_succ_eq_map]
    simp [Function.comp_def, Nat.add_assoc, Nat.sub_sub, Nat.add_comm 1]

/-- At most 8 bytes fit the result (R164). -/
theorem toNat_ofNat_beNat_readList (m : Memory) (a : Nat) {n : Nat} (h : n ≤ 8) :
    (BitVec.ofNat 64 (beNat (m.readList a n))).toNat = beNat (m.readList a n) := by
  have hlt := beNat_lt (m.readList a n)
  rw [Memory.length_readList] at hlt
  exact Nat.mod_eq_of_lt (hlt.trans_le (Nat.pow_le_pow_right (n := 256) (by decide) h))

/-- Settles O47: the bounds, then the length, then the big-endian value, which fits 64 bits. -/
theorem bsRangeReadsBigEndian : Obligations.BsRangeReadsBigEndian := by
  intro s lo hi
  simp only [exec, execBsRange]
  refine ⟨fun h => ?_, fun h0 h256 hlen => ?_, fun h0 hle h256 hlen => ?_⟩
  · rw [bbRange_outside h]
    exact congrArg _ (State.finish_zero s .outOfRange)
  · rw [bbRange_inside h0 (by omega) h256]
    dsimp only
    rw [if_pos (by unfold maxRangeBytes; omega), Flow.close_ended, State.finish_zero]
  · rw [bbRange_inside h0 hle h256]
    dsimp only
    rw [if_neg (by unfold maxRangeBytes; omega), Flow.close_ok, State.finish_ok]
    exact ⟨_, rfl, (toNat_ofNat_beNat_readList s.bb _ (by omega)).trans (beNat_readList ..)⟩

/-! The commands that write `BB` (R168). -/

/-- No write of the sample chain or the window touches `BB`. -/
theorem bb_stepKeeps (m : Memory) : StepKeeps fun t => t.bb = m where
  take := fun _ _ _ _ h => h
  count := fun _ h => h
  sawEof := fun _ h => h
  failed := fun _ _ _ h => h
  insert := fun _ _ _ h => h
  start := fun _ _ h => by simpa using h
  store := fun _ _ _ h => by simpa using h
  move := fun _ _ h => by simpa using h

theorem execInit_bb {tap : Nat} {w : Int} {s t : State} (hx : execInit tap w s = .next t) : t.bb = s.bb := by
  obtain ⟨s', st, v, rfl, rfl | ⟨tp, -, hl⟩⟩ := execInit_next hx
  · rfl
  · have hframe : s'.bb = (clearChain tp w s).bb := by rw [initFill_frame hl]
    exact hframe

/-- Every command but BB_WR and DM_NEXT leaves `BB` as it was. -/
theorem exec_bb {i : Instr} {s t : State} (hdm : i ≠ .dmNext) (hwr : ∀ index imm, i ≠ .bbWr index imm)
    (hx : exec i s = .next t) : t.bb = s.bb := by
  have hfin : ∀ (u : State) st v, u.bb = s.bb → (u.finish st v).bb = s.bb := fun _ _ _ h => h
  have hkeep := bb_stepKeeps s.bb
  by_cases hr : Instr.reads i = true
  · obtain ⟨st, v, he⟩ := exec_reads hr s
    rw [he, Host.Outcome.next.injEq] at hx
    exact hx ▸ rfl
  · cases i with
    | init tap w => exact execInit_bb hx
    | sdNext => exact execSdNext_keeps hkeep.toReadKeeps hfin rfl hx
    | pcNext => exact execPcNext_keeps hkeep.toPairKeeps hfin rfl hx
    | pwAdv => exact execPwAdv_keeps hkeep hfin rfl hx
    | pwAdvn n => exact execPwAdvn_keeps hkeep hfin rfl hx
    | dmNext => exact absurd rfl hdm
    | bbWr index imm => exact absurd rfl (hwr index imm)
    | _ => exact absurd rfl hr

/-- `t` has the bytes of `s` outside the frame slot (R287). -/
def State.SameBeyondSlot (s t : State) : Prop := ∀ a, frameBytes ≤ a → t.bb.read a = s.bb.read a

/-- The detector's one write of `BB` is a delivered frame, which fills the frame slot and no more (R287). -/
theorem sameBeyondSlot_scanKeeps (s : State) : ScanKeeps s.SameBeyondSlot where
  take := fun _ _ _ _ h => h
  count := fun _ h => h
  sawEof := fun _ h => h
  failed := fun _ _ _ h => h
  insert := fun _ _ _ h => h
  start := fun _ _ h a ha => by simpa using h a ha
  store := fun _ _ _ h a ha => by simpa using h a ha
  move := fun _ _ h a ha => by simpa using h a ha
  load := fun _ h a ha => by simpa using h a ha
  shift := fun _ _ _ h => h
  deliver := fun u _ h a ha =>
    (Memory.read_writeList_outside u.bb (candidate u) (by simp [ha])).trans (h a ha)
  forget := fun _ h => h

/-- Settles O48: only BB_WR and the detector's delivery write `BB`, and a delivery stays in the frame slot. -/
theorem onlyBbWrAndDmNextWriteBuffer : Obligations.OnlyBbWrAndDmNextWriteBuffer := by
  refine fun i s t hx => ⟨fun hdm hwr => exec_bb hdm hwr hx, ?_⟩
  rintro rfl
  exact execDmNext_keeps (sameBeyondSlot_scanKeeps s) (fun _ _ _ h => h) (fun _ _ => rfl) hx

/-! Hex (R166, R167). -/

theorem hexDigit_hexChar : ∀ n < 16, hexDigit (hexChar n) = some n := by decide

/-- A character with a hex value is the uppercase digit of that value. -/
theorem hexChar_of_hexDigit {c : Char} {n : Nat} (h : hexDigit c = some n) : n < 16 ∧ hexChar n = c := by
  unfold hexDigit at h
  unfold hexChar
  split at h
  · obtain rfl := Option.some.inj h
    rw [if_pos (by omega), show 48 + (c.toNat - 48) = c.toNat by omega]
    exact ⟨by omega, Char.ofNat_toNat c⟩
  · split at h
    · obtain rfl := Option.some.inj h
      rw [if_neg (by omega), show 55 + (c.toNat - 55) = c.toNat by omega]
      exact ⟨by omega, Char.ofNat_toNat c⟩
    · cases h

/-- A pair of characters parses to a byte exactly when both are digits and the rest parses. -/
theorem parseHex_cons_cons {a b : Char} {cs : List Char} {bs : List Byte} :
    parseHex (a :: b :: cs) = some bs ↔
      ∃ x y bs', hexDigit a = some x ∧ hexDigit b = some y ∧ parseHex cs = some bs' ∧
        bs = BitVec.ofNat 8 (16 * x + y) :: bs' := by
  rw [parseHex]
  split
  · next x y bs' hx hy hcs => simp [hx, hy, hcs, eq_comm]
  · next hno =>
    refine ⟨nofun, ?_⟩
    rintro ⟨x, y, bs', hx, hy, hcs, -⟩
    exact (hno x y bs' hx hy hcs).elim

theorem formatHex_of_parseHex : ∀ {cs : List Char} {bs : List Byte}, parseHex cs = some bs → formatHex bs = cs
  | [], _, rfl => rfl
  | [_], _, h => nomatch h
  | a :: b :: cs, _, h => by
    obtain ⟨x, y, bs, hx, hy, hcs, rfl⟩ := parseHex_cons_cons.1 h
    obtain ⟨hx, rfl⟩ := hexChar_of_hexDigit hx
    obtain ⟨hy, rfl⟩ := hexChar_of_hexDigit hy
    have hbyte : (BitVec.ofNat 8 (16 * x + y)).toNat = 16 * x + y := Nat.mod_eq_of_lt (by omega)
    rw [formatHex, hbyte, show (16 * x + y) / 16 = x by omega, show (16 * x + y) % 16 = y by omega,
      formatHex_of_parseHex hcs]

theorem parseHex_formatHex (bs : List Byte) : parseHex (formatHex bs) = some bs := by
  induction bs with
  | nil => rfl
  | cons b bs ih =>
    have hb := b.isLt
    refine parseHex_cons_cons.2 ⟨_, _, bs, hexDigit_hexChar _ (by omega), hexDigit_hexChar _ (by omega), ih, ?_⟩
    rw [Nat.div_add_mod, BitVec.ofNat_toNat, BitVec.setWidth_eq]

theorem length_formatHex (bs : List Byte) : (formatHex bs).length = 2 * bs.length := by
  induction bs with
  | nil => rfl
  | cons b bs ih => simp only [formatHex, List.length_cons, ih]; omega

theorem mem_formatHex {c : Char} {bs : List Byte} (h : c ∈ formatHex bs) : ∃ n < 16, hexChar n = c := by
  induction bs with
  | nil => cases h
  | cons b bs ih =>
    have hb := b.isLt
    simp only [formatHex, List.mem_cons] at h
    rcases h with rfl | rfl | h
    · exact ⟨_, by omega, rfl⟩
    · exact ⟨_, by omega, rfl⟩
    · exact ih h

theorem hexChar_mem_digits : ∀ n < 16,
    hexChar n ∈ ['0', '1', '2', '3', '4', '5', '6', '7', '8', '9', 'A', 'B', 'C', 'D', 'E', 'F'] := by decide

theorem bbLoadHex_of_parseHex_eq_none {cs : List Char} (h : parseHex cs = none) (a : Int) : bbLoadHex a cs = none := by
  rw [bbLoadHex, h]

/-- Settles O49: an accepted string is a formatting, and a formatting has even length and uppercase digits only. -/
theorem hexRoundTrip : Obligations.HexRoundTrip := by
  refine ⟨fun _ _ => formatHex_of_parseHex, parseHex_formatHex, fun cs hbad => ?_⟩
  have hnone : parseHex cs = none := by
    refine Option.eq_none_iff_forall_ne_some.2 fun bs hcs => ?_
    obtain rfl := formatHex_of_parseHex hcs
    rcases hbad with hodd | ⟨c, hc, hdigit⟩
    · rw [length_formatHex] at hodd
      omega
    · obtain ⟨n, hn, rfl⟩ := mem_formatHex hc
      exact hdigit (hexChar_mem_digits n hn)
  exact ⟨hnone, bbLoadHex_of_parseHex_eq_none hnone⟩

end Sys2Proof.Machine

/-! The CRC unit (42_crc24.md): one bit step is linear and loses nothing, eight of them are one table step, and so the
byte-wise CRC is the bitwise one, is linear, and sees every single-byte error. -/

namespace Sys2Proof.Machine

/-! The table (R192, R193). -/

/-- The rows of R193 are the values that R192 asks for: a check of 256 constants. -/
theorem crcTable_eq : crcTable = (List.range 256).map fun n => crcBits [BitVec.ofNat 8 n] := by decide +kernel

theorem crcEntry_eq_crcBits (b : Byte) : crcEntry b = crcBits [b] := by
  simp [crcEntry, crcTable_eq, List.getD_eq_getElem?_getD, List.getElem?_range b.isLt]

/-! Lists of steps. -/

section

variable {β : Type} {f : Crc → β → Crc}

/-- Steps that are linear in the register and the input are linear over lists of equal length. -/
theorem foldl_zipWith_xor {op : β → β → β} (hf : ∀ c d a b, f (c ^^^ d) (op a b) = f c a ^^^ f d b) :
    ∀ (as bs : List β) (c d : Crc), as.length = bs.length →
      (List.zipWith op as bs).foldl f (c ^^^ d) = as.foldl f c ^^^ bs.foldl f d
  | [], [], _, _, _ => rfl
  | a :: as, b :: bs, c, d, h => by
    simp only [List.zipWith_cons_cons, List.foldl_cons, hf]
    exact foldl_zipWith_xor hf as bs (f c a) (f d b) (Nat.succ.inj h)

/-- Steps that lose nothing of the register lose nothing over a list. -/
theorem foldl_injective (hf : ∀ b, Function.Injective fun c => f c b) :
    ∀ bs : List β, Function.Injective fun c => bs.foldl f c
  | [] => fun _ _ h => h
  | b :: bs => fun _ _ h => hf b (foldl_injective hf bs h)

end

/-! One bit (R191). -/

/-- A bit step takes the bit in from below, and adds the generator when a 1 leaves at the top. -/
theorem crcBitStep_eq (c : Crc) (b : Bool) :
    crcBitStep c b = c.shiftConcat b ^^^ if c.getLsbD 23 then crcGen else 0 := by
  have hshift : (c <<< 1) ||| (BitVec.ofBool b).setWidth 24 = c.shiftConcat b := by
    refine BitVec.eq_of_getLsbD_eq fun i hi => ?_
    rw [BitVec.getLsbD_shiftConcat]
    rcases i with _ | i <;> simp [hi, BitVec.getLsbD_ofBool, -BitVec.getLsbD_eq_getElem]
  simp only [crcBitStep, hshift]
  split <;> simp

/-- The generator's constant term is 1, so the lowest bit tells which bit has left (R190). -/
theorem getLsbD_crcBitStep_zero (c : Crc) (b : Bool) : (crcBitStep c b).getLsbD 0 = (b ^^ c.getLsbD 23) := by
  rw [crcBitStep_eq, BitVec.getLsbD_xor, BitVec.getLsbD_shiftConcat]
  cases c.getLsbD 23 <;> rfl

theorem getLsbD_crcBitStep_succ (c : Crc) (b : Bool) {i : Nat} (hi : i < 23) :
    (crcBitStep c b).getLsbD (i + 1) = (c.getLsbD i ^^ (c.getLsbD 23 && crcGen.getLsbD (i + 1))) := by
  rw [crcBitStep_eq, BitVec.getLsbD_xor, BitVec.getLsbD_shiftConcat, decide_eq_true (by omega)]
  cases c.getLsbD 23 <;> simp

theorem crcBitStep_xor (c d : Crc) (a b : Bool) :
    crcBitStep (c ^^^ d) (a ^^ b) = crcBitStep c a ^^^ crcBitStep d b := by
  refine BitVec.eq_of_getLsbD_eq fun i hi => ?_
  rcases i with _ | i
  · simp only [BitVec.getLsbD_xor, getLsbD_crcBitStep_zero, Bool.xor_assoc, Bool.xor_left_comm]
  · simp only [BitVec.getLsbD_xor, getLsbD_crcBitStep_succ _ _ (Nat.lt_of_succ_lt_succ hi), Bool.and_xor_distrib_right,
      Bool.xor_assoc, Bool.xor_left_comm]

/-- The bit that leaves can be read from the result, and with it every other bit. -/
theorem crcBitStep_injective (b : Bool) : Function.Injective fun c => crcBitStep c b := by
  intro c d h
  have hbit (i : Nat) : (crcBitStep c b).getLsbD i = (crcBitStep d b).getLsbD i := congrArg (·.getLsbD i) h
  have htop : c.getLsbD 23 = d.getLsbD 23 := by
    simpa only [getLsbD_crcBitStep_zero, Bool.xor_right_inj] using hbit 0
  refine BitVec.eq_of_getLsbD_eq fun i hi => ?_
  rcases Nat.lt_succ_iff_lt_or_eq.1 hi with hlt | rfl
  · simpa only [getLsbD_crcBitStep_succ _ _ hlt, htop, Bool.xor_left_inj] using hbit (i + 1)
  · exact htop

/-- While the register's value leaves room at the top, the bits only go in from below. -/
theorem toNat_foldl_crcBitStep (bits : List Bool) {c : Crc} {k : Nat} (hk : k + bits.length ≤ 24)
    (hc : c.toNat < 2 ^ k) : (bits.foldl crcBitStep c).toNat = bits.foldl (fun v b => v * 2 + b.toNat) c.toNat := by
  induction bits generalizing c k with
  | nil => rfl
  | cons b bits ih =>
    rw [List.length_cons] at hk
    have htop : c.getLsbD 23 = false :=
      Nat.testBit_lt_two_pow (hc.trans_le (Nat.pow_le_pow_right (by decide) (by omega)))
    have hstep : (crcBitStep c b).toNat = c.toNat * 2 + b.toNat := by
      rw [crcBitStep_eq, htop, if_neg Bool.false_ne_true, BitVec.ofNat_eq_ofNat, BitVec.xor_zero]
      exact BitVec.toNat_shiftConcat_eq_of_lt (by omega) hc
    rw [List.foldl_cons, List.foldl_cons, ← hstep]
    have hb := b.toNat_le
    exact ih (k := k + 1) (by omega) (by omega)

/-! The bits of one byte (R191). -/

/-- The eight bit steps of a byte. -/
def crcByteBits (c : Crc) (b : Byte) : Crc := (bitsMsb b).foldl crcBitStep c

/-- The bitwise CRC, byte by byte: its 24 zero bits are three zero bytes. -/
theorem crcBits_eq_foldl_crcByteBits (bs : List Byte) : crcBits bs = (bs ++ [0, 0, 0]).foldl crcByteBits 0 := by
  have hflush : List.replicate 24 false = [0, 0, 0].flatMap bitsMsb := rfl
  rw [crcBits, hflush, ← List.flatMap_append, List.foldl_flatMap]
  rfl

theorem bitsMsb_xor (a b : Byte) : bitsMsb (a ^^^ b) = List.zipWith (· ^^ ·) (bitsMsb a) (bitsMsb b) := by
  simp [bitsMsb]

theorem crcByteBits_xor (c d : Crc) (a b : Byte) :
    crcByteBits (c ^^^ d) (a ^^^ b) = crcByteBits c a ^^^ crcByteBits d b := by
  rw [crcByteBits, bitsMsb_xor]
  exact foldl_zipWith_xor crcBitStep_xor _ _ c d rfl

theorem crcByteBits_injective (b : Byte) : Function.Injective fun c => crcByteBits c b :=
  foldl_injective crcBitStep_injective (bitsMsb b)

/-- A byte's bits put below a value weigh what the byte does. -/
theorem foldl_bitsMsb (v : Nat) (b : Byte) :
    (bitsMsb b).foldl (fun v b => v * 2 + b.toNat) v = v * 256 + b.toNat := by
  have hbits : ∀ b : Byte, (bitsMsb b).foldl (fun v b => v * 2 + b.toNat) 0 = b.toNat := by decide
  rw [← hbits b]
  simp only [bitsMsb, List.foldl_cons, List.foldl_nil]
  omega

/-- While the register's value leaves room at the top, the bytes only go in from below. -/
theorem toNat_foldl_crcByteBits (bs : List Byte) {c : Crc} {k : Nat} (hk : k + 8 * bs.length ≤ 24)
    (hc : c.toNat < 2 ^ k) :
    (bs.foldl crcByteBits c).toNat = bs.foldl (fun v b => v * 256 + b.toNat) c.toNat := by
  have hlen : (bs.flatMap bitsMsb).length = 8 * bs.length := by
    simp [List.length_flatMap, bitsMsb, Nat.mul_comm]
  have h := toNat_foldl_crcBitStep (bs.flatMap bitsMsb) (hlen ▸ hk) hc
  simp only [List.foldl_flatMap, foldl_bitsMsb] at h
  exact h

/-! One byte (R194): the register is its top byte, which the table answers for, and the rest, which only moves up. -/

/-- The register without its top byte. -/
def crcRest (c : Crc) : Crc := (c.setWidth 16).setWidth 24

/-- A register with nothing but its top byte. -/
def crcTop (x : Byte) : Crc := x.setWidth 24 <<< 16

theorem crcRest_xor_crcTop (c : Crc) : crcRest c ^^^ crcTop (c.extractLsb' 16 8) = c := by
  refine BitVec.eq_of_getLsbD_eq fun i hi => ?_
  by_cases h : i < 16
  · simp [crcRest, crcTop, h, hi]
  · simp [crcRest, crcTop, h, hi, show 16 + (i - 16) = i by omega, show i - 16 < 8 by omega]

theorem crcByteBits_crcRest (c : Crc) (b : Byte) : crcByteBits (crcRest c) b = (c <<< 8) ||| b.setWidth 24 := by
  have hrest : (crcRest c).toNat = c.toNat % 2 ^ 16 := by
    rw [crcRest, BitVec.toNat_setWidth_of_le (by decide), BitVec.toNat_setWidth]
  have hshift : c.toNat <<< 8 % 2 ^ 24 = (c.toNat % 2 ^ 16) <<< 8 := by omega
  have hbits := toNat_foldl_crcByteBits [b] (c := crcRest c) (k := 16) (by simp) (by omega)
  refine BitVec.eq_of_toNat_eq (hbits.trans ?_)
  rw [BitVec.toNat_or, BitVec.toNat_shiftLeft, BitVec.toNat_setWidth_of_le (by decide), hshift,
    ← Nat.shiftLeft_add_eq_or_of_lt b.isLt, Nat.shiftLeft_eq, hrest]
  rfl

/-- The table entry is what the top byte turns into while it leaves (R192). -/
theorem crcByteBits_crcTop (x : Byte) : crcByteBits (crcTop x) 0 = crcEntry x := by
  have hin : [x, 0, 0].foldl crcByteBits 0 = crcTop x := by
    have h := toNat_foldl_crcByteBits [x, 0, 0] (c := 0) (k := 0) (by simp) (by decide)
    refine BitVec.eq_of_toNat_eq (h.trans ?_)
    rw [crcTop, BitVec.toNat_shiftLeft, BitVec.toNat_setWidth_of_le (by decide), Nat.shiftLeft_eq]
    show ((0 * 256 + x.toNat) * 256 + 0) * 256 + 0 = x.toNat * 2 ^ 16 % 2 ^ 24
    omega
  rw [crcEntry_eq_crcBits, crcBits_eq_foldl_crcByteBits, ← hin]
  rfl

/-- A table step is the eight bit steps of the byte (R195). -/
theorem crcStep_eq : crcStep = crcByteBits := by
  funext c b
  have hsplit := crcByteBits_xor (crcRest c) (crcTop (c.extractLsb' 16 8)) b 0
  rw [crcRest_xor_crcTop, crcByteBits_crcRest, crcByteBits_crcTop] at hsplit
  simpa [crcStep] using hsplit.symm

theorem crcStep_xor (c d : Crc) (a b : Byte) : crcStep (c ^^^ d) (a ^^^ b) = crcStep c a ^^^ crcStep d b := by
  rw [crcStep_eq, crcByteBits_xor]

theorem crcStep_injective (b : Byte) : Function.Injective fun c => crcStep c b := by
  rw [crcStep_eq]
  exact crcByteBits_injective b

/-- Different bytes taken in by one register leave different registers. -/
theorem crcStep_byte_injective (c : Crc) : Function.Injective (crcStep c) := by
  intro x y h
  rw [crcStep, crcStep, BitVec.xor_left_inj] at h
  simpa using congrArg (BitVec.setWidth 8) h

/-! Byte lists (R194, R195, R198, R199). -/

/-- Settles O39: a table step is eight bit steps, and the flush is the 24 zero bits. -/
theorem byteCrcIsBitwiseCrc : Obligations.ByteCrcIsBitwiseCrc := fun bs => by
  rw [crc24, crcStep_eq, crcBits_eq_foldl_crcByteBits]

theorem crc24_zipWith_xor (as bs : List Byte) (h : as.length = bs.length) :
    crc24 (List.zipWith (· ^^^ ·) as bs) = crc24 as ^^^ crc24 bs := by
  have hflush := foldl_zipWith_xor crcStep_xor (as ++ [0, 0, 0]) (bs ++ [0, 0, 0]) 0 0 (by simp [h])
  rw [List.zipWith_append h] at hflush
  exact hflush

theorem crc24_append (as bs : List Byte) : crc24 (as ++ bs) = (bs ++ [0, 0, 0]).foldl crcStep (as.foldl crcStep 0) := by
  rw [crc24, List.append_assoc, List.foldl_append]

/-- Lists that differ in one byte have different CRCs (R199). -/
theorem crc24_append_cons_inj {as bs : List Byte} {x y : Byte} :
    crc24 (as ++ x :: bs) = crc24 (as ++ y :: bs) ↔ x = y := by
  rw [crc24_append, crc24_append]
  exact (foldl_injective crcStep_injective (bs ++ [0, 0, 0])).eq_iff.trans (crcStep_byte_injective _).eq_iff

theorem crc24_set_inj {f : List Byte} {i : Nat} (hi : i < f.length) {x y : Byte} :
    crc24 (f.set i x) = crc24 (f.set i y) ↔ x = y := by
  rw [List.set_eq_take_append_cons_drop, List.set_eq_take_append_cons_drop, if_pos hi, if_pos hi, crc24_append_cons_inj]

/-- An error in one byte changes the CRC (R199). -/
theorem crc24_set_xor_ne {f : List Byte} {i : Nat} (hi : i < f.length) {e : Byte} (he : e ≠ 0) :
    crc24 (f.set i (f[i] ^^^ e)) ≠ crc24 f := by
  conv_rhs => rw [← List.set_getElem_self hi]
  exact mt (crc24_set_inj hi).1 fun h => he (by simpa using h)

/-- The three bytes of `p`, most significant first, put `p` into an empty register. -/
theorem foldl_crcStep_parity (p : Crc) :
    [p.extractLsb' 16 8, p.extractLsb' 8 8, p.extractLsb' 0 8].foldl crcStep 0 = p := by
  rw [crcStep_eq]
  refine BitVec.eq_of_toNat_eq ((toNat_foldl_crcByteBits _ (k := 0) (by simp) (by decide)).trans ?_)
  have hp := p.isLt
  simp only [List.foldl_cons, List.foldl_nil, BitVec.extractLsb'_toNat, Nat.shiftRight_eq_div_pow, BitVec.toNat_ofNat,
    BitVec.ofNat_eq_ofNat]
  omega

/-- Settles O41: the parity bytes leave what the flush would leave, which is the CRC, plus the CRC itself, which is an
empty register. -/
theorem appendedParityGivesZero : Obligations.AppendedParityGivesZero := by
  intro bs
  generalize hp : crc24 bs = p
  have hflush : [0, 0, 0].foldl crcStep (bs.foldl crcStep 0) = p := by rw [← hp, crc24, List.foldl_append]
  have hparity : [p.extractLsb' 16 8, p.extractLsb' 8 8, p.extractLsb' 0 8].foldl crcStep (bs.foldl crcStep 0) = 0 := by
    have hlin := foldl_zipWith_xor crcStep_xor [0, 0, 0] [p.extractLsb' 16 8, p.extractLsb' 8 8, p.extractLsb' 0 8]
      (bs.foldl crcStep 0) 0 rfl
    rw [hflush, foldl_crcStep_parity, BitVec.xor_self] at hlin
    simpa using hlin
  rw [crc24_append, List.foldl_append, hparity]
  rfl

/-- Settles O42: each step is linear; a flipped bit is an error in one byte, and the steps after it lose nothing. -/
theorem singleBitErrorsDetected : Obligations.SingleBitErrorsDetected := by
  refine ⟨crc24_zipWith_xor, fun f k hf h0 hk => ?_, by decide +kernel⟩
  have hi : k / 8 < f.length := by omega
  have hbit : BitVec.twoPow 8 (7 - k % 8) ≠ 0 := by
    refine ne_of_apply_ne BitVec.toNat ?_
    rw [BitVec.toNat_twoPow_of_lt (by omega)]
    exact (Nat.two_pow_pos _).ne'
  rw [List.getD_eq_getElem _ _ hi, ← h0]
  exact crc24_set_xor_ne hi hbit

/-! The commands (R196, R197). -/

/-- Settles O38: the table check, and CRC_TAB reads the entry of its index. -/
theorem crcTableIsBitwiseCrc : Obligations.CrcTableIsBitwiseCrc := by
  refine ⟨crcEntry_eq_crcBits, fun s n h => ?_, fun s n h => ?_⟩
  · simp only [exec, execCrcTab]
    rw [if_neg (by omega), Flow.close_ok, State.finish_ok, crcEntry_eq_crcBits]
  · simp only [exec, execCrcTab]
    rw [if_pos h, Flow.close_ended, State.finish_zero]

theorem Memory.readList_eq_map (m : Memory) (a n : Nat) :
    m.readList a n = (List.range n).map fun j => m.read (a + j) := by
  refine List.ext_getElem (by simp) fun j h1 h2 => ?_
  rw [Memory.getElem_readList, List.getElem_map, List.getElem_range]

/-- Settles O40: outside [0, 256] there is no range, and a CRC fits the result. -/
theorem crcBufReturnsCrc : Obligations.CrcBufReturnsCrc := by
  intro s lo hi
  simp only [exec, execCrcBuf]
  refine ⟨fun h => ?_, fun h0 hle h256 => ?_⟩
  · rw [bbRange_outside h]
    exact congrArg _ (State.finish_zero s .outOfRange)
  · rw [bbRange_inside h0 hle h256, ← Memory.readList_eq_map]
    exact ⟨_, rfl, BitVec.toNat_setWidth_of_le (by decide)⟩

end Sys2Proof.Machine

/-! The sample decoder (R210 to R214): SD_NEXT and PC_NEXT by the outcome of the read they begin with. -/

namespace Sys2Proof.Machine

/-- A sample is a raw value of 12 bits less 2048, so it fits 12 bits signed (R210). -/
theorem toInt_pairSample (b0 b1 : Byte) :
    (pairSample b0 b1).toInt = (b1.toNat % 16 : Nat) * 256 + (b0.toNat : Int) - 2048 := by
  have h0 := b0.isLt
  unfold pairSample
  rw [BitVec.toInt_ofInt, Int.bmod_eq_of_le (by omega) (by omega)]
  omega

/-- The status of a command whose read gives no value: its own, or EOS where the read ends with none (R214, R234). -/
def Status.orEos (st : Status) : Status := if st = .ok then .eos else st

/-- A read that stops ends the command: with EOS where the rest of the command does so at `End`, else with the failure. -/
theorem Flow.close_stop_bind {α : Type} (st : Status) (t : State) {f : Option α → State → Flow Word64}
    (hf : f none t = .ended .eos t) : ((Flow.stop st none t).bind f).close = .next (t.finish st.orEos 0) := by
  unfold Status.orEos
  rw [Flow.stop_bind, hf]
  split
  · rfl
  · rfl

section

variable {s t : State} {st : Status}

theorem execSdNext_sample (ht : s.tap = .samples) (hf : s.fatal = false) {v : Sample}
    (h : readSample s = .ok (some v) t) : execSdNext s = .next (t.finish .ok (v.signExtend 64)) := by
  unfold execSdNext
  rw [streamUnit_open _ (by simp [ht, Tap.allows]) hf, h, Flow.bind_ok, Flow.close_ok]

theorem execSdNext_stop (ht : s.tap = .samples) (hf : s.fatal = false)
    (h : readSample s = Flow.stop st none t) : execSdNext s = .next (t.finish st.orEos 0) := by
  unfold execSdNext
  rw [streamUnit_open _ (by simp [ht, Tap.allows]) hf, h]
  exact Flow.close_stop_bind st t rfl

theorem execPcNext_stop (ht : s.tap = .power) (hf : s.fatal = false)
    (h : powerStep s = Flow.stop st none t) : execPcNext s = .next (t.finish st.orEos 0) := by
  unfold execPcNext
  rw [streamUnit_open _ (by simp [ht, Tap.allows]) hf, h]
  exact Flow.close_stop_bind st t rfl

/-- At end of stream SD_NEXT sets EOF_SEEN; a lone byte before it is counted and dropped (R211, R214). -/
theorem execSdNext_eof (ht : s.tap = .samples) (hf : s.fatal = false) (he : s.eofSeen = false) {bs : List Byte}
    {es : List PortEvent} (hp : s.port.ahead = bs.map .byte ++ .eof :: es) (hl : bs.length < 2) :
    execSdNext s = .next
      { s with
        res := 0, lastSt := .eos, eofSeen := true, bytesIn := s.bytesIn + BitVec.ofNat 64 bs.length,
        port := { s.port with ahead := es, taken := s.port.taken + (bs.length + 1) } } :=
  execSdNext_stop ht hf (readSample_stop (e := .eof) he hp hl trivial)

end

/-- Where a failure stops a read, FATAL and its cause are raised and EOF_SEEN stays clear (R211, R212, R356). -/
theorem StreamEnd.reached_failure {e : StreamEnd} (he : e ≠ .eof) {s : State} (hs : s.eofSeen = false) (n : Nat)
    (es : List PortEvent) :
    e.reached n es s =
      { s with
        fatal := true, fatalCause := e.status, bytesIn := s.bytesIn + BitVec.ofNat 64 (n + e.bytes),
        port := { s.port with ahead := es, taken := s.port.taken + (n + e.events.length) } } := by
  cases e with
  | eof => exact absurd rfl he
  | ioerr => simp [StreamEnd.reached, StreamEnd.status, hs]
  | range b0 b1 => simp [StreamEnd.reached, StreamEnd.status, hs]

theorem StreamEnd.orEos_status {e : StreamEnd} (he : e ≠ .eof) : e.status.orEos = e.status := by
  cases e with
  | eof => exact absurd rfl he
  | ioerr => rfl
  | range b0 b1 => rfl

/-- Settles O17: the read returns the pair's sample, and sign extension keeps its value. -/
theorem sdNextReturnsCentredSample : Obligations.SdNextReturnsCentredSample := by
  intro s b0 b1 es ht hf he hp hn
  refine ⟨(pairSample b0 b1).signExtend 64, execSdNext_sample ht hf (readSample_pair he hp hn), ?_⟩
  rw [BitVec.toInt_signExtend_of_le (by decide), toInt_pairSample]

/-- Settles O18: `End` before the read, or end of stream after none or one of its bytes. -/
theorem sdNextEndsAtEndOfStream : Obligations.SdNextEndsAtEndOfStream := by
  intro s ht hf
  refine ⟨fun he => ?_, fun es he hp => ?_, fun b es he hp => ?_⟩
  · exact execSdNext_stop (st := .ok) ht hf (readSample_ended he)
  · simpa [exec] using execSdNext_eof (bs := []) ht hf he hp (by simp)
  · exact execSdNext_eof (bs := [b]) ht hf he hp (by simp)

/-- Settles O19: a failure stops the sample read, or the power step before it writes the history. -/
theorem failedSampleReadIsFatal : Obligations.FailedSampleReadIsFatal := by
  intro s bs e es hf he hc hne hfol hp i hi
  have hx : exec i s = .next ((e.reached bs.length es s).finish e.status.orEos 0) := by
    rcases hi with ⟨rfl, ht, hl⟩ | ⟨rfl, ht, hl⟩
    · exact execSdNext_stop ht hf (readSample_stop he hp hl hfol)
    · exact execPcNext_stop ht hf (powerStep_stop he hp hl hc hfol)
  rw [hx, StreamEnd.orEos_status hne, StreamEnd.reached_failure hne he, State.finish_zero]

end Sys2Proof.Machine

/-! The power computer (R230 to R235): PC_NEXT by the outcome of its power step, and the bounds of a power sample. -/

namespace Sys2Proof.Machine

theorem execPcNext_power {s t : State} (ht : s.tap = .power) (hf : s.fatal = false) {p : Power}
    (h : powerStep s = .ok (some p) t) : execPcNext s = .next (t.finish .ok (p.setWidth 64)) := by
  unfold execPcNext
  rw [streamUnit_open _ (by simp [ht, Tap.allows]) hf, h, Flow.bind_ok, Flow.close_ok]

/-- A sample of a pair's value is the pair's sample (R210). -/
theorem eq_pairSample {r : Sample} {b0 b1 : Byte}
    (h : r.toInt = (b1.toNat % 16 : Nat) * 256 + (b0.toNat : Int) - 2048) : r = pairSample b0 b1 :=
  BitVec.eq_of_toInt_eq (h.trans (toInt_pairSample b0 b1).symm)

theorem oddBracket_shiftIn (h : Vector Sample 8) (r0 r1 : Sample) :
    oddBracket (shiftIn h r0 r1) = r1.toInt - h[7].toInt + h[5].toInt - h[3].toInt := rfl

theorem evenBracket_shiftIn (h : Vector Sample 8) (r0 r1 : Sample) :
    evenBracket (shiftIn h r0 r1) = r0.toInt - h[6].toInt + h[4].toInt - h[2].toInt := rfl

/-- A power sample is zero-extended into the result, which keeps its exact value (R231, R234). -/
theorem powerOf_shiftIn_setWidth_toNat (h : Vector Sample 8) (r0 r1 : Sample) :
    (((powerOf (shiftIn h r0 r1)).setWidth 64).toNat : Int) =
      (r1.toInt - h[7].toInt + h[5].toInt - h[3].toInt) ^ 2
        + (r0.toInt - h[6].toInt + h[4].toInt - h[2].toInt) ^ 2 := by
  rw [BitVec.toNat_setWidth_of_le (by decide), powerOf_toNat, oddBracket_shiftIn, evenBracket_shiftIn]

/-- A bracket of four samples is at most 8190 in magnitude (R235). -/
theorem abs_bracket_le (a b c d : Sample) : |a.toInt - b.toInt + c.toInt - d.toInt| ≤ 8190 :=
  abs_le_of_sq_le_sq (bracket_sq_le (sample_range a) (sample_range b) (sample_range c) (sample_range d)) (by decide)

/-- Settles O21: the step over two legal pairs moves the history on, and the result holds its power exactly. -/
theorem pcNextReturnsPower : Obligations.PcNextReturnsPower := by
  intro s b0 b1 b2 b3 es r0 r1 ht hf he hp hn hr0 hr1
  have hn1 : b1.toNat < 16 ∨ s.params.nibbleMode = .mask := hn.imp_left And.left
  have hn3 : b3.toNat < 16 ∨ s.params.nibbleMode = .mask := hn.imp_left And.right
  obtain rfl := eq_pairSample hr0
  obtain rfl := eq_pairSample hr1
  exact ⟨_, execPcNext_power ht hf (powerStep_quad he hp hn1 hn3), powerOf_shiftIn_setWidth_toNat s.hist _ _⟩

/-- Settles O22: `End` stops the power step before it reads, or before it writes the history. -/
theorem pcNextShortPairEnds : Obligations.PcNextShortPairEnds := by
  intro s ht hf
  refine ⟨fun he => ?_, fun bs es he hl hc hp => ?_⟩
  · exact execPcNext_stop (st := .ok) ht hf (powerStep_ended he)
  · exact execPcNext_stop ht hf (powerStep_stop (e := .eof) he hp hl hc trivial)

/-- Settles O23: the bounds follow from the range of a sample, and the two extreme histories are evaluated. -/
theorem powerSampleRange : Obligations.PowerSampleRange := by
  refine ⟨fun h => ⟨powerOf_le h, powerOf_toNat h, ?_, ?_⟩, ?_, ?_⟩
  · exact abs_bracket_le h[7] h[5] h[3] h[1]
  · exact abs_bracket_le h[6] h[4] h[2] h[0]
  · decide
  · decide

end Sys2Proof.Machine

/-! What the window step and the detector's rounds keep, packaged once; the window invariants (a) and (b) of R262, and what
they give (45_power_window.md R254, R262). -/

namespace Sys2Proof.Machine

open Sys2Proof.Config

/-! A property of the window under WINDOW and FRAMES: what keeps it under every command but INIT. -/

/-- A property of the states under WINDOW and FRAMES that every move of the window keeps: under WINDOW a window step, under
FRAMES a round of DM_NEXT as a whole, since only then do the detector's sums belong to the window again (R253, R289). -/
structure WindowKeeps (P : State → Prop) : Prop extends BesideKeeps P where
  off : ∀ s, ¬ s.onWindow → P s
  adv : ∀ s t, s.tap = .window → P s → (wstep s).Leaves t → P t
  load : ∀ s, s.tap = .frames → isFull s = true → P s → P (loadCur s)
  frame : ∀ s t, s.tap = .frames → accepted s = true → P s → (takeFrame s).Leaves t → P t
  round : ∀ s t, s.tap = .frames → isFull s = true → s.curValid = true → P s → wstep s = .ok () t →
    P (shiftSums s.curSum (peakSum s 1) t)
  failed : ∀ s t st, s.tap = .frames → P s → wstep s = .ended st t → P t

section

variable {P : State → Prop} {i : Instr} {s t : State}

/-- What one window step keeps, a run of them keeps. -/
theorem wsteps_keeps_of_wstep (h : ∀ s t, P s → (wstep s).Leaves t → P t) {n : Nat} (hs : P s)
    (hl : (wsteps n s).Leaves t) : P t := by
  induction n generalizing s with
  | zero => exact hl ▸ hs
  | succ n ih =>
    simp only [wsteps] at hl
    cases hw : wstep s with
    | stuck why => simp [hw] at hl
    | ended st s1 => exact h s t hs (by simpa [hw] using hl)
    | ok u s1 =>
      simp only [hw] at hl
      exact ih (h s s1 hs (by rw [hw]; rfl)) hl

/-- A part that only hands on a value leaves what it left. -/
theorem Flow.leaves_of_bind_ok {α β : Type} {x : Flow α} {b : β} (h : (x.bind fun _ s => .ok b s).Leaves t) :
    x.Leaves t := by
  cases x with
  | ok a u => exact h
  | ended st u => exact h
  | stuck why => exact h

/-- Only WINDOW allows the commands that move the window (R34). -/
theorem Tap.eq_window_of_allows {tp : Tap} {o : Op} (ho : o = .pwAdv ∨ o = .pwAdvn) (h : tp.allows o = true) :
    tp = .window := by
  rcases ho with rfl | rfl <;> cases tp <;> simp [Tap.allows] at h ⊢

theorem wstep_tap (hl : (wstep s).Leaves t) : t.tap = s.tap :=
  (wstep_keeps (sameTap_scanKeeps s).toStepKeeps (.refl s) hl).tap

theorem wsteps_keepsWindow (h : WindowKeeps P) {n : Nat} (ht : s.tap = .window) (hs : P s)
    (hl : (wsteps n s).Leaves t) : P t := by
  have hstep : ∀ s t, s.tap = .window ∧ P s → (wstep s).Leaves t → t.tap = .window ∧ P t := fun s t hs hl =>
    ⟨(wstep_tap hl).trans hs.1, h.adv s t hs.1 hs.2 hl⟩
  exact (wsteps_keeps_of_wstep hstep ⟨ht, hs⟩ hl).2

theorem scan_keepsWindow (h : WindowKeeps P) {n : Nat} (ht : s.tap = .frames) (hs : P s) (hl : (scan n s).Leaves t) :
    P t := by
  induction n generalizing s with
  | zero => exact leaves_endScan hl ▸ hs
  | succ n ih =>
    simp only [scan] at hl
    split at hl
    · exact leaves_endScan hl ▸ hs
    · next hfull =>
      have hfull : isFull s = true := by simpa using hfull
      have htap : (loadCur s).tap = .frames := by simpa using ht
      have hload := h.load s ht hfull hs
      split at hl
      · next hit =>
        rw [Bool.and_eq_true] at hit
        exact h.frame _ _ htap hit.2 hload hl
      · cases hw : wstep (loadCur s) with
        | stuck why => simp [hw] at hl
        | ended st s1 =>
          simp only [hw] at hl
          exact leaves_endScan hl ▸ h.failed _ _ st htap hload hw
        | ok u s1 =>
          simp only [hw] at hl
          have htap1 : s1.tap = .frames := (wstep_tap (by rw [hw]; rfl)).trans htap
          have hround := h.round _ _ htap (by simpa [isFull] using hfull) (loadCur_curValid s) hload hw
          exact ih (s := shiftSums _ _ s1) htap1 hround hl

/-- What every move of the window keeps, every command but INIT keeps: the sample reads are turned away under WINDOW and
FRAMES (R34). -/
theorem exec_keepsWindow (h : WindowKeeps P) (hi : ∀ tap w, i ≠ .init tap w) (hs : P s) (hx : exec i s = .next t) :
    P t := by
  by_cases hon : s.onWindow
  · by_cases hr : Instr.reads i = true
    · exact exec_keeps_of_reads h.toBesideKeeps hr hs hx
    · have hoff : ∀ o ∈ [Op.sdNext, Op.pcNext], s.tap.allows o = false := by
        rcases hon with ht | ht <;> rw [ht] <;> decide
      cases i with
      | init tap w => exact absurd rfl (hi tap w)
      | bbWr index imm => exact execBbWr_keeps h.toBesideKeeps hs hx
      | sdNext =>
        rw [exec_wrongTap (by decide) (hoff _ (by decide)), Host.Outcome.next.injEq] at hx
        exact hx ▸ h.finish _ _ _ hs
      | pcNext =>
        rw [exec_wrongTap (by decide) (hoff _ (by decide)), Host.Outcome.next.injEq] at hx
        exact hx ▸ h.finish _ _ _ hs
      | pwAdv =>
        obtain ⟨s1, st, v, hl, rfl⟩ := Flow.close_next hx
        refine h.finish _ _ _ ?_
        rcases streamUnit_leaves hl with rfl | ⟨ha, -, hl⟩
        · exact hs
        · exact h.adv _ _ (Tap.eq_window_of_allows (.inl rfl) ha) hs (Flow.leaves_of_bind_ok hl)
      | pwAdvn n =>
        obtain ⟨s1, st, v, hl, rfl⟩ := Flow.close_next hx
        refine h.finish _ _ _ ?_
        rcases streamUnit_leaves hl with rfl | ⟨ha, -, hl⟩
        · exact hs
        · split at hl
          · exact hl ▸ hs
          · exact wsteps_keepsWindow h (Tap.eq_window_of_allows (.inr rfl) ha) hs (Flow.leaves_of_bind_ok hl)
      | dmNext =>
        obtain ⟨s1, st, v, hl, rfl⟩ := Flow.close_next hx
        refine h.finish _ _ _ ?_
        rcases streamUnit_leaves hl with rfl | ⟨ha, -, hl⟩
        · exact hs
        · have ht : s.tap = .frames := by
            rcases hon with ht | ht
            · simp [ht, Tap.allows] at ha
            · exact ht
          exact scan_keepsWindow h ht hs hl
      | _ => exact absurd rfl hr
  · refine h.off t ?_
    unfold State.onWindow at hon ⊢
    rwa [(exec_sameTap hi hx).tap]

/-! `LE` (R252, R262). -/

/-- `LE` has grown by at most `n`, and by `n` unless the end of the stream has been seen. -/
def LoadedBy (n : Nat) (s t : State) : Prop :=
  t.le.toNat ≤ s.le.toNat + n ∧ (t.eofSeen = false → s.eofSeen = false ∧ t.le.toNat = s.le.toNat + n)

theorem LoadedBy.trans {m n : Nat} {u : State} (h : LoadedBy m s t) (h' : LoadedBy n t u) : LoadedBy (m + n) s u := by
  obtain ⟨hle, hall⟩ := h
  obtain ⟨hle', hall'⟩ := h'
  refine ⟨by omega, fun hu => ?_⟩
  obtain ⟨ht, heq'⟩ := hall' hu
  obtain ⟨hs, heq⟩ := hall ht
  exact ⟨hs, by omega⟩

/-- A store moves `LE` on by one, below its limit (R252; log 5). -/
theorem loadedBy_storeSlot (b : Bool) (p : Power) (h : s.le.toNat + 1 < 2 ^ 64) : LoadedBy 1 s (storeSlot b p s) := by
  have hlimit : s.le ≠ BitVec.allOnes 64 := fun heq => by simp [heq] at h
  have hle : (storeSlot b p s).le.toNat = s.le.toNat + 1 := by
    rw [storeSlot_le, leNext, if_neg hlimit]
    bv_omega
  exact ⟨hle.le, fun he => ⟨by simpa using he, hle⟩⟩

/-- A fill that goes on stores all its slots, or has seen the end of the stream. -/
theorem fillSlots_loadedBy {n : Nat} {b : Bool} {u : Unit} (h : fillSlots n b s = .ok u t)
    (hl : s.le.toNat + n < 2 ^ 64) : LoadedBy n s t := by
  induction n generalizing s with
  | zero =>
    simp only [fillSlots, Flow.ok.injEq] at h
    obtain ⟨-, rfl⟩ := h
    exact ⟨le_rfl, fun he => ⟨he, rfl⟩⟩
  | succ n ih =>
    simp only [fillSlots] at h
    cases hp : powerStep s with
    | stuck why => simp [hp] at h
    | ended st s1 => simp [hp] at h
    | ok r s1 =>
      simp only [hp] at h
      rcases powerStep_taken hp with ⟨he, rfl, rfl⟩ | ⟨b0, b1, b2, b3, p, -, rfl, rfl, he⟩ | ⟨bs, p, -, -, rfl, rfl, -⟩
      · simp only [Flow.ok.injEq] at h
        obtain ⟨-, rfl⟩ := h
        exact ⟨by omega, fun hf => by simp [he] at hf⟩
      · have hstore := loadedBy_storeSlot (s := { s with
            bytesIn := s.bytesIn + 4, hist := shiftIn s.hist (pairSample b0 b1) (pairSample b2 b3), port := p })
          b (powerOf (shiftIn s.hist (pairSample b0 b1) (pairSample b2 b3))) (by show s.le.toNat + 1 < _; omega)
        have hrest := ih h (by have := hstore.1; dsimp only at this; omega)
        rw [Nat.add_comm]
        exact hstore.trans hrest
      · simp only [Flow.ok.injEq] at h
        obtain ⟨-, rfl⟩ := h
        exact ⟨by dsimp only; omega, fun hf => by simp at hf⟩

theorem fill_loadedBy {b : Bool} {u : Unit} (h : fill b s = .ok u t) (hl : s.le.toNat + 65536 < 2 ^ 64) :
    LoadedBy 65536 s t := by
  have hfill := fillSlots_loadedBy h (by simpa [pwBatch] using hl)
  unfold LoadedBy at hfill ⊢
  simpa [pwBatch] using hfill

/-! The window invariants (a) and (b) of R262 (log 5). -/

/-- Everything a window step can leave: what it had, `POS` being at its end; a fatal status; or what it goes on with. -/
theorem wstep_leaves (hl : (wstep s).Leaves t) : t = s ∨ t.fatal = true ∨ wstep s = .ok () t := by
  cases hw : wstep s with
  | stuck why => simp [hw] at hl
  | ended st u =>
    obtain rfl : u = t := by simpa [hw] using hl
    rcases wstep_ended hw with ⟨-, hs⟩ | ⟨hf, -, -⟩
    · exact .inl hs
    · exact .inr (.inl hf)
  | ok v u =>
    obtain rfl : u = t := by simpa [hw] using hl
    exact .inr (.inr rfl)

/-- A window step moves `BASE` on by a buffer at a boundary and nowhere else (R251, R253). -/
theorem wstep_base {u : Unit} (h : wstep s = .ok u t) :
    t.base = if s.pos.toNat % 65536 = 65535 then s.base + 65536 else s.base := by
  have hpos := wstep_ok_pos h
  simp only [State.base, pwBatch]
  split <;> omega

theorem leFits_of_wstep {u : Unit} (h : wstep s = .ok u t) (hfit : t.leFits = true) : s.leFits = true := by
  have hbase := wstep_base h
  rw [State.leFits_iff] at hfit ⊢
  split at hbase <;> omega

theorem loadedEnd_wstep {u : Unit} (hs : s.loadedEnd) (h : wstep s = .ok u t) (hfit : t.leFits = true) : t.loadedEnd := by
  have hbase := wstep_base h
  rw [State.leFits_iff] at hfit
  obtain ⟨hle, hall⟩ := hs
  by_cases hb : s.pos.toNat % 65536 = 65535
  · rw [if_pos hb] at hbase
    rw [wstep_boundary hb (wstep_ok h).1] at h
    obtain ⟨hle', hall'⟩ := fill_loadedBy h (by dsimp only; omega)
    dsimp only at hle' hall'
    refine ⟨by omega, fun he => ?_⟩
    obtain ⟨hes, heq⟩ := hall' he
    have := hall hes
    omega
  · rw [if_neg hb] at hbase
    rw [wstep_inside (by omega), Flow.ok.injEq] at h
    have hle' : t.le = s.le := by rw [← h.2]
    have he' : t.eofSeen = s.eofSeen := by rw [← h.2]
    unfold State.loadedEnd
    rw [hle', he', hbase]
    exact ⟨hle, hall⟩

/-- The invariants after a window step, however it ends. -/
theorem windowInv_wstep (hs : s.WindowInv) (hl : (wstep s).Leaves t) : t.WindowInv := by
  rcases wstep_leaves hl with rfl | hf | h
  · exact hs
  · intro _ hf'
    simp [hf] at hf'
  · intro ht hf hfit
    have hframe := (wstep_ok h).2
    rw [hframe] at ht hf
    exact loadedEnd_wstep (hs ht hf (leFits_of_wstep h hfit)) h hfit

theorem windowInv_loadCur (h : s.WindowInv) : (loadCur s).WindowInv := by
  unfold loadCur
  split
  · exact h
  · exact h

theorem windowInv_takeFrame (h : s.WindowInv) (hl : (takeFrame s).Leaves t) : t.WindowInv := by
  have hskip : ∀ u, (wsteps s.params.frameSkip.toNat (deliver s)).Leaves u → u.WindowInv := fun u hu =>
    wsteps_keeps_of_wstep (s := deliver s) (fun _ _ => windowInv_wstep) h hu
  unfold takeFrame at hl
  split at hl
  · exact hl ▸ h
  · rcases Flow.leaves_bind hl with ⟨st, he⟩ | ⟨u, s1, h1, hl⟩
    · exact hskip t (by rw [he]; rfl)
    · exact hl ▸ hskip s1 (by rw [h1]; rfl)

theorem windowInv_keeps : WindowKeeps State.WindowInv where
  finish := fun _ _ _ h => h
  write := fun s a b _ h => by unfold clearFrameValidBelow; split <;> exact h
  off := fun _ hoff hon => absurd hon hoff
  adv := fun _ _ _ h hl => windowInv_wstep h hl
  load := fun _ _ _ h => windowInv_loadCur h
  frame := fun _ _ _ _ h hl => windowInv_takeFrame h hl
  round := fun _ t _ _ _ h hw => windowInv_wstep (t := t) h (by rw [hw]; rfl)
  failed := fun _ _ _ _ h hw => windowInv_wstep h (by rw [hw]; rfl)

/-- INIT's two fills from a cleared chain: a fatal status, or each fill went on from what the one before it left. -/
theorem fillInitial_leaves (hl : (fillInitial s).Leaves t) :
    t.fatal = true ∨ ∃ s1, fill false s = .ok () s1 ∧ fill true s1 = .ok () t := by
  have hfill : ∀ b s, (fill b s).Leaves t → t.fatal = true ∨ fill b s = .ok () t := by
    intro b s hl
    cases hx : fill b s with
    | stuck why => simp [hx] at hl
    | ended st u =>
      obtain rfl : u = t := by simpa [hx] using hl
      exact .inl (fillSlots_ended_fatal hx).1
    | ok v u =>
      obtain rfl : u = t := by simpa [hx] using hl
      exact .inr rfl
  rcases Flow.leaves_bind hl with ⟨st, he⟩ | ⟨u, s1, h1, hl⟩
  · exact .inl (fillSlots_ended_fatal he).1
  · exact (hfill true s1 hl).imp_right fun h2 => ⟨s1, h1, h2⟩

/-- Under WINDOW and FRAMES INIT runs its two fills; under every other TAP it fills nothing (R141). -/
theorem initFill_leaves {tp : Tap} (hl : (initFill tp s).Leaves t) :
    (tp ≠ .window ∧ tp ≠ .frames ∧ t = s) ∨ t.fatal = true ∨
      ∃ s1, fill false s = .ok () s1 ∧ fill true s1 = .ok () t := by
  cases tp with
  | idle => exact .inl ⟨by decide, by decide, hl.symm⟩
  | samples => exact .inl ⟨by decide, by decide, hl.symm⟩
  | power => exact .inl ⟨by decide, by decide, hl.symm⟩
  | window => exact .inr (fillInitial_leaves hl)
  | frames => exact .inr (fillInitial_leaves hl)

/-- INIT's two fills load both buffers from position 0 (R252, R262). -/
theorem loadedEnd_fills {s1 : State} (hle : s.le = 0) (hpos : s.pos = 0) (h1 : fill false s = .ok () s1)
    (h2 : fill true s1 = .ok () t) : t.loadedEnd := by
  have hone := fill_loadedBy h1 (by simp [hle])
  have hframe := (fill_keeps (filledFrom_keeps s1) (.refl s1) (b := true) (t := t) (by rw [h2]; rfl))
  have hframe1 := (fill_keeps (filledFrom_keeps s) (.refl s) (b := false) (t := s1) (by rw [h1]; rfl))
  have hpos2 : t.pos = 0 := by rw [hframe, hframe1]; exact hpos
  have hle0 : s.le.toNat = 0 := by simp [hle]
  obtain ⟨hle2, hall⟩ := hone.trans (fill_loadedBy h2 (by have := hone.1; omega))
  have hbase : t.base = 0 := by simp [State.base, hpos2]
  exact ⟨by omega, fun he => by have := hall he; omega⟩

theorem windowInv_execInit {tap : Nat} {w : Int} (h : s.WindowInv) (hx : execInit tap w s = .next t) :
    t.WindowInv := by
  obtain ⟨s', st, v, rfl, rfl | ⟨tp, -, hl⟩⟩ := execInit_next hx
  · exact h
  · intro hon hf hfit
    rcases initFill_leaves hl with ⟨hw, hfr, rfl⟩ | hfat | ⟨s1, h1, h2⟩
    · exact absurd hon (by simp [hw, hfr])
    · simp [hfat] at hf
    · exact loadedEnd_fills (t := s') rfl rfl h1 h2

theorem exec_windowInv (h : s.WindowInv) (hx : exec i s = .next t) : t.WindowInv := by
  by_cases hi : ∀ tap w, i ≠ .init tap w
  · exact exec_keepsWindow windowInv_keeps hi h hx
  · push Not at hi
    obtain ⟨tap, w, rfl⟩ := hi
    exact windowInv_execInit h hx

end

/-- Settles O29: a boundary moves `BASE` and `LE` on by one buffer unless the stream has ended, INIT loads two buffers, and
nothing else moves either. -/
theorem windowInvariantKept : Obligations.WindowInvariantKept := by
  intro s t h hx
  obtain ⟨q, ⟨lost, rfl⟩ | ⟨i, he⟩ | ⟨e, rfl⟩⟩ := step_next hx
  · intro hon
    simp [assertReset, State.reset] at hon
  · exact exec_windowInv (s := { s with queue := q }) h he
  · exact h

end Sys2Proof.Machine

/-! The window on the power stream: what a fill stores is the power stream of the bytes it took, and what a window step, the
detector and INIT make of it (45_power_window.md R250 to R253, R262 (c); 70_reset_and_hazards.md R396). -/

namespace Sys2Proof.Machine

open Sys2Proof.Config

section

variable {s t u : State} {bs ds : List Byte}

/-! The bytes taken (R211, R232, R252). -/

/-- The power stream and the history after it, from the cleared history. -/
theorem streamPowers_append (h : bs.length % 4 = 0) : streamPowers (bs ++ ds) =
    streamPowers bs ++ samplePowers (historyAfter #v[0, 0, 0, 0, 0, 0, 0, 0] (streamSamples bs)) (streamSamples ds) := by
  unfold streamPowers
  rw [streamSamples_append (by omega), samplePowers_append (n := bs.length / 4) _ _ _ (by rw [length_streamSamples]; omega)]

/-- More bytes leave the power samples that are there. -/
theorem streamPowers_append_getElem? (h : bs.length % 4 = 0 ∨ ds = []) {x : Nat} (hx : x < bs.length / 4) :
    (streamPowers (bs ++ ds))[x]? = (streamPowers bs)[x]? := by
  rcases h with h | rfl
  · rw [streamPowers_append h, List.getElem?_append_left (by rwa [length_streamPowers])]
  · rw [List.append_nil]

/-- The sample chain stands where the bytes `bs`, all that were taken since INIT, have brought it (R36, R211, R252). -/
structure State.FedBy (s : State) (bs : List Byte) : Prop where
  bytesIn : s.bytesIn = BitVec.ofNat 64 bs.length
  legal : legalBytes s.params.nibbleMode bs = true
  even : s.eofSeen = false → bs.length % 4 = 0
  hist : s.hist = historyAfter #v[0, 0, 0, 0, 0, 0, 0, 0] (streamSamples bs)
  le : s.le.toNat = bs.length / 4

/-- Whole power samples so far, or none to come. -/
theorem State.FedBy.whole_or_nil (h : s.FedBy bs) {c n : Nat} {b : Bool} (ht : Took c b n ds s t) :
    bs.length % 4 = 0 ∨ ds = [] := by
  cases he : s.eofSeen with
  | false => exact .inl (h.even he)
  | true => exact .inr (ht.ended he).1

/-- A fill feeds the chain the bytes it took. -/
theorem State.FedBy.took (h : s.FedBy bs) {b : Bool} (ht : Took 0 b 65536 ds s t) : t.FedBy (bs ++ ds) := by
  have hparams : t.params = s.params := ht.frame.params
  have hle := ht.le
  have hsle := h.le
  rcases h.whole_or_nil ht with h4 | rfl
  · refine ⟨?_, ?_, fun he => ?_, ?_, ?_⟩
    · rw [ht.bytesIn, h.bytesIn, List.length_append, BitVec.ofNat_add]
    · rw [hparams]
      exact legalBytes_append (by omega) h.legal ht.legal
    · rw [List.length_append, ht.whole he]
      omega
    · rw [ht.hist, h.hist, streamSamples_append (by omega),
        historyAfter_append (n := bs.length / 4) _ _ _ (by rw [length_streamSamples]; omega)]
    · rw [List.length_append]
      omega
  · rw [List.append_nil]
    refine ⟨?_, by rw [hparams]; exact h.legal, fun he => ?_, ?_, by simpa [h.le] using hle⟩
    · simpa [h.bytesIn] using ht.bytesIn
    · simpa using ht.whole he
    · simpa [streamSamples, historyAfter, h.hist] using ht.hist

/-- The slots a fill has stored are the next power samples of the stream (R250, R252). -/
theorem State.FedBy.took_slots (h : s.FedBy bs) {b : Bool} (ht : Took 0 b 65536 ds s t) {k : Nat}
    (hk : s.le.toNat + k < t.le.toNat) :
    (streamPowers (bs ++ ds))[s.le.toNat + k]? = some ((bufOf t b).get k) := by
  have hle := ht.le
  have hmost := ht.most
  rcases h.whole_or_nil ht with h4 | rfl
  · have hlen : (samplePowers s.hist (streamSamples ds)).length = ds.length / 4 := by
      rw [length_samplePowers, length_streamSamples]; omega
    rw [ht.slots k (by omega), if_pos (by omega), streamPowers_append h4, ← h.hist, h.le,
      List.getElem?_append_right (by rw [length_streamPowers]; omega), length_streamPowers, Nat.add_sub_cancel_left,
      Nat.sub_zero, List.getD_eq_getElem?_getD, List.getElem?_eq_getElem (by omega), Option.getD_some]
  · simp at hle
    omega

/-- Where a fill starts from `full` power samples unless the stream has ended, those loaded after it are the ones loaded
before it, with the stream's bytes before them unchanged, and from `full` on the slots it has stored. -/
theorem State.FedBy.took_getElem? (h : s.FedBy bs) {b : Bool} (ht : Took 0 b 65536 ds s t) {full : Nat}
    (hfull : s.eofSeen = false → s.le.toNat = full) {x : Nat} (hx : x < t.le.toNat) :
    (x < s.le.toNat ∧ (streamPowers (bs ++ ds))[x]? = (streamPowers bs)[x]?) ∨
      ∃ k, x = full + k ∧ (streamPowers (bs ++ ds))[x]? = some ((bufOf t b).get k) := by
  by_cases hxs : x < s.le.toNat
  · exact .inl ⟨hxs, streamPowers_append_getElem? (h.whole_or_nil ht) (by rwa [← h.le])⟩
  · have hle := ht.le
    obtain ⟨k, rfl⟩ : ∃ k, x = s.le.toNat + k := ⟨x - s.le.toNat, by omega⟩
    cases he : s.eofSeen with
    | false => exact .inr ⟨k, by rw [hfull he], h.took_slots ht hx⟩
    | true =>
      simp [(ht.ended he).1] at hle
      omega

/-! Canonical buffers (log 8). -/

theorem State.Sound.canon (h : s.Sound) (b : Bool) : (bufOf s b).canon = true := by
  cases b with
  | false => exact h.buf0
  | true => exact h.buf1

theorem canon_clearChain {tp : Tap} {w : Int} (b : Bool) : (bufOf (clearChain tp w s) b).canon = true := by
  cases b <;> rfl

theorem Took.canon_all {c n : Nat} {b : Bool} (ht : Took c b n ds s t) (h : ∀ b, (bufOf s b).canon = true) (b' : Bool) :
    (bufOf t b').canon = true := by
  by_cases hb : b' = b
  · rw [hb]
    exact ht.canon
  · rw [Bool.eq_not_of_ne hb, ht.bufOther]
    exact h _

/-! The window on its bytes (R251). -/

/-- The slot that the absolute index `x` is mapped to (R251). -/
def State.slotAt (s : State) (x : Nat) : Power :=
  if x < s.base + 65536 then (bufOf s s.sel).get (x - s.base) else (bufOf s (!s.sel)).get (x - s.base - 65536)

/-- The chain and every loaded slot from `BASE` on are the power stream's of `bs`: `State.HoldsStream` without the detector's
sums, for a state in the middle of a command. -/
structure State.Carries (s : State) (bs : List Byte) : Prop where
  canon : ∀ b, (bufOf s b).canon = true
  fed : s.FedBy bs
  slots : ∀ x, s.base ≤ x → x < s.le.toNat → (streamPowers bs)[x]? = some (s.slotAt x)

theorem State.HoldsStream.carries (h : s.HoldsStream bs) (hc : ∀ b, (bufOf s b).canon = true) : s.Carries bs where
  canon := hc
  fed := { h with }
  slots := h.slots

theorem State.Carries.holdsStream (h : s.Carries bs) (hf : s.freshSums bs) : s.HoldsStream bs :=
  { h.fed with slots := h.slots, fresh := hf }

/-- A window read answers with the slot of its absolute index (R251). -/
theorem wread_eq_slotAt (s : State) (i : Nat) : wread s i = s.slotAt (s.pos.toNat + i) := by
  have hbase : s.pos.toNat + i - s.base = s.pos.toNat % 65536 + i := by
    simp only [State.base, pwBatch]; omega
  have hlt : s.pos.toNat % 65536 + i < 65536 ↔ s.pos.toNat + i < s.base + 65536 := by
    simp only [State.base, pwBatch]; omega
  have hread : wread s i = if s.pos.toNat % 65536 + i < 65536 then (bufOf s s.sel).get (s.pos.toNat % 65536 + i)
      else (bufOf s (!s.sel)).get (s.pos.toNat % 65536 + i - 65536) := rfl
  rw [hread, State.slotAt, hbase]
  by_cases hcur : s.pos.toNat % 65536 + i < 65536
  · rw [if_pos hcur, if_pos (hlt.1 hcur)]
  · rw [if_neg hcur, if_neg (mt hlt.2 hcur)]

/-- A window read below `LE` answers with the power stream's sample (R250, R262 (c)). -/
theorem State.Carries.getElem?_wread (h : s.Carries bs) {i : Nat} (hi : s.pos.toNat + i < s.le.toNat) :
    (streamPowers bs)[s.pos.toNat + i]? = some (wread s i) := by
  rw [wread_eq_slotAt]
  exact h.slots _ (by simp only [State.base]; omega) hi

/-- A boundary makes the next buffer current, and the refill gives the bytes after it the old one: where the stream has ended
it stores nothing, and else the next buffer was full (R252, R253). -/
theorem State.Carries.took (h : s.Carries bs) (hend : s.loadedEnd) (hb : s.pos.toNat % 65536 = 65535)
    (hpos : s.pos ≠ BitVec.allOnes 64) (ht : Took 0 s.sel 65536 ds { s with pos := s.pos + 1, sel := !s.sel } t) :
    t.Carries (bs ++ ds) := by
  have hfed : ({ s with pos := s.pos + 1, sel := !s.sel } : State).FedBy bs := { h.fed with }
  have hframe := ht.frame
  have hsel : t.sel = !s.sel := by rw [hframe]
  have htpos : t.pos = s.pos + 1 := by rw [hframe]
  have hne := toNat_ne_allOnes hpos
  have hbase : t.base = s.base + 65536 := by
    simp only [State.base, htpos, pwBatch]
    bv_omega
  have hother : bufOf t (!s.sel) = bufOf s (!s.sel) := ht.bufOther
  refine ⟨ht.canon_all h.canon, hfed.took ht, fun x hx hxle => ?_⟩
  have hmost := hend.1
  unfold State.slotAt
  rw [hsel, Bool.not_not, hbase]
  rcases hfed.took_getElem? ht hend.2 hxle with ⟨hxs, heq⟩ | ⟨k, rfl, heq⟩
  · dsimp only at hxs
    rw [heq, h.slots x (by omega) hxs, if_pos (by omega), hother, State.slotAt, if_neg (by omega), Nat.sub_add_eq]
  · rw [heq, if_neg (by omega), show s.base + 131072 + k - (s.base + 65536) - 65536 = k by omega]

/-- Inside a buffer every absolute index keeps its slot. -/
theorem State.Carries.inside (h : s.Carries bs) (hb : s.pos.toNat % 65536 < 65535) :
    ({ s with pos := s.pos + 1 } : State).Carries bs := by
  have hbase := wstep_base (wstep_inside hb)
  rw [if_neg (by omega)] at hbase
  refine ⟨h.canon, { h.fed with }, fun x hx hxle => ?_⟩
  rw [hbase] at hx
  rw [h.slots x hx hxle]
  unfold State.slotAt
  rw [hbase]
  rfl

/-- A window step that goes on keeps the window on the stream: of the bytes it had and those its refill took. -/
theorem State.Carries.of_wstep (h : s.Carries bs) (hend : s.loadedEnd) (hw : wstep s = .ok () t) (hfit : t.leFits = true) :
    ∃ ds, t.Carries (bs ++ ds) ∧ (bs.length % 4 = 0 ∨ ds = []) := by
  have hpos := (wstep_ok hw).1
  have hbase := wstep_base hw
  rw [State.leFits_iff] at hfit
  have hle := hend.1
  by_cases hb : s.pos.toNat % 65536 = 65535
  · rw [if_pos hb] at hbase
    rw [wstep_boundary hb hpos] at hw
    obtain ⟨ds, ht⟩ := fill_took hw (h.canon s.sel) (by dsimp only; omega)
    have hfed : ({ s with pos := s.pos + 1, sel := !s.sel } : State).FedBy bs := { h.fed with }
    exact ⟨ds, h.took hend hb hpos ht, hfed.whole_or_nil ht⟩
  · rw [wstep_inside (by omega), Flow.ok.injEq] at hw
    refine ⟨[], ?_, .inr rfl⟩
    rw [List.append_nil, ← hw.2]
    exact h.inside (by omega)

/-- INIT's two fills of a cleared chain put the window on the stream of the bytes they took (R141, R252). -/
theorem carries_fills {tp : Tap} {w : Int} {s1 : State} {ds' : List Byte}
    (h1 : Took 0 false 65536 ds (clearChain tp w s) s1) (h2 : Took 0 true 65536 ds' s1 t) : t.Carries (ds ++ ds') := by
  have hlegal : legalBytes s.params.nibbleMode [] = true := by cases s.params.nibbleMode <;> rfl
  have hnil : (clearChain tp w s).FedBy [] := ⟨rfl, hlegal, fun _ => rfl, rfl, rfl⟩
  have hfed1 : s1.FedBy ds := hnil.took h1
  have hpos : t.pos = 0 := by rw [h2.frame, h1.frame]; rfl
  have hsel : t.sel = false := by rw [h2.frame, h1.frame]; rfl
  have hbase : t.base = 0 := by simp [State.base, hpos]
  have hbuf0 : bufOf t false = bufOf s1 false := h2.bufOther
  refine ⟨h2.canon_all (h1.canon_all canon_clearChain), hfed1.took h2, fun x _ hx => ?_⟩
  have hmost := h1.most
  have hle1 : s1.le.toNat = ds.length / 4 := hfed1.le
  unfold State.slotAt
  rw [hsel, hbase, Bool.not_false]
  rcases hfed1.took_getElem? h2 (full := 65536) (fun he => by rw [hle1, h1.whole he]) hx with ⟨hxs, heq⟩ | ⟨k, rfl, heq⟩
  · rcases hnil.took_getElem? h1 (full := 0) (fun _ => rfl) hxs with ⟨hx0, -⟩ | ⟨k, rfl, heq1⟩
    · exact absurd hx0 (Nat.not_lt_zero x)
    · rw [List.nil_append, Nat.zero_add] at heq1
      rw [heq, Nat.zero_add, heq1, if_pos (by omega), hbuf0, Nat.sub_zero]
  · rw [heq, if_neg (by omega), Nat.sub_zero, Nat.add_sub_cancel_left]

end

end Sys2Proof.Machine

/-! Every step keeps the window on the power stream (45_power_window.md R262 (c); 70_reset_and_hazards.md R396). -/

namespace Sys2Proof.Machine

open Sys2Proof.Config

section

variable {s t u : State} {bs ds : List Byte} {i : Instr}

/-! The detector's sums (R282, R289; P-fresh of R396). -/

theorem le_of_mem_peakOffsets {o : Nat} (h : o ∈ peakOffsets) : o ≤ 45 := by
  revert o
  decide

/-- A peak sum over loaded samples is the power stream's. -/
theorem State.Carries.peakSum_eq (h : s.Carries bs) {j : Nat} (hj : s.pos.toNat + j + 45 < s.le.toNat) :
    peakSum s j = streamPeak (streamPowers bs) (s.pos.toNat + j) := by
  refine congrArg List.sum (List.map_congr_left fun o ho => ?_)
  have ho := le_of_mem_peakOffsets ho
  have hread := h.getElem?_wread (i := o + j) (by omega)
  rw [List.getD_eq_getElem?_getD, show s.pos.toNat + j + o = s.pos.toNat + (o + j) by omega, hread, Option.getD_some]

/-- More bytes leave the peak sums of the samples that are there. -/
theorem streamPeak_append (h : bs.length % 4 = 0 ∨ ds = []) {x : Nat} (hx : x + 45 < bs.length / 4) :
    streamPeak (streamPowers (bs ++ ds)) x = streamPeak (streamPowers bs) x := by
  refine congrArg List.sum (List.map_congr_left fun o ho => ?_)
  have ho := le_of_mem_peakOffsets ho
  rw [List.getD_eq_getElem?_getD, List.getD_eq_getElem?_getD, streamPowers_append_getElem? h (by omega)]

/-- Four 27-bit samples sum up within 32 bits (R40). -/
theorem toNat_ofNat_peakSum (s : State) (j : Nat) : (BitVec.ofNat 32 (peakSum s j)).toNat = peakSum s j := by
  have hlt : ∀ k, (wread s k).toNat < 2 ^ 27 := fun k => (wread s k).isLt
  have h0 := hlt (0 + j)
  have h1 := hlt (10 + j)
  have h2 := hlt (35 + j)
  have h3 := hlt (45 + j)
  refine Nat.mod_eq_of_lt ?_
  simp only [peakSum, windowSum, peakOffsets, List.map_cons, List.map_nil, List.sum_cons, List.sum_nil]
  omega

/-- A full window of the detector reaches past the samples that its sums take (R8, R254, R280). -/
theorem State.Sound.le_of_isFull (h : s.Sound) (ht : s.tap = .frames) (hf : isFull s = true) :
    s.pos.toNat + 1196 ≤ s.le.toNat := by
  have hw := h.wsize
  have hp := h.params
  simp only [State.wsizeAgrees, ht, decide_eq_true_eq] at hw
  simp only [Params.legal, Bool.and_eq_true, decide_eq_true_eq] at hp
  simp only [isFull, decide_eq_true_eq, hw] at hf
  omega

theorem freshSums_loadCur (h : s.HoldsStream bs) (hc : s.Carries bs) (hroom : s.pos.toNat + 1196 ≤ s.le.toNat) :
    (loadCur s).freshSums bs := by
  intro ht
  rw [loadCur_tap] at ht
  rcases h.fresh ht with ⟨hprev, -, hval⟩ | ⟨hval, hcur, hprev⟩
  · have hpeak := hc.peakSum_eq (j := 0) (by omega)
    have hcur : (loadCur s).curSum.toNat = streamPeak (streamPowers bs) s.pos.toNat := by
      rw [loadCur_curSum, if_neg (by simp [hval]), toNat_ofNat_peakSum, hpeak, Nat.add_zero]
    exact .inr ⟨loadCur_curValid s, by simpa using hcur, .inl (by simp [hprev])⟩
  · exact .inr ⟨loadCur_curValid s, by simp [hval, hcur], by simpa using hprev⟩

/-- After a round the current sum is the one at the new position, and the previous one what was current (R288, R289). -/
theorem freshSums_round (h : s.HoldsStream bs) (hc : s.Carries bs) (ht : s.tap = .frames)
    (hroom : s.pos.toNat + 1196 ≤ s.le.toNat) (hval : s.curValid = true) (hw : wstep s = .ok () t)
    (hds : bs.length % 4 = 0 ∨ ds = []) :
    (shiftSums s.curSum (peakSum s 1) t).freshSums (bs ++ ds) := by
  intro _
  have hpos := wstep_ok_pos hw
  have hval' : t.curValid = s.curValid := by rw [(wstep_ok hw).2]
  have hle := h.le
  rcases h.fresh ht with ⟨-, -, hno⟩ | ⟨-, hcur, -⟩
  · simp [hval] at hno
  · refine .inr ⟨by simpa [hval'] using hval, ?_, .inr ⟨?_, ?_⟩⟩
    · rw [shiftSums_curSum, toNat_ofNat_peakSum, shiftSums_pos, hpos, hc.peakSum_eq (by omega),
        streamPeak_append hds (by omega)]
    · rw [shiftSums_pos]
      omega
    · rw [shiftSums_prevSum, shiftSums_pos, hpos, Nat.add_sub_cancel, streamPeak_append hds (by omega), hcur]

/-! The window in the middle of a command. -/

/-- `State.WindowHolds` without the detector's sums. -/
def State.WindowCarries (s : State) : Prop :=
  s.onWindow → s.fatal = false → s.leFits = true → ∃ bs, s.Carries bs

theorem State.WindowHolds.windowCarries (h : s.WindowHolds) (hc : ∀ b, (bufOf s b).canon = true) : s.WindowCarries :=
  fun hon hf hfit => (h hon hf hfit).imp fun _ hb => hb.carries hc

theorem State.WindowCarries.windowHolds (h : s.WindowCarries) (hf : ∀ bs, s.freshSums bs) : s.WindowHolds :=
  fun hon hfat hfit => (h hon hfat hfit).imp fun bs hb => hb.holdsStream (hf bs)

/-- A window step that goes on: the conditions hold before it where they hold after it. -/
theorem windowConditions_of_wstep (hw : wstep s = .ok () t) (hon : t.onWindow) (hf : t.fatal = false)
    (hfit : t.leFits = true) : s.onWindow ∧ s.fatal = false ∧ s.leFits = true := by
  have ht := (wstep_ok hw).2
  rw [ht] at hon hf
  exact ⟨hon, hf, leFits_of_wstep hw hfit⟩

theorem windowCarries_wstep (hinv : s.WindowInv) (h : s.WindowCarries) (hl : (wstep s).Leaves t) : t.WindowCarries := by
  rcases wstep_leaves hl with rfl | hfat | hw
  · exact h
  · intro _ hf
    simp [hfat] at hf
  · intro hon hf hfit
    obtain ⟨hon', hf', hfit'⟩ := windowConditions_of_wstep hw hon hf hfit
    obtain ⟨bs, hb⟩ := h hon' hf' hfit'
    obtain ⟨ds, hc, -⟩ := hb.of_wstep (hinv hon' hf' hfit') hw hfit
    exact ⟨_, hc⟩

theorem windowCarries_wsteps {n : Nat} (hinv : s.WindowInv) (h : s.WindowCarries) (hl : (wsteps n s).Leaves t) :
    t.WindowCarries :=
  (wsteps_keeps_of_wstep (P := fun s => s.WindowInv ∧ s.WindowCarries)
    (fun _ _ hs hl => ⟨windowInv_wstep hs.1 hl, windowCarries_wstep hs.1 hs.2 hl⟩) ⟨hinv, h⟩ hl).2

/-- A run of window steps that ends a command has met a fatal status or the last position. -/
theorem wsteps_ended {n : Nat} {st : Status} (h : wsteps n s = .ended st t) : t.fatal = true ∨ t.leFits = false := by
  induction n generalizing s with
  | zero => simp [wsteps] at h
  | succ n ih =>
    simp only [wsteps] at h
    cases hw : wstep s with
    | stuck why => simp [hw] at h
    | ok v s1 => exact ih (by simpa [hw] using h)
    | ended st' s1 =>
      obtain ⟨-, rfl⟩ : st' = st ∧ s1 = t := by simpa [hw] using h
      by_cases hpos : s.pos = BitVec.allOnes 64
      · rw [wstep_last hpos, Flow.ended.injEq] at hw
        exact .inr (hw.2 ▸ leFits_of_pos_allOnes hpos)
      · by_cases hb : s.pos.toNat % 65536 = 65535
        · rw [wstep_boundary hb hpos] at hw
          exact .inl (fillSlots_ended_fatal hw).1
        · simp [wstep_inside (s := s) (by omega)] at hw

/-! The whole invariant. -/

/-- What every command but INIT keeps under WINDOW and FRAMES. -/
structure State.Tracks (s : State) : Prop where
  sound : s.Sound
  inv : s.WindowInv
  holds : s.WindowHolds

theorem State.Tracks.windowCarries (h : s.Tracks) : s.WindowCarries := h.holds.windowCarries h.sound.canon

/-- A window step that does not go on leaves the window where it was, or a fatal status. -/
theorem tracks_of_wstep_ended {st : Status} (h : s.Tracks) (hw : wstep s = .ended st t) : t.Tracks := by
  have hl : (wstep s).Leaves t := by rw [hw]; rfl
  rcases wstep_leaves hl with rfl | hfat | hok
  · exact h
  · exact ⟨wstep_keeps sound_execKeeps.toStepKeeps h.sound hl, windowInv_wstep h.inv hl,
      fun _ hf => by simp [hfat] at hf⟩
  · simp [hw] at hok

/-- Under WINDOW the detector's sums do not matter. -/
theorem tracks_wstep (ht : s.tap = .window) (h : s.Tracks) (hl : (wstep s).Leaves t) : t.Tracks where
  sound := wstep_keeps sound_execKeeps.toStepKeeps h.sound hl
  inv := windowInv_wstep h.inv hl
  holds := (windowCarries_wstep h.inv h.windowCarries hl).windowHolds fun _ hfr => by
    simp [wstep_tap hl, ht] at hfr

@[simp] theorem loadCur_leFits (s : State) : (loadCur s).leFits = s.leFits := by
  unfold State.leFits State.base
  rw [loadCur_pos]

theorem tracks_loadCur (ht : s.tap = .frames) (hfull : isFull s = true) (h : s.Tracks) : (loadCur s).Tracks where
  sound := sound_loadCur h.sound
  inv := windowInv_loadCur h.inv
  holds := by
    intro _ hf hfit
    obtain ⟨bs, hb⟩ := h.holds (.inr ht) (by simpa using hf) (by simpa using hfit)
    have hc := hb.carries h.sound.canon
    have hfresh := freshSums_loadCur hb hc (h.sound.le_of_isFull ht hfull)
    refine ⟨bs, ?_⟩
    unfold loadCur at hfresh ⊢
    split at hfresh
    · next hval => rwa [if_pos hval]
    · next hval => rw [if_neg hval]; exact { hb with fresh := hfresh }

theorem tracks_round (ht : s.tap = .frames) (hfull : isFull s = true) (hval : s.curValid = true) (h : s.Tracks)
    (hw : wstep s = .ok () t) : (shiftSums s.curSum (peakSum s 1) t).Tracks where
  sound := sound_execKeeps.shift s t h.sound (wstep_keeps sound_execKeeps.toStepKeeps h.sound (by rw [hw]; rfl))
  inv := windowInv_wstep (t := t) h.inv (by rw [hw]; rfl)
  holds := by
    intro hon hf hfit
    obtain ⟨hon', hf', hfit'⟩ := windowConditions_of_wstep hw hon hf hfit
    obtain ⟨bs, hb⟩ := h.holds hon' hf' hfit'
    have hc := hb.carries h.sound.canon
    obtain ⟨ds, hct, hds⟩ := hc.of_wstep (h.inv hon' hf' hfit') hw hfit
    have hct' : (shiftSums s.curSum (peakSum s 1) t).Carries (bs ++ ds) := ⟨hct.canon, { hct.fed with }, hct.slots⟩
    exact ⟨_, hct'.holdsStream (freshSums_round hb hc ht (h.sound.le_of_isFull ht hfull) hval hw hds)⟩

/-- An accepted frame: the skip keeps the window on the stream, and the sums are forgotten after it (R286 to R288). -/
theorem tracks_takeFrame (ha : accepted s = true) (h : s.Tracks) (hl : (takeFrame s).Leaves t) : t.Tracks := by
  refine ⟨takeFrame_keeps sound_execKeeps.toScanKeeps ha h.sound hl, windowInv_takeFrame h.inv hl, ?_⟩
  have hdeliver : (deliver s).WindowCarries := fun hon hf hfit =>
    (h.windowCarries hon hf hfit).imp fun _ hb => ⟨hb.canon, { hb.fed with }, hb.slots⟩
  unfold takeFrame at hl
  split at hl
  · exact hl ▸ h.holds
  · rcases Flow.leaves_bind hl with ⟨st, he⟩ | ⟨v, s1, h1, hl⟩
    · intro _ hf hfit
      rcases wsteps_ended he with hfat | hno
      · simp [hfat] at hf
      · simp [hno] at hfit
    · have hskip := windowCarries_wsteps (s := deliver s) (t := s1) h.inv hdeliver (by rw [h1]; rfl)
      have hforget : (forgetSums s1).WindowCarries := fun hon hf hfit =>
        (hskip hon hf hfit).imp fun _ hb => ⟨hb.canon, { hb.fed with }, hb.slots⟩
      exact hl ▸ hforget.windowHolds fun _ _ => .inl ⟨rfl, rfl, rfl⟩

theorem windowHolds_finish (st : Status) (v : Word64) (h : s.WindowHolds) : (s.finish st v).WindowHolds :=
  fun hon hf hfit => (h hon hf hfit).imp fun _ hb => { hb with }

theorem windowHolds_write (a : Nat) (b : Byte) (h : s.WindowHolds) :
    (clearFrameValidBelow a (memWrite s a [b])).WindowHolds := by
  unfold clearFrameValidBelow
  split
  · exact fun hon hf hfit => (h hon hf hfit).imp fun _ hb => { hb with }
  · exact fun hon hf hfit => (h hon hf hfit).imp fun _ hb => { hb with }

theorem tracks_keeps : WindowKeeps fun s => s.onWindow → s.Tracks where
  finish := fun s st v h hon =>
    ⟨sound_execKeeps.finish s st v (h hon).sound, (h hon).inv, windowHolds_finish st v (h hon).holds⟩
  write := fun s a b ha h hon => by
    have h := h (by simpa [State.onWindow] using hon)
    exact ⟨sound_write b ha h.sound, windowInv_keeps.write s a b ha h.inv, windowHolds_write a b h.holds⟩
  off := fun _ hoff hon => absurd hon hoff
  adv := fun _ _ ht h hl _ => tracks_wstep ht (h (.inl ht)) hl
  load := fun _ ht hfull h _ => tracks_loadCur ht hfull (h (.inr ht))
  frame := fun _ _ ht ha h hl _ => tracks_takeFrame ha (h (.inr ht)) hl
  round := fun _ _ ht hfull hval h hw _ => tracks_round ht hfull hval (h (.inr ht)) hw
  failed := fun _ _ _ ht h hw _ => tracks_of_wstep_ended (h (.inr ht)) hw

/-- INIT's two fills of a cleared chain put the window on the stream of the bytes they took. -/
theorem exists_carries_of_fills {tp : Tap} {w : Int} {s1 : State} (h1 : fill false (clearChain tp w s) = .ok () s1)
    (h2 : fill true s1 = .ok () t) : ∃ bs, t.Carries bs := by
  obtain ⟨ds, ht1⟩ := fill_took h1 (canon_clearChain false) (by simp)
  have hle : s1.le.toNat = 0 + ds.length / 4 := ht1.le
  have hmost := ht1.most
  obtain ⟨ds', ht2⟩ := fill_took h2 (ht1.canon_all canon_clearChain true) (by omega)
  exact ⟨_, carries_fills ht1 ht2⟩

theorem windowHolds_execInit {tap : Nat} {w : Int} (h : s.WindowHolds) (hx : execInit tap w s = .next t) :
    t.WindowHolds := by
  obtain ⟨s', st, v, rfl, rfl | ⟨tp, -, hl⟩⟩ := execInit_next hx
  · exact windowHolds_finish st v h
  · refine windowHolds_finish (s := s') st v (State.WindowCarries.windowHolds ?_ fun _ _ => .inl ?_)
    · intro hon hf _
      rcases initFill_leaves hl with ⟨hw, hfr, rfl⟩ | hfat | ⟨s1, h1, h2⟩
      · exact absurd hon (by simp [State.onWindow, hw, hfr])
      · simp [hfat] at hf
      · exact exists_carries_of_fills h1 h2
    · have hframe := initFill_frame hl
      unfold FilledFrom at hframe
      rw [hframe]
      exact ⟨rfl, rfl, rfl⟩

theorem exec_windowHolds (hinv : s.Inv) (hwin : s.WindowInv) (h : s.WindowHolds) (hx : exec i s = .next t) :
    t.WindowHolds := by
  by_cases hi : ∀ tap w, i ≠ .init tap w
  · have ht := exec_keepsWindow tracks_keeps hi (fun _ => ⟨(State.inv_iff.1 hinv).1, hwin, h⟩) hx
    exact fun hon => (ht hon).holds hon
  · push Not at hi
    obtain ⟨tap, w, rfl⟩ := hi
    exact windowHolds_execInit h hx

/-- R262 (c) follows from the loaded slots: the window reads them by their absolute index. -/
theorem State.Carries.showsStream (h : s.Carries bs) : s.showsStream bs :=
  ⟨h.fed.bytesIn, h.fed.legal, fun x hx hxle _ => by
    have hread := h.getElem?_wread (i := x - s.pos.toNat) (by omega)
    rwa [show s.pos.toNat + (x - s.pos.toNat) = x by omega] at hread⟩

theorem State.Inv.cleanStart (h : s.Inv) (hf : s.fatal = false) : s.cleanStart = true := by
  have hc := h.cause
  simp only [State.causeAgrees, hf, Bool.false_eq_true, if_false] at hc
  simp [State.cleanStart, hf, of_decide_eq_true hc]

end

/-- Settles O30: a refill extends the bytes taken, and its slots are the power samples they add; the detector's sums are
taken over loaded samples, which more bytes do not change. The launch premises read the same facts off the state. -/
theorem windowHoldsPowerStream : Obligations.WindowHoldsPowerStream := by
  refine ⟨fun s t hinv hwin h hx => ?_, fun s hinv hwin h hon hf hfit => ?_⟩
  · obtain ⟨q, ⟨lost, rfl⟩ | ⟨i, he⟩ | ⟨e, rfl⟩⟩ := step_next hx
    · intro hon
      simp [assertReset, State.reset] at hon
    · exact exec_windowHolds (s := { s with queue := q }) { hinv with } hwin
        (fun hon hf hfit => (h hon hf hfit).imp fun _ hb => { hb with }) he
    · exact fun hon hf hfit => (h hon hf hfit).imp fun _ hb => { hb with }
  · obtain ⟨bs, hb⟩ := h hon hf hfit
    have hc := hb.carries (State.inv_iff.1 hinv).1.canon
    exact ⟨hinv.cleanStart hf, hinv.wsize, bs, fun _ => ⟨hwin hon hf hfit, hc.showsStream⟩, hb.fresh⟩

end Sys2Proof.Machine

/-! The window's commands, said once each: PW_GET, PW_ADV, PW_ADVN and PW_FULL under a TAP that allows them, while FATAL is 0
(45_power_window.md R255 to R260). -/

namespace Sys2Proof.Machine

open Sys2Proof.Config

section

variable {s t : State} {i : Int} {n : Nat} {st : Status}

/-! PW_GET and PW_FULL (R255, R257, R260). -/

theorem allows_pwGet (h : s.onWindow) : s.tap.allows .pwGet = true := by
  rcases h with h | h <;> rw [h] <;> decide

theorem allows_pwFull (h : s.onWindow) : s.tap.allows .pwFull = true := by
  rcases h with h | h <;> rw [h] <;> decide

theorem execPwGet_open (hon : s.onWindow) (hf : s.fatal = false) :
    execPwGet i s = ((windowGet i s).bind fun p s => .ok (p.setWidth 64) s).close := by
  unfold execPwGet
  rw [streamUnit_open _ (allows_pwGet hon) hf]

theorem execPwGet_outside (hon : s.onWindow) (hf : s.fatal = false) (hi : i < 0 ∨ i ≥ (s.wsize.toNat : Int)) :
    execPwGet i s = .next (s.finish .outOfRange 0) := by
  rw [execPwGet_open hon hf, windowGet, if_pos hi, Flow.bind_ended, Flow.close_ended]

theorem execPwGet_underrun (hon : s.onWindow) (hf : s.fatal = false) (h0 : 0 ≤ i) (hi : i < (s.wsize.toNat : Int))
    (hle : s.le.toNat ≤ s.pos.toNat + i.toNat) : execPwGet i s = .next (s.finish .windowUnderrun 0) := by
  rw [execPwGet_open hon hf, windowGet, if_neg (by omega), if_pos hle, Flow.bind_ended, Flow.close_ended]

theorem execPwGet_loaded (hon : s.onWindow) (hf : s.fatal = false) (h0 : 0 ≤ i) (hi : i < (s.wsize.toNat : Int))
    (hle : s.pos.toNat + i.toNat < s.le.toNat) :
    execPwGet i s = .next (s.finish .ok ((wread s i.toNat).setWidth 64)) := by
  rw [execPwGet_open hon hf, windowGet, if_neg (by omega), if_neg (by omega), Flow.bind_ok, Flow.close_ok]

theorem execPwFull_open (hon : s.onWindow) (hf : s.fatal = false) :
    execPwFull s = .next (s.finish .ok (if isFull s then 1 else 0)) := by
  unfold execPwFull
  rw [streamUnit_open _ (allows_pwFull hon) hf, Flow.close_ok]

/-! PW_ADV and PW_ADVN (R258, R259). -/

theorem execPwAdv_open (ht : s.tap = .window) (hf : s.fatal = false) :
    execPwAdv s = ((wstep s).bind fun _ s => .ok 0 s).close := by
  unfold execPwAdv
  rw [streamUnit_open _ (by simp [ht, Tap.allows]) hf]

theorem execPwAdvn_negative (ht : s.tap = .window) (hf : s.fatal = false) (hi : i < 0) :
    execPwAdvn i s = .next (s.finish .invalidArgument 0) := by
  unfold execPwAdvn
  rw [streamUnit_open _ (by simp [ht, Tap.allows]) hf, if_pos hi, Flow.close_ended]

theorem execPwAdvn_open (ht : s.tap = .window) (hf : s.fatal = false) (n : Nat) :
    execPwAdvn n s = ((wsteps n s).bind fun _ s => .ok 0 s).close := by
  unfold execPwAdvn
  rw [streamUnit_open _ (by simp [ht, Tap.allows]) hf, if_neg (by omega), Int.toNat_natCast]

/-- A command whose one part stops with `st` ends with `st`, every write of the part kept. -/
theorem Flow.close_stop (st : Status) (t : State) :
    ((Flow.stop st () t).bind fun _ s => .ok (0 : Word64) s).close = .next (t.finish st 0) := by
  unfold Flow.stop
  split
  · next hst => rw [hst]; rfl
  · rfl

theorem execPwAdv_stop (ht : s.tap = .window) (hf : s.fatal = false) (h : wstep s = Flow.stop st () t) :
    execPwAdv s = .next (t.finish st 0) := by
  rw [execPwAdv_open ht hf, h, Flow.close_stop]

theorem execPwAdvn_stop (ht : s.tap = .window) (hf : s.fatal = false) (h : wsteps n s = Flow.stop st () t) :
    execPwAdvn n s = .next (t.finish st 0) := by
  rw [execPwAdvn_open ht hf, h, Flow.close_stop]

/-! The sample chain does not see how the command before it ended (R291). -/

theorem besideChain_stepKeeps (m : Memory) (q : List HostAct) : StepKeeps fun s => s.bb = m ∧ s.queue = q where
  take := fun _ _ _ _ h => h
  count := fun _ h => h
  sawEof := fun _ h => h
  failed := fun _ _ _ h => h
  insert := fun _ _ _ h => h
  start := fun _ b h => by simpa using h
  store := fun _ b _ h => by simpa using h
  move := fun _ _ h => by simpa using h

theorem close_over_finish (m : Memory) (q : List HostAct) (x : Flow Unit) (h : ∀ u, x.Leaves u → u.bb = m ∧ u.queue = q)
    (r : Word64) (l : Status) :
    ((x.onState (·.over r l m q)).bind fun _ s => .ok (0 : Word64) s).close =
      (x.bind fun _ s => .ok (0 : Word64) s).close := by
  have hover : ∀ u : State, x.Leaves u → ∀ st v, (u.over r l m q).finish st v = u.finish st v := by
    intro u hu st v
    obtain ⟨rfl, rfl⟩ := h u hu
    rfl
  cases x with
  | ok a u => exact congrArg Host.Outcome.next (hover u rfl .ok 0)
  | ended st u => exact congrArg Host.Outcome.next (hover u rfl st 0)
  | stuck why => rfl

/-- The window steps of a command that follows one that has ended do what they would have done before it ended. -/
theorem close_wsteps_finish (n : Nat) (s : State) (st : Status) (v : Word64) :
    ((wsteps n (s.finish st v)).bind fun _ s => .ok (0 : Word64) s).close =
      ((wsteps n s).bind fun _ s => .ok (0 : Word64) s).close := by
  have hover : s.finish st v = s.over (if st = .ok then v else 0) st s.bb s.queue := rfl
  rw [hover, wsteps_over]
  exact close_over_finish _ _ _ (fun u hu => wsteps_keeps (besideChain_stepKeeps s.bb s.queue) ⟨rfl, rfl⟩ hu) _ _

end

/-- Settles O24: the two checks in their order, and the slot of the absolute index. -/
theorem pwGetReadsTheWindow : Obligations.PwGetReadsTheWindow := by
  intro s i hon hf
  refine ⟨fun hi => ?_, fun h0 hi hle => ?_, fun h0 hi hle => ?_⟩
  · exact (execPwGet_outside hon hf hi).trans (congrArg _ (s.finish_zero _))
  · exact (execPwGet_underrun hon hf h0 hi (by omega)).trans (congrArg _ (s.finish_zero _))
  · refine ⟨_, (execPwGet_loaded hon hf h0 hi (by omega)).trans (congrArg _ (s.finish_ok _)), fun off hoff => ?_⟩
    have hbase : s.base = s.pos.toNat - s.pos.toNat % 65536 := rfl
    have hx : s.pos.toNat + i.toNat = s.base + off := by omega
    rw [BitVec.toNat_setWidth_of_le (by decide), wread_eq_slotAt, hx, State.slotAt, Nat.add_sub_cancel_left]
    by_cases hcur : off < 65536
    · rw [if_pos (by omega), if_pos hcur]
      rfl
    · rw [if_neg (by omega), if_neg hcur]
      cases s.sel <;> rfl

/-- Settles O25: inside a buffer a window step moves `POS` alone, and at its last value it is refused. -/
theorem windowMovesInsideBuffer : Obligations.WindowMovesInsideBuffer := by
  intro s ht hf
  refine ⟨fun hpos => ?_, fun n h0 hn => ?_, fun hpos => ?_, fun n hn => ?_⟩
  · exact execPwAdv_stop (st := .ok) ht hf (wstep_inside hpos)
  · obtain ⟨k, rfl⟩ := Int.eq_ofNat_of_zero_le h0
    exact execPwAdvn_stop (st := .ok) ht hf (wsteps_inside (by omega))
  · exact execPwAdv_stop (st := .overflow) ht hf (wstep_last hpos)
  · exact execPwAdvn_negative ht hf hn

/-- Settles O28: `IS_FULL` over natural numbers is the comparison over the integers. -/
theorem pwFullReportsIsFull : Obligations.PwFullReportsIsFull := by
  intro s hon hf
  refine ⟨fun h => ?_, fun h => ?_⟩
  · have hfull : isFull s = true := decide_eq_true (by omega)
    exact (execPwFull_open hon hf).trans (by rw [hfull]; rfl)
  · have hfull : isFull s = false := decide_eq_false (by omega)
    exact (execPwFull_open hon hf).trans (by rw [hfull]; rfl)

/-- Settles O27: the first step ends the command, or leaves a state from which the other steps go on as from its end. -/
theorem pwAdvnIsRepeatedPwAdv : Obligations.PwAdvnIsRepeatedPwAdv := by
  intro s ht hf
  refine ⟨execPwAdvn_open ht hf 0, fun n => ?_⟩
  have hadvn : exec (.pwAdvn ((n : Int) + 1)) s = ((wsteps (n + 1) s).bind fun _ s => .ok 0 s).close :=
    execPwAdvn_open ht hf (n + 1)
  have hadv : exec .pwAdv s = ((wstep s).bind fun _ s => .ok 0 s).close := execPwAdv_open ht hf
  rw [hadvn, hadv, wsteps]
  cases hw : wstep s with
  | stuck why => rfl
  | ended st t =>
    have hst : st ≠ .ok := by
      rcases wstep_ended hw with ⟨rfl, -⟩ | ⟨-, -, rfl | rfl⟩ <;> decide
    simp [hst]
  | ok u t =>
    have ht' : t.tap = .window := by rw [(wstep_ok hw).2]; exact ht
    have hf' : t.fatal = false := by rw [(wstep_ok hw).2]; exact hf
    have hrest : exec (.pwAdvn n) (t.finish .ok 0) = ((wsteps n (t.finish .ok 0)).bind fun _ s => .ok 0 s).close :=
      execPwAdvn_open (s := t.finish .ok 0) ht' hf' n
    simp only [Flow.bind_ok, Flow.close_ok, State.finish_lastSt, if_true]
    rw [hrest, close_wsteps_finish]

/-- The window is at most one buffer long (R8, R35). -/
theorem State.Inv.wsize_le {s : State} (h : s.Inv) (hon : s.onWindow) : s.wsize.toNat ≤ 65536 := by
  have hw := h.wsize
  have hp := h.params
  simp only [Params.legal, Bool.and_eq_true, decide_eq_true_eq] at hp
  rcases hon with ht | ht
  · simp only [State.wsizeAgrees, ht, Bool.and_eq_true, decide_eq_true_eq] at hw
    exact hw.2
  · simp only [State.wsizeAgrees, ht, decide_eq_true_eq] at hw
    rw [hw]
    exact hp.1.2

/-- Settles O31: while EOF_SEEN is 0, `LE` is two buffers past `BASE`, and `WSIZE` is at most one. -/
theorem windowFullUntilStreamEnds : Obligations.WindowFullUntilStreamEnds := by
  intro s hinv hwin hon hf he hfit
  have hle : s.le.toNat = s.pos.toNat - s.pos.toNat % 65536 + 131072 := (hwin hon hf (State.leFits_iff.2 hfit)).2 he
  have hwsize := hinv.wsize_le hon
  exact ⟨by omega, (pwFullReportsIsFull s hon hf).1 (by omega)⟩

end Sys2Proof.Machine

/-! A boundary crossed over a given stream (45_power_window.md R252, R253, R258). -/

namespace Sys2Proof.Machine

open Sys2Proof.Config

section

variable {s t : State} {bs : List Byte} {e : StreamEnd} {es : List PortEvent} {b : Bool}

/-- What a refill leaves of a state in which nothing is fatal, as one state: the buffer and the count it writes are those of
`b`. -/
theorem Filled.eq_of_clear (h : Filled 0 b 65536 bs e es s t) (hf : s.fatal = false) :
    t = { s with
          fatal := decide (e.after 262144 bs.length ≠ .ok),
          fatalCause := if e.after 262144 bs.length = .ok then s.fatalCause else e.after 262144 bs.length,
          eofSeen := decide (bs.length < 262144 ∧ e = .eof),
          bytesIn := s.bytesIn + BitVec.ofNat 64 (if 262144 ≤ bs.length then 262144 else bs.length + e.bytes),
          hist := historyAfter s.hist ((streamSamples bs).take 131072),
          le := s.le + BitVec.ofNat 64 (min 65536 (bs.length / 4)),
          cnt0 := if b then s.cnt0 else BitVec.ofNat 17 (min 65536 (bs.length / 4)),
          cnt1 := if b then BitVec.ofNat 17 (min 65536 (bs.length / 4)) else s.cnt1,
          buf0 := if b then s.buf0 else t.buf0, buf1 := if b then t.buf1 else s.buf1,
          port :=
            { s.port with
              ahead := if 262144 ≤ bs.length then (bs.drop 262144).map .byte ++ (e.events ++ es) else es,
              taken := s.port.taken + if 262144 ≤ bs.length then 262144 else bs.length + e.events.length } } := by
  have hframe := h.frame
  have hok : (4 * 65536 ≤ bs.length ∨ e.status = .ok) ↔ e.after 262144 bs.length = .ok := StreamEnd.after_ok_iff
  have hfatal : t.fatal = decide (e.after 262144 bs.length ≠ .ok) := by
    simp only [h.fatal, hf, hok]
    split <;> simp [*]
  have hcause : t.fatalCause = if e.after 262144 bs.length = .ok then s.fatalCause else e.after 262144 bs.length := by
    simp only [h.cause, hok]
    split
    · rfl
    · next hno => rw [StreamEnd.after_of_ne_ok hno]
  have hlet : t.le = s.le + BitVec.ofNat 64 (min 65536 (bs.length / 4)) := by
    have hlen := h.le
    apply BitVec.eq_of_toNat_eq
    rw [hlen, BitVec.toNat_add, BitVec.toNat_ofNat]
    omega
  have hcnt := bitVec_eq_ofNat_of_toNat (h.cnt.trans (Nat.zero_add _))
  have hcnt' := h.cntOther
  have hbuf' := h.bufOther
  unfold FilledFrom at hframe
  rw [hfatal, hcause, h.eofSeen, h.bytesIn, h.hist, hlet, h.port] at hframe
  cases b with
  | false =>
    simp only [cntOf, bufOf, Bool.not_false, Bool.false_eq_true, if_true, if_false] at hcnt hcnt' hbuf' ⊢
    rwa [hcnt, hcnt', hbuf'] at hframe
  | true =>
    simp only [cntOf, bufOf, Bool.not_true, Bool.false_eq_true, if_true, if_false] at hcnt hcnt' hbuf' ⊢
    rwa [hcnt, hcnt', hbuf'] at hframe

end

/-- Settles O26: at a boundary PW_ADV closes with what the refill leaves of the moved and swapped window. -/
theorem pwAdvRefillsAtBoundary : Obligations.PwAdvRefillsAtBoundary := by
  intro s ht hf hb hpos
  refine ⟨fun he => ?_, fun bs e es st he hc0 hc1 hle hlegal hfol hp hst => ?_⟩
  · have hstep := (wstep_boundary hb hpos).trans (fill_ended s.sel he)
    refine (execPwAdv_stop (st := .ok) ht hf hstep).trans (congrArg _ ?_)
    cases hsel : s.sel <;> rfl
  · have hst : st = e.after 262144 bs.length := hst
    subst hst
    have hcanon : (bufOf s s.sel).canon = true := by cases s.sel; exacts [hc0, hc1]
    obtain ⟨t, hfill, hfilled⟩ := fill_stream s.sel (s := { s with pos := s.pos + 1, sel := !s.sel }) he hp hlegal hfol
      hcanon hle
    have hx := execPwAdv_stop ht hf ((wstep_boundary hb hpos).trans hfill)
    have ht := hfilled.eq_of_clear hf
    refine ⟨_, hx, ?_, fun k hk => ?_⟩
    · rw [State.finish_zero]
      exact congrArg (fun u : State => { u with res := 0, lastSt := e.after 262144 bs.length }) ht
    · have hslot := hfilled.slots k hk
      have hlt : (0 ≤ k ∧ k < 0 + min 65536 (bs.length / 4)) ↔ k < bs.length / 4 := by omega
      simp only [hlt, Nat.sub_zero] at hslot
      exact hslot

end Sys2Proof.Machine

/-! A stream that ends, played through the window from INIT on (45_power_window.md R250, R255, R262 (c)). -/

namespace Sys2Proof.Machine

open Sys2Proof.Config

section

variable {s t : State} {bs rest : List Byte} {es : List PortEvent} {b : Bool} {w : Nat}

theorem legalBytes_take {m : NibbleMode} (h : legalBytes m bs = true) (n : Nat) :
    legalBytes m (bs.take (2 * n)) = true := by
  induction n generalizing bs with
  | zero => cases m <;> rfl
  | succ n ih =>
    match bs with
    | [] => simpa using h
    | [_] => rw [List.take_of_length_le (by simp; omega)]; exact h
    | b0 :: b1 :: bs =>
      obtain ⟨hpair, hrest⟩ := legalBytes_pair_iff.1 h
      exact legalBytes_pair_iff.2 ⟨hpair, ih hrest⟩

/-- Over a stream that just ends, a fill takes its share of the bytes, and what it writes is theirs. -/
theorem Filled.took (h : Filled 0 b 65536 bs .eof es s t) (he : s.eofSeen = false)
    (hlegal : legalBytes s.params.nibbleMode bs = true) : Took 0 b 65536 (bs.take 262144) s t := by
  have hlen : (bs.take 262144).length = min 262144 bs.length := List.length_take
  have hdiv : min 262144 bs.length / 4 = min 65536 (bs.length / 4) := by omega
  have hsamples : streamSamples (bs.take 262144) = (streamSamples bs).take 131072 := by
    by_cases hfew : bs.length ≤ 262144
    · rw [List.take_of_length_le hfew, List.take_of_length_le (by rw [length_streamSamples]; omega)]
    · have hcut := streamSamples_append (bs := bs.take 262144) (ds := bs.drop 262144) (by rw [hlen]; omega)
      rw [List.take_append_drop] at hcut
      rw [hcut, List.take_left' (by rw [length_streamSamples, hlen]; omega)]
  have hpowers : ∀ k, k < min 65536 (bs.length / 4) →
      (samplePowers s.hist (streamSamples bs)).getD k 0 =
        (samplePowers s.hist (streamSamples (bs.take 262144))).getD k 0 := by
    intro k hk
    by_cases hfew : bs.length ≤ 262144
    · rw [List.take_of_length_le hfew]
    · have hcut := streamSamples_append (bs := bs.take 262144) (ds := bs.drop 262144) (by rw [hlen]; omega)
      rw [List.take_append_drop] at hcut
      rw [hcut, samplePowers_append (n := 65536) _ _ _ (by rw [length_streamSamples, hlen]; omega),
        List.getD_append _ _ _ _ (by rw [length_samplePowers, length_streamSamples, hlen]; omega)]
  refine ⟨h.frame, by simpa [StreamEnd.status] using h.fatal, by simpa [StreamEnd.status] using h.cause,
    legalBytes_take hlegal 131072, by omega, by simp [he], fun hno => ?_, ?_, ?_, ?_, ?_, h.cntOther, h.bufOther, h.canon,
    fun k hk => ?_⟩
  · have hshort : ¬ bs.length < 4 * 65536 := by simpa [h.eofSeen] using hno
    omega
  · rw [h.bytesIn, hlen]
    rfl
  · rw [h.hist, hsamples]
  · rw [h.le, hlen, hdiv]
  · rw [h.cnt, hlen, hdiv]
  · rw [h.slots k hk, hlen, hdiv]
    split
    · rw [Nat.sub_zero, hpowers k (by omega)]
    · rfl

/-- Of a stream that ends, the bytes `rest` are still to come; none once EOF_SEEN is set. -/
def State.Awaits (s : State) (rest : List Byte) : Prop :=
  if s.eofSeen then rest = []
  else legalBytes s.params.nibbleMode rest = true ∧ ∃ es, s.port.ahead = rest.map .byte ++ .eof :: es

/-- A fill over a stream that ends goes on, with the bytes it took off those to come. -/
theorem fill_of_awaits (h : s.Awaits rest) (hc : (bufOf s b).canon = true) (hle : s.le.toNat + 65536 < 2 ^ 64) :
    ∃ t ds rest', fill b s = .ok () t ∧ Took 0 b 65536 ds s t ∧ rest = ds ++ rest' ∧ t.Awaits rest' := by
  unfold State.Awaits at h
  cases he : s.eofSeen with
  | true =>
    rw [if_pos he] at h
    subst h
    have hfill := fill_ended b he
    obtain ⟨ds, ht⟩ := fill_took hfill hc hle
    obtain ⟨rfl, he'⟩ := ht.ended he
    exact ⟨_, [], [], hfill, ht, rfl, by rw [State.Awaits, if_pos he']⟩
  | false =>
    rw [if_neg (by simp [he])] at h
    obtain ⟨hlegal, es, hp⟩ := h
    obtain ⟨t, hfill, ht⟩ := fill_stream b (e := .eof) he hp hlegal trivial hc hle
    have hstatus : StreamEnd.eof.after 262144 rest.length = .ok := by simp [StreamEnd.after, StreamEnd.status]
    rw [hstatus] at hfill
    refine ⟨t, _, rest.drop 262144, hfill, ht.took he hlegal, (List.take_append_drop _ _).symm, ?_⟩
    have heof := ht.eofSeen
    unfold State.Awaits
    by_cases hlen : rest.length < 262144
    · rw [if_pos (by simpa using heof.trans (by simpa using hlen)), List.drop_of_length_le hlen.le]
    · have hparams : t.params = s.params := ht.frame.params
      rw [if_neg (by simp [heof]; omega), hparams]
      refine ⟨legalBytes_drop hlegal 131072, es, ?_⟩
      rw [ht.port]
      exact if_pos (by omega)

/-- The window of length `w` stands on the stream `bs`, which ends: it carries the bytes taken, and the others are still to
come. -/
structure State.Plays (w : Nat) (bs : List Byte) (s : State) : Prop where
  tap : s.tap = .window
  wsize : s.wsize.toNat = w
  fatal : s.fatal = false
  loaded : s.loadedEnd
  stream : ∃ ds rest, bs = ds ++ rest ∧ s.Carries ds ∧ s.Awaits rest

/-- A window step goes on over a stream that ends, far below the last position. -/
theorem State.Plays.of_wstep (h : s.Plays w bs) (hpos : s.pos.toNat < 2 ^ 32) :
    ∃ t, wstep s = .ok () t ∧ t.Plays w bs := by
  obtain ⟨ds, rest, hbs, hc, hawait⟩ := h.stream
  have hlast : s.pos ≠ BitVec.allOnes 64 := fun heq => by simp [heq] at hpos
  have hplays : ∀ t, wstep s = .ok () t → (∃ ds rest, bs = ds ++ rest ∧ t.Carries ds ∧ t.Awaits rest) →
      t.Plays w bs := by
    intro t hw hstream
    have hframe := (wstep_ok hw).2
    have hpos' := wstep_ok_pos hw
    exact ⟨by rw [hframe]; exact h.tap, by rw [hframe]; exact h.wsize, by rw [hframe]; exact h.fatal,
      loadedEnd_wstep h.loaded hw (State.leFits_iff.2 (by simp only [State.base]; omega)), hstream⟩
  by_cases hb : s.pos.toNat % 65536 = 65535
  · have hle := h.loaded.1
    simp only [State.base] at hle
    obtain ⟨t, ds', rest', hfill, htook, rfl, hawait'⟩ := fill_of_awaits
      (s := { s with pos := s.pos + 1, sel := !s.sel }) (b := s.sel) hawait (hc.canon _) (by dsimp only; omega)
    have hw := (wstep_boundary hb hlast).trans hfill
    exact ⟨t, hw, hplays t hw ⟨ds ++ ds', rest', by rw [hbs, List.append_assoc], hc.took h.loaded hb hlast htook, hawait'⟩⟩
  · have hw := wstep_inside (s := s) (by omega)
    exact ⟨_, hw, hplays _ hw ⟨ds, rest, hbs, hc.inside (by omega), hawait⟩⟩

theorem State.Plays.of_wsteps {n : Nat} (h : s.Plays w bs) (hn : s.pos.toNat + n ≤ 2 ^ 32) :
    ∃ t, wsteps n s = .ok () t ∧ t.Plays w bs ∧ t.pos.toNat = s.pos.toNat + n := by
  induction n generalizing s with
  | zero => exact ⟨s, rfl, h, rfl⟩
  | succ n ih =>
    obtain ⟨s1, hw, h1⟩ := h.of_wstep (by omega)
    have hpos := wstep_ok_pos hw
    obtain ⟨t, hws, ht, htpos⟩ := ih h1 (by omega)
    refine ⟨t, ?_, ht, by omega⟩
    rw [wsteps, hw]
    exact hws

/-- INIT's two fills of a cleared chain over a stream that ends. -/
theorem plays_fills {v : Int} (hlegal : legalBytes s.params.nibbleMode bs = true)
    (hp : s.port.ahead = bs.map .byte ++ .eof :: es) (h1 : 1 ≤ v) (h2 : v ≤ 65536) :
    ∃ t, fillInitial (clearChain .window v s) = .ok () t ∧ t.Plays v.toNat bs ∧ t.pos = 0 := by
  have hawait : (clearChain .window v s).Awaits bs := by
    rw [State.Awaits, if_neg (by simp)]
    exact ⟨hlegal, es, hp⟩
  obtain ⟨s1, ds, rest, hfill1, ht1, rfl, hawait1⟩ := fill_of_awaits (b := false) hawait (canon_clearChain false)
    (by simp)
  have hle : s1.le.toNat = 0 + ds.length / 4 := ht1.le
  have hmost := ht1.most
  obtain ⟨t, ds', rest', hfill2, ht2, rfl, hawait2⟩ := fill_of_awaits (b := true) hawait1
    (ht1.canon_all canon_clearChain true) (by omega)
  have hframe : FilledFrom (clearChain .window v s) t := ht1.frame.trans ht2.frame
  have hfatal : t.fatal = false := ht2.fatal.trans ht1.fatal
  refine ⟨t, ?_, ⟨hframe.tap, ?_, hfatal, loadedEnd_fills rfl rfl hfill1 hfill2, ds ++ ds', rest',
    (List.append_assoc _ _ _).symm, carries_fills ht1 ht2, hawait2⟩, by rw [hframe]; rfl⟩
  · unfold fillInitial
    rw [hfill1]
    exact hfill2
  · rw [hframe]
    simp only [clearChain_wsize, initWsize, BitVec.toNat_ofInt]
    omega

/-- Inside the window, what is loaded is what the stream has: while EOF_SEEN is 0 the window is full, and after that all of
the stream is loaded. -/
theorem State.Plays.lt_le_iff (h : s.Plays w bs) {i : Nat} (hi : i < 65536) :
    s.pos.toNat + i < s.le.toNat ↔ s.pos.toNat + i < (streamPowers bs).length := by
  obtain ⟨ds, rest, rfl, hc, hawait⟩ := h.stream
  have hle := hc.fed.le
  rw [length_streamPowers, List.length_append]
  unfold State.Awaits at hawait
  cases he : s.eofSeen with
  | true =>
    obtain rfl : rest = [] := by simpa [he] using hawait
    simp [hle]
  | false =>
    have hfull := h.loaded.2 he
    simp only [State.base, pwBatch] at hfull
    omega

/-- A window read below `LE` answers with the stream's power sample. -/
theorem State.Plays.wread_eq (h : s.Plays w bs) {i : Nat} (hi : s.pos.toNat + i < s.le.toNat) :
    wread s i = (streamPowers bs).getD (s.pos.toNat + i) 0 := by
  obtain ⟨ds, rest, rfl, hc, hawait⟩ := h.stream
  have hrest : ds.length % 4 = 0 ∨ rest = [] := by
    unfold State.Awaits at hawait
    cases he : s.eofSeen with
    | true => exact .inr (by simpa [he] using hawait)
    | false => exact .inl (hc.fed.even he)
  rw [List.getD_eq_getElem?_getD, streamPowers_append_getElem? hrest (by rw [← hc.fed.le]; exact hi),
    hc.getElem?_wread hi, Option.getD_some]

theorem plays_finish (st : Status) (v : Word64) (h : s.Plays w bs) : (s.finish st v).Plays w bs := by
  obtain ⟨ds, rest, hbs, hc, hawait⟩ := h.stream
  exact { h with stream := ⟨ds, rest, hbs, ⟨hc.canon, { hc.fed with }, hc.slots⟩, hawait⟩ }

end

/-- Settles O32: INIT and every window step keep the window on the stream, whose loaded part PW_GET reads and whose end it
knows. -/
theorem windowShowsPowerStream : Obligations.WindowShowsPowerStream := by
  intro s bs es w n i hlegal hp h1 h2 hn0 hn hi0 hi
  obtain ⟨s1, hfill, hs1, hpos1⟩ := plays_fills hlegal hp h1 h2
  have hinit : exec (.init 3 w) s = .next (s1.finish .ok 0) :=
    execInit_of_initFill (tap := 3) (tp := .window) (st := .ok) rfl (initArgOk_iff.2 ⟨h1, h2⟩) hfill
  obtain ⟨k, rfl⟩ := Int.eq_ofNat_of_zero_le hn0
  obtain ⟨u, hsteps, hu, hpos⟩ := (plays_finish .ok 0 hs1).of_wsteps (n := k) (by simp [hpos1]; omega)
  have hadvn : exec (.pwAdvn k) (s1.finish .ok 0) = .next (u.finish .ok 0) :=
    execPwAdvn_stop (st := .ok) hs1.tap hs1.fatal hsteps
  have hv := plays_finish .ok 0 hu
  have hposv : (u.finish .ok 0).pos.toNat = k := by simpa [hpos1] using hpos
  refine ⟨_, _, hinit, rfl, hadvn, rfl, hposv, ?_⟩
  have hsum : ((k : Int) + i).toNat = (u.finish .ok 0).pos.toNat + i.toNat := by omega
  have hwsize : i < ((u.finish .ok 0).wsize.toNat : Int) := by rw [hv.wsize]; omega
  have hiff := hv.lt_le_iff (i := i.toNat) (by omega)
  rw [hsum]
  by_cases hlt : (u.finish .ok 0).pos.toNat + i.toNat < (streamPowers bs).length
  · have hload := hiff.2 hlt
    rw [if_pos hlt, ← hv.wread_eq hload]
    exact execPwGet_loaded (.inl hv.tap) hv.fatal hi0 hwsize hload
  · rw [if_neg hlt]
    exact execPwGet_underrun (.inl hv.tap) hv.fatal hi0 hwsize (by omega)

end Sys2Proof.Machine

/-! DM_NEXT's rounds, said once each, and how an accepted frame ends the command (46_preamble_detector.md R281 to R290). -/

namespace Sys2Proof.Machine

open Sys2Proof.Config

section

variable {s t u : State} {n : Nat} {st : Status}

/-! One round (R289). -/

theorem execDmNext_open (ht : s.tap = .frames) (hf : s.fatal = false) :
    execDmNext s = (scan (2 ^ 64 - s.pos.toNat) s).close := by
  unfold execDmNext
  rw [streamUnit_open _ (by simp [ht, Tap.allows]) hf]

/-- A scan has at least one round left, since `POS` is below 2^64. -/
theorem execDmNext_round (ht : s.tap = .frames) (hf : s.fatal = false) :
    execDmNext s = (scan ((2 ^ 64 - s.pos.toNat - 1) + 1) s).close := by
  rw [execDmNext_open ht hf, Nat.sub_add_cancel (Nat.sub_pos_of_lt s.pos.isLt)]

theorem execDmNext_notFull (ht : s.tap = .frames) (hf : s.fatal = false) (h : isFull s = false) :
    execDmNext s = (endScan .eos s).close := by
  rw [execDmNext_round ht hf, scan, if_pos h]

theorem execDmNext_hit (ht : s.tap = .frames) (hf : s.fatal = false) (hfull : isFull s = true)
    (hhit : hitHere (loadCur s) = true) (hacc : accepted (loadCur s) = true) :
    execDmNext s = (takeFrame (loadCur s)).close := by
  rw [execDmNext_round ht hf, scan, if_neg (by simp [hfull]), if_pos (by simp [hhit, hacc])]

theorem execDmNext_stepped (ht : s.tap = .frames) (hf : s.fatal = false) (hfull : isFull s = true)
    (hno : ¬ (hitHere (loadCur s) = true ∧ accepted (loadCur s) = true)) (hw : wstep (loadCur s) = .ok () u) :
    execDmNext s = execDmNext (shiftSums (loadCur s).curSum (peakSum (loadCur s) 1) u) := by
  have hpos : u.pos.toNat = s.pos.toNat + 1 := by simpa using wstep_ok_pos hw
  have htap : u.tap = .frames := by rw [(wstep_ok hw).2]; simpa using ht
  have hfatal : u.fatal = false := by rw [(wstep_ok hw).2]; simpa using hf
  rw [execDmNext_round ht hf, scan, if_neg (by simp [hfull]), if_neg (by simpa using hno), hw,
    execDmNext_open (s := shiftSums _ _ u) htap hfatal, shiftSums_pos, hpos, Nat.sub_sub]

theorem execDmNext_failed (ht : s.tap = .frames) (hf : s.fatal = false) (hfull : isFull s = true)
    (hno : ¬ (hitHere (loadCur s) = true ∧ accepted (loadCur s) = true)) (hw : wstep (loadCur s) = .ended st u) :
    execDmNext s = (endScan st u).close := by
  rw [execDmNext_round ht hf, scan, if_neg (by simp [hfull]), if_neg (by simpa using hno), hw]

/-- Only at the last position a window step ends with OVERFLOW. -/
theorem wstep_ended_overflow (h : wstep s = .ended .overflow t) : s.pos = BitVec.allOnes 64 ∧ t = s := by
  by_cases hpos : s.pos = BitVec.allOnes 64
  · rw [wstep_last hpos, Flow.ended.injEq] at h
    exact ⟨hpos, h.2.symm⟩
  · by_cases hb : s.pos.toNat % 65536 = 65535
    · rw [wstep_boundary hb hpos] at h
      simpa using (fillSlots_ended_fatal h).2.2
    · simp [wstep_inside (s := s) (by omega)] at h

/-! An accepted frame (R286 to R289). -/

/-- What DM_NEXT writes only when it delivers a frame, and the host's later actions, are as they were (R287). -/
structure State.SlotKept (s t : State) : Prop where
  bb : t.bb = s.bb
  fts : t.fts = s.fts
  frameValid : t.frameValid = s.frameValid
  queue : t.queue = s.queue

theorem State.SlotKept.refl (s : State) : s.SlotKept s := ⟨rfl, rfl, rfl, rfl⟩

theorem State.SlotKept.trans (h : s.SlotKept t) (h' : t.SlotKept u) : s.SlotKept u :=
  ⟨h'.bb.trans h.bb, h'.fts.trans h.fts, h'.frameValid.trans h.frameValid, h'.queue.trans h.queue⟩

theorem slotKept_stepKeeps (s : State) : StepKeeps s.SlotKept where
  take := fun _ _ _ _ h => { h with }
  count := fun _ h => { h with }
  sawEof := fun _ h => { h with }
  failed := fun _ _ _ h => { h with }
  insert := fun _ _ _ h => { h with }
  start := fun _ b h => by cases b <;> exact { h with }
  store := fun _ b _ h => by cases b <;> exact { h with }
  move := fun _ _ h => ⟨by simp [h.bb], by simp [h.fts], by simp [h.frameValid], by simp [h.queue]⟩

theorem slotKept_wstep (hl : (wstep s).Leaves t) : s.SlotKept t := wstep_keeps (slotKept_stepKeeps s) (.refl s) hl

theorem slotKept_wsteps (hl : (wsteps n s).Leaves t) : s.SlotKept t := wsteps_keeps (slotKept_stepKeeps s) (.refl s) hl

@[simp] theorem lastStampedPos_eq : lastStampedPos = 184467440737095516 := rfl

theorem takeFrame_late (h : lastStampedPos < s.pos.toNat) : takeFrame s = .ended .overflow s := if_pos h

theorem takeFrame_stamped (h : s.pos.toNat ≤ lastStampedPos) :
    takeFrame s =
      (wsteps s.params.frameSkip.toNat (deliver s)).bind fun _ s' => .ok (timestamp s) (forgetSums s') :=
  if_neg (Nat.not_lt.2 h)

theorem timestamp_eq (s : State) : timestamp s = BitVec.ofNat 64 (100 * s.pos.toNat) := rfl

/-- A frame whose skip goes on: OK, the timestamp of its position, the sums cleared (R288, R289). -/
theorem execDmNext_delivered (ht : s.tap = .frames) (hf : s.fatal = false) (hfull : isFull s = true)
    (hhit : hitHere (loadCur s) = true) (hacc : accepted (loadCur s) = true)
    (hlast : s.pos.toNat ≤ 184467440737095516)
    (hw : wsteps s.params.frameSkip.toNat (deliver (loadCur s)) = .ok () u) :
    execDmNext s = .next { u with
      res := BitVec.ofNat 64 (100 * s.pos.toNat), lastSt := .ok, prevSum := 0, curSum := 0, curValid := false } := by
  rw [execDmNext_hit ht hf hfull hhit hacc, takeFrame_stamped (by simpa using hlast), loadCur_params, hw, Flow.bind_ok,
    Flow.close_ok, State.finish_ok, timestamp_eq, loadCur_pos]
  rfl

/-! The tests of a round, in the window's samples (R281 to R285). -/

@[simp] theorem wread_loadCur (s : State) (i : Nat) : wread (loadCur s) i = wread s i := by
  unfold loadCur; split <;> rfl

@[simp] theorem windowSum_loadCur (s : State) (offs : List Nat) (j : Nat) :
    windowSum (loadCur s) offs j = windowSum s offs j := by simp [windowSum]

@[simp] theorem peakSum_loadCur (s : State) (j : Nat) : peakSum (loadCur s) j = peakSum s j :=
  windowSum_loadCur s _ j

@[simp] theorem valleySum_loadCur (s : State) (j : Nat) : valleySum (loadCur s) j = valleySum s j :=
  windowSum_loadCur s _ j

@[simp] theorem frameByte_loadCur (s : State) (k : Nat) : frameByte (loadCur s) k = frameByte s k := by
  simp [frameByte, frameBit]

@[simp] theorem candidate_loadCur (s : State) : candidate (loadCur s) = candidate s := by simp [candidate]

theorem accepted_iff : accepted s = true ↔ (frameByte s 0).toNat / 8 = 17 ∧ crc24 (candidate s) = 0 := by
  have hdf : (frameByte s 0 >>> 3).toNat = (frameByte s 0).toNat / 8 := by
    rw [BitVec.toNat_ushiftRight, Nat.shiftRight_eq_div_pow]
  unfold accepted
  rw [hdf]
  split <;> simp_all [dfRequired]

theorem peakSum_eq (s : State) (j : Nat) :
    peakSum s j = (wread s j).toNat + (wread s (10 + j)).toNat + (wread s (35 + j)).toNat + (wread s (45 + j)).toNat := by
  simp [peakSum, windowSum, peakOffsets, Nat.add_assoc]

theorem valleySum_zero (s : State) :
    valleySum s 0 = (wread s 5).toNat + (wread s 15).toNat + (wread s 20).toNat + (wread s 25).toNat +
      (wread s 30).toNat + (wread s 40).toNat := by
  simp [valleySum, windowSum, valleyOffsets, Nat.add_assoc]

/-- This position's peak sum as the round takes it: the stored one, or the window's (R289). -/
def currentSum (s : State) : Nat := if s.curValid then s.curSum.toNat else peakSum s 0

/-- Four samples of 27 bits: the sum fits the 32 bits of `CUR_SUM`. -/
theorem currentSum_lt (s : State) : currentSum s < 2 ^ 32 := by
  unfold currentSum
  split
  · exact s.curSum.isLt
  · rw [peakSum_eq]
    have h0 := (wread s 0).isLt
    have h1 := (wread s (10 + 0)).isLt
    have h2 := (wread s (35 + 0)).isLt
    have h3 := (wread s (45 + 0)).isLt
    omega

theorem loadCur_eq (s : State) : loadCur s = { s with curSum := BitVec.ofNat 32 (currentSum s), curValid := true } := by
  cases hv : s.curValid with
  | false => simp [loadCur, currentSum, hv]
  | true =>
    simp only [loadCur, currentSum, hv, if_true, BitVec.ofNat_toNat, BitVec.setWidth_eq]
    rw [← hv]

theorem toNat_curSum_loadCur (s : State) : (loadCur s).curSum.toNat = currentSum s := by
  rw [loadCur_eq]
  exact Nat.mod_eq_of_lt (currentSum_lt s)

theorem peakOk_iff {c : PeakCmp} {peak valley : Nat} :
    peakOk c peak valley = true ↔ (match c with | .gt => peak > 2 * valley | .ge => peak ≥ 2 * valley) := by
  cases c <;> exact decide_eq_true_iff

theorem hitHere_loadCur_iff :
    hitHere (loadCur s) = true ↔ s.prevSum.toNat < currentSum s ∧ currentSum s > peakSum s 1 ∧
      peakOk s.params.peakCmp (currentSum s) (valleySum s 0) = true := by
  rw [hitHere, toNat_curSum_loadCur]
  simp [preambleHit, and_assoc]

/-- The sums of a round, written out over the window's samples. -/
theorem sums_eq_of_window {w : Nat → Nat} {pk0 pk1 vl0 : Nat} (hw : ∀ i, w i = (wread s i).toNat)
    (hpk0 : pk0 = if s.curValid then s.curSum.toNat else w 0 + w 10 + w 35 + w 45)
    (hpk1 : pk1 = w 1 + w 11 + w 36 + w 46) (hvl0 : vl0 = w 5 + w 15 + w 20 + w 25 + w 30 + w 40) :
    pk0 = currentSum s ∧ pk1 = peakSum s 1 ∧ vl0 = valleySum s 0 := by
  rw [currentSum, peakSum_eq, peakSum_eq, valleySum_zero]
  simp only [← hw]
  exact ⟨hpk0, hpk1, hvl0⟩

/-! The frame in the slot (R283, R287). -/

theorem frameBit_eq (s : State) (k : Nat) :
    frameBit s k = decide (¬ (wread s (80 + 10 * k)).toNat < (wread s (85 + 10 * k)).toNat) :=
  decide_not.symm

/-- Bit `8k + j` of the frame is bit `7 - j` of byte `k`. -/
theorem getLsbD_frameByte (s : State) (k : Nat) {j : Nat} (hj : j < 8) :
    (frameByte s k).getLsbD (7 - j) = frameBit s (8 * k + j) := by
  rw [frameByte, BitVec.getLsbD_append]
  simp only [BitVec.getLsbD_append, bit, BitVec.getLsbD_ofBool]
  interval_cases j <;> simp

/-- A list of a frame's bytes, written to the slot, is what the slot then holds. -/
theorem read_writeSlot {m : Memory} {bs : List Byte} {k : Nat} (hm : m.wf = true) (hlen : bs.length = frameBytes)
    (hk : k < frameBytes) : (Memory.writeList m 0 bs).read k = bs[k] := by
  have hread := Memory.read_writeList_inside (a := 0) (k := k) (bs := bs) hm (by rw [hlen]; decide) (by omega)
  rwa [Nat.zero_add] at hread

theorem read_writeSlot_beyond {m : Memory} {bs : List Byte} {a : Nat} (hlen : bs.length = frameBytes)
    (ha : frameBytes ≤ a) : (Memory.writeList m 0 bs).read a = m.read a :=
  Memory.read_writeList_outside _ _ (.inr (by omega))

theorem read_deliver (hbb : s.bb.wf = true) {k : Nat} (hk : k < frameBytes) :
    (deliver s).bb.read k = frameByte s k := by
  rw [deliver_bb, read_writeSlot hbb (length_candidate s) hk]
  simp [candidate]

theorem read_deliver_beyond (s : State) {a : Nat} (ha : frameBytes ≤ a) : (deliver s).bb.read a = s.bb.read a :=
  read_writeSlot_beyond (length_candidate s) ha

end

/-- Settles O34: a round without a frame is one window step, after which the rounds go on or end with the step's status. -/
theorem dmNextPassesOverPosition : Obligations.DmNextPassesOverPosition := by
  intro s s1 w pk0 pk1 vl0 ht hf hle hw hpk0 hpk1 hvl0 hs1 hno
  obtain ⟨rfl, rfl, rfl⟩ := sums_eq_of_window hw hpk0 hpk1 hvl0
  rw [← loadCur_eq] at hs1
  subst hs1
  have hfull : isFull s = true := decide_eq_true (by omega)
  have hno' : ¬ (hitHere (loadCur s) = true ∧ accepted (loadCur s) = true) := by
    rintro ⟨hhit, hacc⟩
    obtain ⟨hprev, hnext, hvalley⟩ := hitHere_loadCur_iff.1 hhit
    obtain ⟨hdf, hcrc⟩ := accepted_iff.1 hacc
    rw [frameByte_loadCur] at hdf
    rw [candidate_loadCur] at hcrc
    rcases hno with hno | hno | hno
    · exact hno ⟨hprev, hnext, peakOk_iff.1 hvalley⟩
    · exact hno hdf
    · exact hno hcrc
  refine ⟨fun u hu => ?_, fun st u hu hend => ?_, fun u hu hk he => ?_, fun hpos => ?_⟩
  · refine (execDmNext_stepped ht hf hfull hno' hu).trans ?_
    rw [peakSum_loadCur, loadCur_eq]
    rfl
  · have hends : u.endless = false ∨ u.leFits = true ∨ u.fatal = true := by
      rcases wstep_ended hu with ⟨rfl, rfl⟩ | ⟨hfatal, -, -⟩
      · refine .inl (Bool.eq_false_iff.2 fun h => ?_)
        rw [loadCur_endless, State.endless_iff] at h
        simp [h] at hend
      · exact .inr (.inr hfatal)
    refine (execDmNext_failed ht hf hfull hno' hu).trans ?_
    rw [endScan_ends st hends, Flow.close_ended, State.finish_zero]
  · obtain ⟨hpos, rfl⟩ := wstep_ended_overflow hu
    refine (execDmNext_failed ht hf hfull hno' hu).trans ?_
    rw [endScan_stuck .overflow (by simp [State.endless_iff, hk, he]) (leFits_of_pos_allOnes hpos) (by simpa using hf),
      Flow.close_stuck]
  · have hstep := wstep_inside (s := loadCur s) (by simpa using hpos)
    rwa [loadCur_pos] at hstep

/-- Settles O35: the round takes the frame, and its skip moves `POS` alone. -/
theorem dmNextDeliversFrame : Obligations.DmNextDeliversFrame := by
  intro s w pk0 pk1 vl0 ht hf hbb hle hw hpk0 hpk1 hvl0 hprev hnext hvalley hdf hcrc hlast hskip
  obtain ⟨rfl, rfl, rfl⟩ := sums_eq_of_window hw hpk0 hpk1 hvl0
  have hfull : isFull s = true := decide_eq_true (by omega)
  have hhit : hitHere (loadCur s) = true := hitHere_loadCur_iff.2 ⟨hprev, hnext, peakOk_iff.2 hvalley⟩
  have hacc : accepted (loadCur s) = true := accepted_iff.2 ⟨by simpa using hdf, by simpa using hcrc⟩
  have hread : ∀ k, k < 14 → (deliver (loadCur s)).bb.read k = frameByte s k := fun k hk => by
    rw [read_deliver (by simpa using hbb) hk, frameByte_loadCur]
  have hsteps := wsteps_inside (s := deliver (loadCur s)) (n := s.params.frameSkip.toNat) (by simpa using hskip)
  have hx : exec .dmNext s = _ := execDmNext_delivered ht hf hfull hhit hacc hlast hsteps
  refine ⟨_, hx, ?_, fun k hk => ?_, fun k hk => ?_, fun a ha => ?_⟩
  · rw [deliver, timestamp_eq, loadCur_eq, BitVec.ofNat_toNat]
  · dsimp only
    rw [hread _ (by omega), getLsbD_frameByte s _ (Nat.mod_lt k (by decide)), Nat.div_add_mod, frameBit_eq, hw, hw]
  · dsimp only
    rw [hread k hk]
    simp [candidate, hk, frameBytes]
  · dsimp only
    rw [read_deliver_beyond (loadCur s) ha, loadCur_bb]

/-- Settles O36: the round takes the frame, which ends the command with OVERFLOW or as its skip does. -/
theorem dmNextFrameSkipOutcomes : Obligations.DmNextFrameSkipOutcomes := by
  intro s s1 d ht hf hfull hs1 hhit hacc hd
  subst hs1 hd
  have hx : exec .dmNext s = (takeFrame (loadCur s)).close := execDmNext_hit ht hf hfull hhit hacc
  refine ⟨fun hlast => ?_, fun hlast => ⟨fun st u hu => ?_, fun u hu => ?_⟩⟩
  · rw [hx, takeFrame_late (by simpa using hlast), Flow.close_ended, State.finish_zero]
  · have hframe := slotKept_wsteps (n := s.params.frameSkip.toNat) (t := u) (by rw [hu]; rfl)
    refine ⟨?_, hframe.bb, hframe.fts, hframe.frameValid⟩
    rw [hx, takeFrame_stamped (by simpa using hlast), loadCur_params, hu, Flow.bind_ended, Flow.close_ended,
      State.finish_zero]
  · exact execDmNext_delivered ht hf hfull hhit hacc hlast hu

/-- Settles O33: a scan that begins with a window that is not full makes no round. -/
theorem dmNextEndsWhenNotFull : Obligations.DmNextEndsWhenNotFull := by
  intro s ht hf hle
  have hx : exec .dmNext s = (endScan .eos s).close := execDmNext_notFull ht hf (decide_eq_false (by omega))
  refine ⟨fun h => ?_, fun hk he hpos => ?_⟩
  · have hends : s.endless = false ∨ s.leFits = true ∨ s.fatal = true := by
      rw [← Bool.not_eq_true, State.endless_iff, State.leFits_iff]
      rcases h with h | h | h
      · exact .inl fun hend => h hend.1
      · exact .inl fun hend => by simp [h] at hend
      · exact .inr (.inl h)
    rw [hx, endScan_ends .eos hends, Flow.close_ended, State.finish_zero]
  · have hfit : s.leFits = false := by
      rw [← Bool.not_eq_true, State.leFits_iff]
      exact Nat.not_lt.2 hpos
    rw [hx, endScan_stuck .eos (State.endless_iff.2 ⟨hk, he⟩) hfit hf, Flow.close_stuck]

end Sys2Proof.Machine

/-! DM_NEXT on two byte buffers: it reads neither, and a frame it delivers is the same on both (46_preamble_detector.md R287,
R291). -/

namespace Sys2Proof.Machine

open Sys2Proof.Config

section

variable {r : Word64} {l : Status} {m : Memory} {q : List HostAct} {s t u : State} {st : Status} {n : Nat}
  {x x' : Flow Word64}

/-! The detector does not read `BB`. -/

theorem loadCur_over (s : State) : loadCur (s.over r l m q) = (loadCur s).over r l m q := by
  simp only [loadCur_eq]
  rfl

theorem endScan_over (st : Status) (s : State) :
    endScan st (s.over r l m q) = (endScan st s).onState (·.over r l m q) := by
  unfold endScan
  show (if s.endless && !s.leFits && !s.fatal then _ else _) = _
  split <;> rfl

/-- A frame delivered into another `BB`. -/
theorem deliver_over (s : State) :
    deliver (s.over r l m q) = (deliver s).over r l (Memory.writeList m 0 (candidate s)) q := rfl

/-! What only a delivery writes. -/

theorem slotKept_endScan (hl : (endScan st s).Leaves t) : s.SlotKept t := leaves_endScan hl ▸ .refl s

theorem slotKept_loadCur (s : State) : s.SlotKept (loadCur s) := ⟨by simp, by simp, by simp, by simp⟩

/-- A run of window steps ends a command with OVERFLOW or a fatal status. -/
theorem wsteps_ended_status (h : wsteps n s = .ended st t) : st = .overflow ∨ st = .ioError ∨ st = .sampleRange := by
  induction n generalizing s with
  | zero => simp [wsteps] at h
  | succ n ih =>
    simp only [wsteps] at h
    cases hw : wstep s with
    | stuck why => simp [hw] at h
    | ok v s1 => exact ih (by simpa [hw] using h)
    | ended st' s1 =>
      simp only [hw, Flow.ended.injEq] at h
      obtain ⟨rfl, rfl⟩ := h
      exact (wstep_ended hw).imp And.left (·.2.2)

/-- `t` holds the frame `bs` that was delivered over the `BB` of `s`. -/
structure State.SlotTook (bs : List Byte) (s t : State) : Prop where
  bb : t.bb = Memory.writeList s.bb 0 bs
  frameValid : t.frameValid = true
  queue : t.queue = s.queue

theorem State.SlotTook.of_deliver (h : (deliver s).SlotKept t) : s.SlotTook (candidate s) t :=
  ⟨h.bb, h.frameValid, h.queue⟩

theorem State.SlotKept.trans_took {bs : List Byte} (h : s.SlotKept t) (h' : t.SlotTook bs u) : s.SlotTook bs u :=
  ⟨by rw [h'.bb, h.bb], h'.frameValid, h'.queue.trans h.queue⟩

/-! The two runs. -/

/-- From `s` the detector does `x`, and from `s` with another `BB` it does `x'`: the same, either with no delivery, or with
the delivery of one frame to both, and then it does not end with EOS. -/
inductive BlindToBuffer (r : Word64) (l : Status) (m : Memory) (q : List HostAct) (s : State) (x x' : Flow Word64) : Prop
  | kept (same : x' = x.onState (·.over r l m q)) (keeps : ∀ t, x.Leaves t → s.SlotKept t)
  | took (bs : List Byte) (frame : bs.length = frameBytes)
      (same : x' = x.onState (·.over r l (Memory.writeList m 0 bs) q))
      (takes : ∀ t, x.Leaves t → s.SlotTook bs t) (noEos : ∀ t, x ≠ .ended .eos t)

/-- The detector may have written its own sums and moved the window before. -/
theorem BlindToBuffer.after (hs : s.SlotKept u) (h : BlindToBuffer r l m q u x x') : BlindToBuffer r l m q s x x' := by
  cases h with
  | kept same keeps => exact .kept same fun t hl => hs.trans (keeps t hl)
  | took bs frame same takes noEos => exact .took bs frame same (fun t hl => hs.trans_took (takes t hl)) noEos

theorem blind_endScan (st : Status) (s : State) :
    BlindToBuffer r l m q s (endScan st s) (endScan st (s.over r l m q)) :=
  .kept (endScan_over st s) fun _ => slotKept_endScan

theorem blind_takeFrame (s : State) : BlindToBuffer r l m q s (takeFrame s) (takeFrame (s.over r l m q)) := by
  by_cases hlast : lastStampedPos < s.pos.toNat
  · have hover : takeFrame (s.over r l m q) = .ended .overflow (s.over r l m q) := takeFrame_late hlast
    rw [takeFrame_late hlast, hover]
    exact .kept rfl fun t hl => hl ▸ .refl s
  · have hstamp := Nat.not_lt.1 hlast
    have hover : takeFrame (s.over r l m q) = (wsteps s.params.frameSkip.toNat (deliver (s.over r l m q))).bind
        fun _ s' => .ok (timestamp s) (forgetSums s') := takeFrame_stamped hstamp
    rw [takeFrame_stamped hstamp, hover, deliver_over, wsteps_over]
    refine .took (candidate s) (length_candidate s) (Flow.onState_bind _ fun _ _ => rfl) (fun t hl => ?_) (fun t ht => ?_)
    · rcases Flow.leaves_bind hl with ⟨st, he⟩ | ⟨_, u, hu, rfl⟩
      · exact .of_deliver (slotKept_wsteps (by rw [he]; rfl))
      · exact .of_deliver { slotKept_wsteps (t := u) (by rw [hu]; rfl) with }
    · cases hw : wsteps s.params.frameSkip.toNat (deliver s) with
      | ok v u => simp [hw] at ht
      | stuck why => simp [hw] at ht
      | ended st u =>
        simp only [hw, Flow.bind_ended, Flow.ended.injEq] at ht
        simpa [ht.1] using wsteps_ended_status hw

theorem blind_scan (n : Nat) (s : State) : BlindToBuffer r l m q s (scan n s) (scan n (s.over r l m q)) := by
  induction n generalizing s with
  | zero => exact blind_endScan .overflow s
  | succ n ih =>
    have hfull : isFull (s.over r l m q) = isFull s := rfl
    have htests : ∀ u : State, (hitHere (u.over r l m q) && accepted (u.over r l m q)) = (hitHere u && accepted u) :=
      fun _ => rfl
    simp only [scan, hfull, loadCur_over, htests, wstep_over]
    split
    · exact blind_endScan .eos s
    · split
      · exact (blind_takeFrame (loadCur s)).after (slotKept_loadCur s)
      · have hstep : ∀ u, (wstep (loadCur s)).Leaves u → s.SlotKept u := fun u hu =>
          (slotKept_loadCur s).trans (slotKept_wstep hu)
        cases hw : wstep (loadCur s) with
        | stuck why => exact .kept rfl fun t hl => hl.elim
        | ended st u => exact (blind_endScan st u).after (hstep u (by rw [hw]; rfl))
        | ok v u =>
          have hkept : s.SlotKept (shiftSums (loadCur s).curSum (peakSum (loadCur s) 1) u) :=
            { hstep u (by rw [hw]; rfl) with }
          exact (ih _).after hkept

theorem blind_streamUnit {o : Op} {body : State → Flow Word64}
    (h : BlindToBuffer r l m q s (body s) (body (s.over r l m q))) :
    BlindToBuffer r l m q s (streamUnit o s body) (streamUnit o (s.over r l m q) body) := by
  cases ht : s.tap.allows o with
  | false =>
    rw [streamUnit_wrongTap body ht, streamUnit_wrongTap (s := s.over r l m q) body ht]
    exact .kept rfl fun t hl => hl ▸ .refl s
  | true =>
    cases hf : s.fatal with
    | true =>
      rw [streamUnit_fatal body ht hf, streamUnit_fatal (s := s.over r l m q) body ht hf]
      exact .kept rfl fun t hl => hl ▸ .refl s
    | false =>
      rw [streamUnit_open body ht hf, streamUnit_open (s := s.over r l m q) body ht hf]
      exact h

/-! The command's end on both. -/

/-- With the queue kept, the two closed states differ in `BB` alone. -/
theorem close_over_next (hx : x.close = .next t) (hq : ∀ u, x.Leaves u → u.queue = q) :
    (x.onState (·.over r l m q)).close = .next { t with bb := m } := by
  have hover : ∀ u : State, x.Leaves u → ∀ st v, (u.over r l m q).finish st v = { u.finish st v with bb := m } := by
    intro u hu st v
    obtain rfl := hq u hu
    rfl
  cases x with
  | ok v u =>
    rw [Flow.close_ok, Host.Outcome.next.injEq] at hx
    exact hx ▸ congrArg Host.Outcome.next (hover u rfl .ok v)
  | ended st u =>
    rw [Flow.close_ended, Host.Outcome.next.injEq] at hx
    exact hx ▸ congrArg Host.Outcome.next (hover u rfl st 0)
  | stuck why => rw [Flow.close_stuck] at hx; cases hx

theorem close_onState_fault {g : State → State} {why : Fault} (hx : x.close = .fault why) :
    (x.onState g).close = .fault why := by
  cases x with
  | stuck why' => exact hx
  | ok v u => rw [Flow.close_ok] at hx; cases hx
  | ended st u => rw [Flow.close_ended] at hx; cases hx

/-- A command that closes with EOS has ended with it. -/
theorem close_eos (hx : x.close = .next t) (ht : t.lastSt = .eos) : ∃ u, x = .ended .eos u := by
  cases x with
  | ok v u =>
    rw [Flow.close_ok, Host.Outcome.next.injEq] at hx
    simp [← hx] at ht
  | ended st u =>
    rw [Flow.close_ended, Host.Outcome.next.injEq] at hx
    subst hx
    exact ⟨u, by rw [← show st = .eos from ht]⟩
  | stuck why => rw [Flow.close_stuck] at hx; cases hx

end

/-- Settles O37: the rounds do not read `BB`, and a delivered frame is the window's. -/
theorem detectorIgnoresByteBuffer : Obligations.DetectorIgnoresByteBuffer := by
  intro s m
  have hblind : BlindToBuffer s.res s.lastSt m s.queue s
      (streamUnit .dmNext s fun s => scan (2 ^ 64 - s.pos.toNat) s)
      (streamUnit .dmNext { s with bb := m } fun s => scan (2 ^ 64 - s.pos.toNat) s) :=
    blind_streamUnit (blind_scan (2 ^ 64 - s.pos.toNat) s)
  refine ⟨fun t hx => ?_, fun why hx => ?_⟩
  · obtain ⟨u, st, v, hl, ht⟩ := Flow.close_next hx
    cases hblind with
    | kept same keeps =>
      have hkept := keeps u hl
      have hbb : t.bb = s.bb := by rw [ht]; exact hkept.bb
      refine ⟨m, ?_, .inl ⟨hbb, rfl⟩, fun _ => ⟨hbb, rfl⟩, fun _ => by rw [ht]; exact hkept.frameValid⟩
      exact (congrArg Flow.close same).trans (close_over_next hx fun u hu => (keeps u hu).queue)
    | took bs frame same takes noEos =>
      have htook := takes u hl
      have hbb : t.bb = Memory.writeList s.bb 0 bs := by rw [ht]; exact htook.bb
      have hvalid : t.frameValid = true := by rw [ht]; exact htook.frameValid
      have heos : t.lastSt ≠ .eos := fun h => by
        obtain ⟨u, hu⟩ := close_eos hx h
        exact noEos u hu
      refine ⟨Memory.writeList m 0 bs, ?_, .inr ⟨hvalid, fun hs hm k hk => ?_, fun a ha => ⟨?_, ?_⟩⟩, fun h => ?_,
        fun h => absurd h heos⟩
      · exact (congrArg Flow.close same).trans (close_over_next hx fun u hu => (takes u hu).queue)
      · rw [hbb, read_writeSlot hm frame hk, read_writeSlot hs frame hk]
      · exact read_writeSlot_beyond frame ha
      · rw [hbb, read_writeSlot_beyond frame ha]
      · simp [hvalid, heos] at h
  · cases hblind with
    | kept same _ => exact (congrArg Flow.close same).trans (close_onState_fault hx)
    | took bs _ same _ _ => exact (congrArg Flow.close same).trans (close_onState_fault hx)

end Sys2Proof.Machine

/-! The frame fields of the slot and its CRC (47_frame_fields.md R311 to R316). -/

namespace Sys2Proof.Machine

open Sys2Proof.Config

/-- The top five bits of a byte, as a result (R311, R314). -/
theorem toNat_topFiveBits (b : Byte) : ((b >>> 3).setWidth 64).toNat = b.toNat / 8 := by
  rw [BitVec.toNat_setWidth_of_le (by decide), BitVec.toNat_ushiftRight, Nat.shiftRight_eq_div_pow]

/-- The bytes after the first weigh less than one unit of it. -/
theorem beNat_cons_div (b : Byte) (bs : List Byte) : beNat (b :: bs) / 256 ^ bs.length = b.toNat := by
  rw [beNat_cons, Nat.mul_comm, Nat.mul_add_div (by positivity), Nat.div_eq_of_lt (beNat_lt bs), Nat.add_zero]

/-- The top five bits of the seven bytes from `a` on are those of the first (R73, R314). -/
theorem beNat_readList_seven_div (m : Memory) (a : Nat) :
    beNat (m.readList a 7) / 2 ^ 51 = (m.read a).toNat / 8 := by
  have hfirst : beNat (m.readList a 7) / 256 ^ 6 = (m.read a).toNat := by
    simpa [Memory.readList] using beNat_cons_div (m.read a) (m.readList (a + 1) 6)
  rw [show 2 ^ 51 = 256 ^ 6 * 8 by norm_num, ← Nat.div_div_eq_div_mul, hfirst]

/-- Settles O50: each accessor closes with its field, and the bytes of FR_ICAO and FR_ME fit the result. -/
theorem frameFieldsOfSlot : Obligations.FrameFieldsOfSlot := by
  intro s b hb
  have hme := toNat_ofNat_beNat_readList s.bb 4 (n := 7) (by decide)
  refine ⟨(s.bb.read 0 >>> 3).setWidth 64, BitVec.ofNat 64 (beNat (s.bb.readList 1 3)),
    BitVec.ofNat 64 (beNat (s.bb.readList 4 7)), (s.bb.read 4 >>> 3).setWidth 64,
    rfl, ?df, rfl, ?icao, rfl, ?me, rfl, ?tc, ?tcOfMe⟩
  case df => rw [hb, toNat_topFiveBits]
  case icao =>
    rw [toNat_ofNat_beNat_readList _ _ (by decide)]
    simp only [Memory.readList, beNat, List.foldl_cons, List.foldl_nil, Nat.reduceAdd, hb]
    omega
  case me =>
    rw [hme]
    simp only [Memory.readList, beNat, List.foldl_cons, List.foldl_nil, Nat.reduceAdd, hb]
    omega
  case tc => rw [hb, toNat_topFiveBits]
  case tcOfMe => rw [toNat_topFiveBits, hme, beNat_readList_seven_div]

/-- Settles O51: the slot is the 14 bytes that FR_CHECK reads, and either way the command closes with RES = 0. -/
theorem frCheckTestsCrc : Obligations.FrCheckTestsCrc := by
  intro s f hf
  have hslot : memRead s 0 frameBytes = f := by
    rw [hf]
    simp [memRead, Memory.readList_eq_map, frameBytes]
  simp only [exec, execFrCheck, hslot]
  refine ⟨fun h => ?_, fun h => ?_⟩
  · rw [if_pos h, Flow.close_ok, State.finish_ok]
  · rw [if_neg h, Flow.close_ended, State.finish_zero]

end Sys2Proof.Machine

/-! The altitude decoder (48_gray_altitude.md R330 to R337): ALT_DEC by what `altFeet` answers, and the Gray code. -/

namespace Sys2Proof.Machine

open Sys2Proof.Config

/-! ALT_DEC, case by case (R337). -/

/-- The reserved bits IMM16[15:12] are zero exactly when the operand is a 12-bit field. -/
theorem extractLsb'_aboveField_eq_zero_iff (imm : BitVec 16) : imm.extractLsb' 12 4 = 0 ↔ imm.toNat < 4096 := by
  have := imm.isLt
  rw [← BitVec.toNat_inj, BitVec.extractLsb'_toNat, Nat.shiftRight_eq_div_pow]
  show imm.toNat / 4096 % 16 = 0 ↔ imm.toNat < 4096
  omega

theorem getLsbD_altField (imm : BitVec 16) {k : Nat} (hk : k < 12) :
    (imm.extractLsb' 0 12).getLsbD k = imm.getLsbD k := by simp [hk]

section

variable {s : State} {imm : BitVec 16}

theorem execAltDec_reserved (h : imm.toNat ≥ 4096) :
    execAltDec imm s = .next { s with res := 0, lastSt := .reservedField } := by
  rw [execAltDec, if_pos (mt (extractLsb'_aboveField_eq_zero_iff imm).1 (by omega)), Flow.close_ended, State.finish_zero]

theorem execAltDec_invalid (h : imm.toNat < 4096) (hft : altFeet s.params.altRule (imm.extractLsb' 0 12) = none) :
    execAltDec imm s = .next { s with res := 0, lastSt := .noMsg } := by
  rw [execAltDec, if_neg (not_not.2 ((extractLsb'_aboveField_eq_zero_iff imm).2 h)), hft, Flow.close_ended,
    State.finish_zero]

/-- The result carries the altitude, which is far inside 64 bits. -/
theorem execAltDec_altitude (h : imm.toNat < 4096) {ft : Int}
    (hft : altFeet s.params.altRule (imm.extractLsb' 0 12) = some ft) (hlo : -2 ^ 63 ≤ ft) (hhi : ft < 2 ^ 63) :
    ∃ v : Word64, execAltDec imm s = .next { s with res := v, lastSt := .ok } ∧ v.toInt = ft := by
  refine ⟨BitVec.ofInt 64 ft, ?_, BitVec.toInt_ofInt_eq_self (by decide) hlo hhi⟩
  rw [execAltDec, if_neg (not_not.2 ((extractLsb'_aboveField_eq_zero_iff imm).2 h)), hft, Flow.close_ok, State.finish_ok]

end

/-! The direct code (R331). -/

theorem altFeet_direct {r : AltRule} {f : BitVec 12} (h : f.getLsbD 4 = true) : altFeet r f = some (altQ1 f) := if_pos h

theorem altQ1_altField {imm : BitVec 16} (h : imm.toNat < 4096) :
    altQ1 (imm.extractLsb' 0 12) = -1000 + 25 * ((imm.toNat / 32 * 16 + imm.toNat % 16 : Nat) : Int) := by
  have hcode : ((imm.extractLsb' 0 12).extractLsb' 5 7 ++ (imm.extractLsb' 0 12).extractLsb' 0 4).toNat =
      imm.toNat / 32 * 16 + imm.toNat % 16 := by
    simp only [toNat_append_eq_add, BitVec.extractLsb'_toNat, Nat.shiftRight_eq_div_pow]
    omega
  rw [altQ1, hcode]

/-- Settles O52: the operand is refused above 12 bits, and with the Q bit set `altFeet` answers with the direct code. -/
theorem altDecDirectCode : Obligations.AltDecDirectCode := by
  refine fun s imm => ⟨execAltDec_reserved, fun h hq => ?_⟩
  have hft := altFeet_direct (r := s.params.altRule) ((getLsbD_altField imm (k := 4) (by decide)).trans hq)
  rw [altQ1_altField h] at hft
  obtain ⟨v, hx, hv⟩ := execAltDec_altitude h hft (by omega) (by omega)
  exact ⟨v, hx, hv, by omega, by omega⟩

/-! Numbers and their bits. -/

/-- The number whose bits below `n` are those of `b`, as `GRAY_DECODE` sums it up (R333). -/
def valueOfBits (b : Nat → Bool) (n : Nat) : Nat := (List.range n).foldl (fun v i => v + (b i).toNat * 2 ^ i) 0

theorem valueOfBits_succ (b : Nat → Bool) (n : Nat) :
    valueOfBits b (n + 1) = 2 ^ n * (b n).toNat + valueOfBits b n := by
  simp only [valueOfBits, List.range_succ, List.foldl_append, List.foldl_cons, List.foldl_nil]
  ring

theorem valueOfBits_lt (b : Nat → Bool) (n : Nat) : valueOfBits b n < 2 ^ n := by
  induction n with
  | zero => exact Nat.one_pos
  | succ n ih =>
    rw [valueOfBits_succ, pow_succ]
    have := Nat.mul_le_mul_left (2 ^ n) (b n).toNat_le
    omega

theorem testBit_valueOfBits (b : Nat → Bool) (n j : Nat) :
    (valueOfBits b n).testBit j = (decide (j < n) && b j) := by
  induction n with
  | zero => simp [valueOfBits]
  | succ n ih =>
    rw [valueOfBits_succ, Nat.testBit_two_pow_mul_add _ (valueOfBits_lt b n), ih]
    rcases Nat.lt_trichotomy j n with hlt | rfl | hgt
    · simp [hlt, Nat.lt_succ_of_lt hlt]
    · cases b j <;> simp
    · rw [if_neg (by omega), Nat.testBit_lt_two_pow ((b n).toNat_lt.trans_le (Nat.le_self_pow (by omega) 2))]
      simp [show ¬ j < n + 1 by omega]

/-- The XOR of the bits from `i` up to, not including, `n`, as `GRAY_DECODE` folds it (R333). -/
def xorFrom (b : Nat → Bool) (i n : Nat) : Bool :=
  (List.range n).foldl (fun x j => if i ≤ j then xor x (b j) else x) false

theorem xorFrom_succ (b : Nat → Bool) (i n : Nat) :
    xorFrom b i (n + 1) = (xorFrom b i n ^^ (decide (i ≤ n) && b n)) := by
  simp only [xorFrom, List.range_succ, List.foldl_append, List.foldl_cons, List.foldl_nil]
  split
  · next hle => simp [hle]
  · next hgt => simp [hgt]

/-- Two neighbouring XORs differ in the one bit between them. -/
theorem xorFrom_xor_next (b : Nat → Bool) (i n : Nat) :
    (xorFrom b i n ^^ xorFrom b (i + 1) n) = (decide (i < n) && b i) := by
  induction n with
  | zero => rfl
  | succ n ih =>
    have hsplit : (xorFrom b i (n + 1) ^^ xorFrom b (i + 1) (n + 1)) =
        ((decide (i < n) && b i) ^^ ((decide (i ≤ n) && b n) ^^ (decide (i + 1 ≤ n) && b n))) := by
      rw [← ih, xorFrom_succ, xorFrom_succ]
      simp only [Bool.xor_assoc, Bool.xor_left_comm]
    rw [hsplit]
    rcases Nat.lt_trichotomy i n with hlt | rfl | hgt
    · simp [hlt, hlt.le, Nat.lt_succ_of_lt hlt, Nat.succ_le_of_lt hlt]
    · simp
    · simp [show ¬ i < n by omega, show ¬ i ≤ n by omega, show ¬ i < n + 1 by omega, show ¬ i + 1 ≤ n by omega]

theorem xorFrom_eq_false {b : Nat → Bool} {i : Nat} (h : ∀ j, i ≤ j → b j = false) (n : Nat) :
    xorFrom b i n = false := by
  induction n with
  | zero => rfl
  | succ n ih =>
    rw [xorFrom_succ, ih]
    by_cases hi : i ≤ n
    · simp [h n hi]
    · simp [hi]

/-! The Gray code (R333). -/

section

variable {n : Nat}

theorem testBit_grayDecode (g : BitVec n) (j : Nat) : (grayDecode g).testBit j = grayBit g j := by
  show (valueOfBits (grayBit g) n).testBit j = _
  rw [testBit_valueOfBits]
  by_cases hj : j < n
  · simp [hj]
  · have htop : grayBit g j = false := xorFrom_eq_false (fun k hk => g.getLsbD_of_ge k (by omega)) n
    simp [htop]

/-- The decoded value's Gray code, the value XOR its half, is the code that was decoded. -/
theorem grayDecode_xor_half (g : BitVec n) : grayDecode g ^^^ (grayDecode g / 2) = g.toNat := by
  apply Nat.eq_of_testBit_eq
  intro j
  rw [Nat.testBit_xor, Nat.testBit_div_two, testBit_grayDecode, testBit_grayDecode, BitVec.testBit_toNat]
  show (xorFrom g.getLsbD j n ^^ xorFrom g.getLsbD (j + 1) n) = _
  rw [xorFrom_xor_next]
  by_cases hj : j < n
  · simp [hj]
  · simp [g.getLsbD_of_ge j (by omega)]

theorem grayDecode_lt {g : BitVec n} {m : Nat} (h : g.toNat < 2 ^ m) : grayDecode g < 2 ^ m := by
  refine Nat.lt_pow_two_of_testBit _ fun j hj => ?_
  rw [testBit_grayDecode]
  refine xorFrom_eq_false (fun k hk => ?_) n
  rw [← BitVec.testBit_toNat]
  exact Nat.testBit_lt_two_pow (h.trans_le (Nat.pow_le_pow_right (by decide) (hj.trans hk)))

end

/-! The two groups of the field, and the altitude (R332, R334 to R336). -/

theorem toNat_extractLsb'_one {n : Nat} (x : BitVec n) (k : Nat) :
    (x.extractLsb' k 1).toNat = (x.getLsbD k).toNat := by
  rw [BitVec.extractLsb'_toNat, Nat.shiftRight_eq_div_pow, pow_one, BitVec.getLsbD, Nat.toNat_testBit]

section

variable {imm : BitVec 16} {f : Nat → Nat}

theorem toNat_coarseGray (hf : ∀ k, f k = (imm.getLsbD k).toNat) : (coarseGray (imm.extractLsb' 0 12)).toNat =
    256 * f 4 + 128 * f 2 + 64 * f 0 + 32 * f 10 + 16 * f 8 + 8 * f 6 + 4 * f 5 + 2 * f 3 + f 1 := by
  simp (disch := decide) only [coarseGray, toNat_append_eq_add, toNat_extractLsb'_one, getLsbD_altField, ← hf]
  omega

theorem toNat_fineGray (hf : ∀ k, f k = (imm.getLsbD k).toNat) :
    (fineGray (imm.extractLsb' 0 12)).toNat = 4 * f 11 + 2 * f 9 + f 7 := by
  simp (disch := decide) only [fineGray, toNat_append_eq_add, toNat_extractLsb'_one, getLsbD_altField, ← hf]
  omega

end

theorem altInvalid_iff {r : AltRule} {coarse fine : Nat} :
    altInvalid r coarse fine = true ↔ fine = 0 ∨ fine = 5 ∨ (r = .doc ∧ coarse = 6) ∨ (r = .gillham ∧ fine = 6) := by
  cases r <;> simp [altInvalid, or_assoc]

theorem altGray_eq (coarse fine : Nat) : altGray coarse fine = -1300 + 500 * (coarse : Int) + 100 *
    (if coarse % 2 = 1 then 6 - (if fine = 7 then 5 else (fine : Int)) else (if fine = 7 then 5 else (fine : Int))) := by
  unfold altGray remapFine
  ring

/-- With the Q bit clear an altitude is the Gray pair's, unless ALT_RULE calls the pair invalid (R333 to R336). -/
theorem altFeet_gray {r : AltRule} {f : BitVec 12} (h : f.getLsbD 4 = false) :
    altFeet r f = if altInvalid r (grayDecode (coarseGray f)) (grayDecode (fineGray f)) then none
      else some (altGray (grayDecode (coarseGray f)) (grayDecode (fineGray f))) :=
  if_neg (by simp only [h, Bool.false_eq_true, not_false_eq_true])

/-- Settles O53: the groups are the Gray codes of what they decode to, and with the Q bit clear the coarse one is below
256. -/
theorem altDecGrayCode : Obligations.AltDecGrayCode := by
  intro s imm f h hq hf
  have hft := altFeet_gray (r := s.params.altRule) ((getLsbD_altField imm (k := 4) (by decide)).trans hq)
  have hcoarse := toNat_coarseGray hf
  have hfine := toNat_fineGray hf
  have hbit : ∀ k, f k ≤ 1 := fun k => hf k ▸ Bool.toNat_le _
  have hq0 : f 4 = 0 := by rw [hf, hq]; rfl
  have hclt : grayDecode (coarseGray (imm.extractLsb' 0 12)) < 2 ^ 8 := grayDecode_lt (by
    linarith [hbit 2, hbit 0, hbit 10, hbit 8, hbit 6, hbit 5, hbit 3, hbit 1])
  have hflt : grayDecode (fineGray (imm.extractLsb' 0 12)) < 2 ^ 3 := grayDecode_lt (BitVec.isLt _)
  refine ⟨_, _, hclt, hflt, ?_, ?_, fun hinv => ?_, fun hval => ?_⟩
  · rw [grayDecode_xor_half, hcoarse, hq0, Nat.mul_zero, Nat.zero_add]
  · rw [grayDecode_xor_half, hfine]
  · rw [if_pos (altInvalid_iff.2 hinv)] at hft
    exact execAltDec_invalid h hft
  · rw [if_neg (mt altInvalid_iff.1 hval), altGray_eq] at hft
    refine execAltDec_altitude h hft ?_ ?_
    · split <;> split <;> omega
    · split <;> split <;> omega

end Sys2Proof.Machine

/-! The external reset (70_reset_and_hazards.md R390 to R393). -/

namespace Sys2Proof.Machine

open Sys2Proof.Config

theorem step_reset {s : State} {lost : Nat} {rest : List HostAct} (h : s.queue = .reset lost :: rest) :
    step s = .next (assertReset lost { s with queue := rest }) := by
  unfold step
  rw [h]

/-- The events lost are the first of those lined up; a port that does not wait goes on giving events (R81; log 10). -/
theorem Port.lose_eq (n : Nat) (p : Port) :
    p.lose n =
      { ahead := p.ahead.drop n, rest := p.rest,
        taken := p.taken + if p.rest = .waits then min n p.ahead.length else n } := by
  induction n generalizing p with
  | zero => simp [Port.lose]
  | succ n ih =>
    cases hp : p.take with
    | none =>
      obtain ⟨ha, hr⟩ := Port.take_none hp
      obtain ⟨ahead, rest, taken⟩ := p
      obtain rfl : ahead = [] := ha
      obtain rfl : rest = .waits := hr
      simp [Port.lose, hp]
    | some ep =>
      obtain ⟨e, p'⟩ := ep
      simp only [Port.lose, hp, ih]
      obtain ⟨ht, hr, ha | ⟨ha, ha', hw⟩⟩ := Port.take_cases hp
      · simp only [ha, ht, hr, List.drop_succ_cons, List.length_cons, Port.mk.injEq, true_and]
        split <;> omega
      · simp only [ha, ha', ht, hr, if_neg hw, List.drop_nil, Port.mk.injEq, true_and]
        omega

/-- The CSRs from STATUS to PCH7 read no parameter and nothing of the host (R46 to R54). -/
theorem csrValue_assertReset (lost : Nat) (s : State) {n : Nat} (h : n ≤ 15) :
    csrValue n (assertReset lost s) = csrValue n State.reset := by
  interval_cases n <;> rfl

theorem csrValue_reset : ∀ n ≤ 15, csrValue n State.reset = some 0 := by decide

/-- Settles O7: the elements by definition, the port by the events lost, and the CSRs by what they read of a reset state. -/
theorem externalResetGivesResetValues : Obligations.ExternalResetGivesResetValues := by
  intro s lost rest h
  refine ⟨_, step_reset h, ?_, ?_,
    fun n hn => exec_csrr_of_some ((csrValue_assertReset lost _ hn).trans (csrValue_reset n hn)),
    exec_csrr_of_some rfl, exec_csrr_of_some rfl, fun _ => ⟨rfl, rfl, rfl⟩⟩
  · simp only [assertReset, State.reset, Port.lose_eq]
  · rintro rfl
    rfl

/-- Settles O8: what INIT IDLE clears a reset has cleared already, and neither INIT's own writes nor its fills reach `BB`. -/
theorem resetThenInitIdleIsReset : Obligations.ResetThenInitIdleIsReset :=
  ⟨fun _ _ => rfl, fun _ _ _ _ hx => execInit_bb hx⟩

end Sys2Proof.Machine

/-! What an INIT that ends with OK leaves: a window on the bytes its fills took, and the launch premises
(70_reset_and_hazards.md R391, R396). -/

namespace Sys2Proof.Machine

open Sys2Proof.Config

section

variable {tap : Nat} {w : Int} {tp : Tap} {s t : State}

/-! INIT, inverted by its status (R141). -/

/-- An INIT that is not refused clears the chain for the TAP its operands name, and closes with its initial fill. -/
theorem execInit_of_ne_invalidArgument (hx : execInit tap w s = .next t) (hst : t.lastSt ≠ .invalidArgument) :
    ∃ tp, Tap.ofCode tap = some tp ∧ initArgOk tp w = true ∧
      ((initFill tp (clearChain tp w s)).bind fun _ s => .ok (0 : Word64) s).close = .next t := by
  by_cases hacc : ∃ tp, Tap.ofCode tap = some tp ∧ initArgOk tp w = true
  · obtain ⟨tp, htp, hok⟩ := hacc
    exact ⟨tp, htp, hok, execInit_accepted htp hok ▸ hx⟩
  · rw [execInit_refused (fun tp htp => by simpa using fun hok => hacc ⟨tp, htp, hok⟩), Host.Outcome.next.injEq] at hx
    exact absurd (hx ▸ rfl) hst

/-- An initial fill that ends INIT ends it with a fatal status (R358). -/
theorem initFill_ended_ne_ok {st : Status} (h : initFill tp s = .ended st t) : st ≠ .ok := by
  have hfatal : ∀ b (s : State), fill b s = .ended st t → st ≠ .ok := fun b s hb => by
    rcases (fillSlots_ended_fatal hb).2.2 with rfl | rfl <;> decide
  have hboth : fillInitial s = .ended st t → st ≠ .ok := fun hf => by
    unfold fillInitial at hf
    cases h1 : fill false s with
    | stuck why => simp [h1] at hf
    | ended st1 u => exact hfatal false s (by rw [← hf, h1]; rfl)
    | ok u s1 => exact hfatal true s1 (by rw [← hf, h1]; rfl)
  cases tp with
  | idle => simp [initFill] at h
  | samples => simp [initFill] at h
  | power => simp [initFill] at h
  | window => exact hboth h
  | frames => exact hboth h

/-- An INIT that ends with OK finishes what its initial fill goes on with. -/
theorem execInit_ok (hx : execInit tap w s = .next t) (hst : t.lastSt = .ok) :
    ∃ tp u, initArgOk tp w = true ∧ initFill tp (clearChain tp w s) = .ok () u ∧ t = u.finish .ok 0 := by
  obtain ⟨tp, -, hok, hx⟩ := execInit_of_ne_invalidArgument hx (by rw [hst]; decide)
  cases hf : initFill tp (clearChain tp w s) with
  | stuck why => simp [hf] at hx
  | ended st u =>
    rw [hf, Flow.bind_ended, Flow.close_ended, Host.Outcome.next.injEq] at hx
    exact absurd (by rw [← hst, ← hx, State.finish_lastSt]) (initFill_ended_ne_ok hf)
  | ok v u =>
    rw [hf, Flow.bind_ok, Flow.close_ok, Host.Outcome.next.injEq] at hx
    exact ⟨tp, u, hok, hf, hx.symm⟩

/-! The initial fill. -/

/-- An initial fill that goes on: none, off WINDOW and FRAMES, or two fills that went on (R141, R252). -/
theorem initFill_ok (h : initFill tp s = .ok () t) :
    (tp ≠ .window ∧ tp ≠ .frames ∧ t = s) ∨ ∃ s1, fill false s = .ok () s1 ∧ fill true s1 = .ok () t := by
  have hboth : fillInitial s = .ok () t → ∃ s1, fill false s = .ok () s1 ∧ fill true s1 = .ok () t := fun hf => by
    unfold fillInitial at hf
    cases h1 : fill false s with
    | stuck why => simp [h1] at hf
    | ended st u => simp [h1] at hf
    | ok u s1 => exact ⟨s1, rfl, by rwa [h1] at hf⟩
  cases tp with
  | idle => exact .inl ⟨by decide, by decide, (Flow.ok.inj h).2.symm⟩
  | samples => exact .inl ⟨by decide, by decide, (Flow.ok.inj h).2.symm⟩
  | power => exact .inl ⟨by decide, by decide, (Flow.ok.inj h).2.symm⟩
  | window => exact .inr (hboth h)
  | frames => exact .inr (hboth h)

theorem fill_ok_fatal {b : Bool} {u : Unit} (h : fill b s = .ok u t) :
    t.fatal = s.fatal ∧ t.fatalCause = s.fatalCause := by simpa using fillSlots_ok_fatal h

section

variable (h : initFill tp (clearChain tp w s) = .ok () t)

include h

theorem initFill_cleanStart : t.cleanStart = true := by
  have hclean : t.fatal = false ∧ t.fatalCause = .ok := by
    rcases initFill_ok h with ⟨-, -, rfl⟩ | ⟨s1, h1, h2⟩
    · exact ⟨rfl, rfl⟩
    · rw [(fill_ok_fatal h2).1, (fill_ok_fatal h2).2, (fill_ok_fatal h1).1, (fill_ok_fatal h1).2]
      exact ⟨rfl, rfl⟩
  simp [State.cleanStart, hclean.1, hclean.2]

theorem initFill_frame_clearChain : FilledFrom (clearChain tp w s) t := initFill_frame (by rw [h]; rfl)

theorem initFill_wsizeAgrees (hok : initArgOk tp w = true) : t.wsizeAgrees = true := by
  rw [initFill_frame_clearChain h]
  exact wsizeAgrees_clearChain s hok

theorem initFill_freshSums (bs : List Byte) : t.freshSums bs := by
  rw [initFill_frame_clearChain h]
  exact fun _ => .inl ⟨rfl, rfl, rfl⟩

/-- Under WINDOW and FRAMES the two fills have loaded the window with the bytes they took. -/
theorem initFill_onWindow (hon : t.onWindow) : t.loadedEnd ∧ ∃ bs, t.Carries bs := by
  rcases initFill_ok h with ⟨hw, hfr, rfl⟩ | ⟨s1, h1, h2⟩
  · exact absurd hon (by simp [State.onWindow, hw, hfr])
  · exact ⟨loadedEnd_fills rfl rfl h1 h2, exists_carries_of_fills h1 h2⟩

theorem initFill_windowInv : t.WindowInv := fun hon _ _ => (initFill_onWindow h hon).1

theorem initFill_windowHolds : t.WindowHolds :=
  State.WindowCarries.windowHolds (fun hon _ _ => (initFill_onWindow h hon).2) (initFill_freshSums h)

theorem initFill_premises (hok : initArgOk tp w = true) : t.Premises where
  clean := initFill_cleanStart h
  tap := initFill_wsizeAgrees h hok
  window := by
    by_cases hon : t.onWindow
    · obtain ⟨hend, bs, hb⟩ := initFill_onWindow h hon
      exact ⟨bs, fun _ => ⟨hend, hb.showsStream⟩, initFill_freshSums h bs⟩
    · exact ⟨[], fun hon' => absurd hon' hon, initFill_freshSums h []⟩

end

end

/-! The reset state (R391). -/

theorem reset_inv : State.reset.Inv := inv_assertReset (s := State.reset) 0 (by decide)

/-- Settles O55: the reset state has the invariant by its values, and it is one that INIT IDLE leaves; an INIT that ends with
OK finishes an initial fill that went on. -/
theorem resetHasInvariants : Obligations.ResetHasInvariants := by
  have hreset : initFill .idle (clearChain .idle 0 State.reset) = .ok () State.reset := rfl
  refine ⟨reset_inv, initFill_windowInv hreset, initFill_windowHolds hreset, initFill_premises hreset rfl,
    fun tap w s t hx hst => ?_⟩
  obtain ⟨tp, u, hok, hf, rfl⟩ := execInit_ok hx hst
  have hinv := initFill_windowInv hf
  have hprem := initFill_premises hf hok
  exact ⟨hinv, windowHolds_finish .ok 0 (initFill_windowHolds hf), ⟨hprem.clean, hprem.tap, hprem.window⟩⟩

end Sys2Proof.Machine

/-! How many stream bytes a command takes (70_reset_and_hazards.md R405): at most two per sample read, four per power step, a
buffer's 262144 per fill, and a window step fills at a boundary only. -/

namespace Sys2Proof.Machine

open Sys2Proof.Config

/-- `BYTES_IN` has grown by at most `n` from `s` to `t` (R36). -/
def TookAtMost (n : Nat) (s t : State) : Prop := ∃ k ≤ n, t.bytesIn = s.bytesIn + BitVec.ofNat 64 k

section

variable {m n : Nat} {s t u : State}

theorem TookAtMost.of_eq (h : t.bytesIn = s.bytesIn) : TookAtMost n s t := ⟨0, Nat.zero_le n, by simp [h]⟩

theorem TookAtMost.refl (s : State) : TookAtMost n s s := .of_eq rfl

theorem TookAtMost.mono (h : TookAtMost m s t) (hmn : m ≤ n) : TookAtMost n s t :=
  h.imp fun _ ⟨hk, heq⟩ => ⟨hk.trans hmn, heq⟩

theorem TookAtMost.trans (h : TookAtMost m s t) (h' : TookAtMost n t u) : TookAtMost (m + n) s u := by
  obtain ⟨j, hj, hjt⟩ := h
  obtain ⟨k, hk, hku⟩ := h'
  exact ⟨j + k, Nat.add_le_add hj hk, by rw [hku, hjt, BitVec.ofNat_add, BitVec.add_assoc]⟩

/-- The bound on the growth, also where the 64 bits of `BYTES_IN` wrap. -/
theorem TookAtMost.toNat_sub_le (h : TookAtMost n s t) : (t.bytesIn - s.bytesIn).toNat ≤ n := by
  obtain ⟨k, hk, heq⟩ := h
  rw [heq, BitVec.add_comm, BitVec.add_sub_cancel, BitVec.toNat_ofNat]
  exact (Nat.mod_le k _).trans hk

/-! The sample chain (R211, R232, R252). -/

theorem tookAtMost_countByte (s : State) : TookAtMost 1 s (countByte s) := ⟨1, le_rfl, rfl⟩

/-- The nibble check counts nothing (R212). -/
theorem assembleSample_bytesIn {b0 b1 : Byte} (hl : (assembleSample b0 b1 s).Leaves t) : t.bytesIn = s.bytesIn := by
  unfold assembleSample at hl
  split at hl
  · split at hl
    · rw [leaves_raiseFatal] at hl
      exact hl ▸ rfl
    · exact hl ▸ rfl
  · exact hl ▸ rfl

/-- A sample read counts each of its two bytes as it takes it, whatever the event after it is. -/
theorem readSample_tookAtMost (hl : (readSample s).Leaves t) : TookAtMost 2 s t := by
  unfold readSample at hl
  split at hl
  · exact hl ▸ .refl s
  · rcases Flow.leaves_bind hl with ⟨st, he⟩ | ⟨e0, s1, h1, hl⟩
    · exact absurd he (portRead_not_ended _ _ _)
    · obtain ⟨p, -, rfl⟩ := portRead_ok h1
      cases e0 with
      | eof => exact .of_eq (hl ▸ rfl)
      | ioerr => exact .of_eq (hl ▸ rfl)
      | byte b0 =>
        refine TookAtMost.trans (m := 1) (n := 1) (tookAtMost_countByte { s with port := p }) ?_
        rcases Flow.leaves_bind hl with ⟨st, he⟩ | ⟨e1, s2, h2, hl⟩
        · exact absurd he (portRead_not_ended _ _ _)
        · obtain ⟨p', -, rfl⟩ := portRead_ok h2
          cases e1 with
          | eof => exact .of_eq (hl ▸ rfl)
          | ioerr => exact .of_eq (hl ▸ rfl)
          | byte b1 => exact ⟨1, le_rfl, assembleSample_bytesIn hl⟩

theorem powerStep_tookAtMost (hl : (powerStep s).Leaves t) : TookAtMost 4 s t := by
  unfold powerStep at hl
  rcases Flow.leaves_bind hl with ⟨st, he⟩ | ⟨r0, s1, h1, hl⟩
  · exact (readSample_tookAtMost (by rw [he]; rfl)).mono (by decide)
  · have hone : TookAtMost 2 s s1 := readSample_tookAtMost (by rw [h1]; rfl)
    cases r0 with
    | none => exact hl ▸ hone.mono (by decide)
    | some r0 =>
      rcases Flow.leaves_bind hl with ⟨st, he⟩ | ⟨r1, s2, h2, hl⟩
      · exact hone.trans (readSample_tookAtMost (by rw [he]; rfl))
      · have htwo : TookAtMost 4 s s2 := hone.trans (readSample_tookAtMost (by rw [h2]; rfl))
        cases r1 with
        | none => exact hl ▸ htwo
        | some r1 => exact hl ▸ htwo

theorem fillSlots_tookAtMost {b : Bool} (hl : (fillSlots n b s).Leaves t) : TookAtMost (4 * n) s t := by
  induction n generalizing s with
  | zero => exact hl ▸ .refl s
  | succ n ih =>
    simp only [fillSlots] at hl
    cases hp : powerStep s with
    | stuck why => simp [hp] at hl
    | ended st s1 =>
      rw [hp] at hl
      exact hl ▸ (powerStep_tookAtMost (by rw [hp]; rfl)).mono (by omega)
    | ok r s1 =>
      have hone : TookAtMost 4 s s1 := powerStep_tookAtMost (by rw [hp]; rfl)
      rw [hp] at hl
      cases r with
      | none => exact hl ▸ hone.mono (by omega)
      | some p =>
        have hstored : TookAtMost 0 s1 (storeSlot b p s1) := .of_eq (storeSlot_bytesIn b p s1)
        exact (hone.trans (hstored.trans (ih hl))).mono (by omega)

theorem fill_tookAtMost {b : Bool} (hl : (fill b s).Leaves t) : TookAtMost 262144 s t :=
  ((TookAtMost.of_eq (n := 0) (startFill_bytesIn b s)).trans (fillSlots_tookAtMost hl)).mono (by decide)

theorem fillInitial_tookAtMost (hl : (fillInitial s).Leaves t) : TookAtMost 524288 s t := by
  rcases Flow.leaves_bind hl with ⟨st, he⟩ | ⟨u, s1, h1, hl⟩
  · exact (fill_tookAtMost (by rw [he]; rfl)).mono (by decide)
  · exact (fill_tookAtMost (by rw [h1]; rfl)).trans (fill_tookAtMost hl)

theorem initFill_tookAtMost {tp : Tap} (hl : (initFill tp s).Leaves t) :
    TookAtMost (if tp.code.toNat ≤ 2 then 0 else 524288) s t := by
  cases tp with
  | idle => exact hl ▸ .refl s
  | samples => exact hl ▸ .refl s
  | power => exact hl ▸ .refl s
  | window => exact fillInitial_tookAtMost hl
  | frames => exact fillInitial_tookAtMost hl

/-! The window steps (R253, R259). -/

/-- The bytes of one fill per boundary that `n` steps from `POS` cross. -/
def boundaryBytes (s : State) (n : Nat) : Nat := 262144 * ((s.pos.toNat % 65536 + n) / 65536)

theorem wstep_tookAtMost (hl : (wstep s).Leaves t) : TookAtMost (boundaryBytes s 1) s t := by
  by_cases hlast : s.pos = BitVec.allOnes 64
  · rw [wstep_last hlast] at hl
    exact hl ▸ .refl s
  · by_cases hb : s.pos.toNat % 65536 = 65535
    · rw [wstep_boundary hb hlast] at hl
      have hfill := fill_tookAtMost hl
      exact TookAtMost.mono (s := s) hfill (by rw [boundaryBytes, hb])
    · rw [wstep_inside (by omega)] at hl
      exact .of_eq (hl ▸ rfl)

/-- The boundaries crossed by `n + 1` steps are those of the first step and those of the others. -/
theorem boundaryBytes_succ (n : Nat) (hpos : t.pos.toNat = s.pos.toNat + 1) :
    boundaryBytes s 1 + boundaryBytes t n = boundaryBytes s (n + 1) := by
  unfold boundaryBytes
  omega

theorem wsteps_tookAtMost (hl : (wsteps n s).Leaves t) : TookAtMost (boundaryBytes s n) s t := by
  induction n generalizing s with
  | zero => exact hl ▸ .refl s
  | succ n ih =>
    simp only [wsteps] at hl
    cases hw : wstep s with
    | stuck why => simp [hw] at hl
    | ended st s1 =>
      rw [hw] at hl
      exact hl ▸ (wstep_tookAtMost (by rw [hw]; rfl)).mono (by unfold boundaryBytes; omega)
    | ok v s1 =>
      rw [hw] at hl
      rw [← boundaryBytes_succ n (wstep_ok_pos hw)]
      exact (wstep_tookAtMost (by rw [hw]; rfl)).trans (ih hl)

/-! The commands (R405). -/

/-- A part that after `x` only answers or ends leaves what `x` leaves. -/
theorem Flow.leaves_of_bind_answer {α β : Type} {x : Flow α} {f : α → State → Flow β}
    (hf : ∀ a u v, (f a u).Leaves v → u = v) (h : (x.bind f).Leaves t) : x.Leaves t := by
  cases x with
  | ok a u => exact hf a u t h
  | ended st u => exact h
  | stuck why => exact h

/-- A stream-unit command takes no more than its body does. -/
theorem streamUnit_tookAtMost {o : Op} {body : State → Flow Word64} (hx : (streamUnit o s body).close = .next t)
    (hbody : ∀ u, (body s).Leaves u → TookAtMost n s u) : TookAtMost n s t := by
  obtain ⟨u, st, v, hl, rfl⟩ := Flow.close_next hx
  rcases streamUnit_leaves hl with rfl | ⟨-, -, hl⟩
  · exact .of_eq rfl
  · exact hbody u hl

theorem execSdNext_tookAtMost (hx : execSdNext s = .next t) : TookAtMost 2 s t :=
  streamUnit_tookAtMost hx fun _ hl =>
    readSample_tookAtMost (Flow.leaves_of_bind_answer (fun a _ _ h => by cases a <;> exact h) hl)

theorem execPcNext_tookAtMost (hx : execPcNext s = .next t) : TookAtMost 4 s t :=
  streamUnit_tookAtMost hx fun _ hl =>
    powerStep_tookAtMost (Flow.leaves_of_bind_answer (fun a _ _ h => by cases a <;> exact h) hl)

theorem execPwAdv_tookAtMost (hx : execPwAdv s = .next t) : TookAtMost 262144 s t :=
  streamUnit_tookAtMost hx fun _ hl =>
    (wstep_tookAtMost (Flow.leaves_of_bind_ok hl)).mono (by unfold boundaryBytes; omega)

theorem execPwAdvn_tookAtMost {i : Int} (hx : execPwAdvn i s = .next t) :
    TookAtMost (boundaryBytes s i.toNat) s t :=
  streamUnit_tookAtMost hx fun u hl => by
    split at hl
    · exact hl ▸ .refl s
    · exact wsteps_tookAtMost (Flow.leaves_of_bind_ok hl)

theorem bytesIn_besideKeeps (c : Word64) : BesideKeeps fun t => t.bytesIn = c where
  finish := fun _ _ _ h => h
  write := fun _ _ _ _ h => by simpa [memWrite] using h

/-- An INIT that is not refused counts the bytes of its initial fill from 0 (R141). -/
theorem execInit_bytesIn_le {tap : Nat} {w : Int} (hx : execInit tap w s = .next t)
    (hst : t.lastSt ≠ .invalidArgument) : t.bytesIn.toNat ≤ if tap ≤ 2 then 0 else 524288 := by
  obtain ⟨tp, htp, -, hx⟩ := execInit_of_ne_invalidArgument hx hst
  obtain ⟨u, st, v, hl, rfl⟩ := Flow.close_next hx
  have htook := (initFill_tookAtMost (Flow.leaves_of_bind_ok hl)).toNat_sub_le
  rwa [clearChain_bytesIn, sub_zero, ← Tap.ofCode_eq_some.1 htp] at htook

end

/-- Settles O60: the sample chain takes what its reads take, PW_ADVN a fill per boundary, and no other command reads the
stream. -/
theorem streamBytesPerCommand : Obligations.StreamBytesPerCommand := by
  refine ⟨fun i s t _ hd hi hx => ?_, fun tap w s t => execInit_bytesIn_le⟩
  by_cases hr : Instr.reads i = true
  · have hsame := exec_keeps_of_reads (bytesIn_besideKeeps s.bytesIn) hr rfl hx
    rw [hsame, BitVec.sub_self]
    exact Nat.zero_le _
  · cases i with
    | init tap w => exact absurd rfl (hi tap w)
    | dmNext => exact absurd rfl hd
    | sdNext => exact (execSdNext_tookAtMost hx).toNat_sub_le
    | pcNext => exact (execPcNext_tookAtMost hx).toNat_sub_le
    | pwAdv => exact (execPwAdv_tookAtMost hx).toNat_sub_le
    | pwAdvn n => exact (execPwAdvn_tookAtMost hx).toNat_sub_le
    | bbWr index imm =>
      exact (TookAtMost.of_eq (execBbWr_keeps (bytesIn_besideKeeps s.bytesIn) rfl hx)).toNat_sub_le
    | _ => exact absurd rfl hr

end Sys2Proof.Machine
